-- ==== Sys2Proof/Word.lean ====
section
/-! DEFINITION. The widths of the engine's data: bytes, 32-bit words, 64-bit counters and the
8 × 16-byte Groestl matrix (00_scope.md R6, R10). -/

namespace Sys2Proof

/-- A message, digest or matrix byte (R6). -/
abbrev Byte := BitVec 8

/-- A 32-bit word: a SHA-1 working word or a host register (R5 WORD, R6). -/
abbrev Word := BitVec 32

/-- A 64-bit counter or length field (R5 LEN_FIELD_BITS, TOTAL_BITS). -/
abbrev DWord := BitVec 64

/-- An 8-row, 16-column matrix of bytes: `m[r][c]` is row r, column c (R10). -/
abbrev ByteMatrix := Vector (Vector Byte 16) 8

end Sys2Proof
end

