-- ==== Sys2Proof/Syntax.lean ====
section
/-! DEFINITION. The nine instructions, the host access that carries one, and what the host and the
platform can do to an engine (30_encoding.md R90; 00_scope.md R15). -/

namespace Sys2Proof

/-- The algorithm codes of ALG; code 3 is never stored (10_state.md R32). -/
inductive Alg where
  | sha1
  | groestl512
  | groestl384
  deriving DecidableEq, Repr

/-- The four host registers (10_state.md R43). -/
inductive Reg where
  | cmd
  | status
  | din
  | dout
  deriving DecidableEq, Repr

/-- One constructor for each row of spec/opcode_table.json. -/
inductive Instr where
  /-- INIT (R111): write CMD, OPC 1, with the algorithm of field ALG. -/
  | init (alg : Alg)
  /-- ADD (R112): write CMD, OPC 2, with the byte count of field LEN. -/
  | add (len : BitVec 24)
  /-- FINALIZE (R113): write CMD, OPC 3. -/
  | finalize
  /-- GET_DIGEST (R114): write CMD, OPC 4. -/
  | getDigest
  /-- WRITE_DIN (R120): write DIN; the byte is bits [7:0] of the written word. -/
  | writeDin (b : Byte)
  /-- READ_STATUS (R115): read STATUS. -/
  | readStatus
  /-- READ_DOUT (R116): read DOUT. -/
  | readDout
  /-- READ_WO (R118): read of a write-only register, CMD or DIN. -/
  | readWo (reg : Reg)
  /-- WRITE_RO (R118): write to a read-only register, STATUS or DOUT. -/
  | writeRo (reg : Reg)
  deriving DecidableEq, Repr

/-- The direction of a host access (R90). -/
inductive Dir where
  | write
  | read
  deriving DecidableEq, Repr

/-- The width of a host access; only 32-bit ones are defined (10_state.md R43). -/
inductive Width where
  | bits8
  | bits16
  | bits32
  | bits64
  deriving DecidableEq, Repr

/-- A host access at a byte offset from an engine's base, below 0 where it starts before the register block and
runs into it; `data` is the written word, unused by a read (R90). -/
structure Access where
  dir    : Dir
  width  : Width
  offset : Int
  data   : Word
  deriving DecidableEq, Repr

/-- What can happen to an engine next: the host issues an access (R97), the platform asserts reset
(70_reset_and_hazards.md R290), or neither does. Log entry 4. -/
inductive HostEvent where
  | access (a : Access)
  | reset
  | idle
  deriving DecidableEq, Repr

end Sys2Proof
end

