-- ==== Sys2Proof/WellFormed.lean ====
section
/-! DEFINITION. Which instructions and which host accesses the spec defines. -/

namespace Sys2Proof

/-- The access column of 10_state.md R43: CMD and DIN are write-only, STATUS and DOUT read-only. -/
def Reg.writeOnly : Reg → Bool
  | .cmd => true
  | .status => false
  | .din => true
  | .dout => false

/-- READ_WO reads a write-only register and WRITE_RO writes a read-only one (30_encoding.md R90);
every other operand is in range by its type. -/
def Instr.wellFormed : Instr → Bool
  | .init _ => true
  | .add _ => true
  | .finalize => true
  | .getDigest => true
  | .writeDin _ => true
  | .readStatus => true
  | .readDout => true
  | .readWo reg => reg.writeOnly
  | .writeRo reg => !reg.writeOnly

/-- An access is defined when it is 32 bits wide at one of the four offsets (20_memory.md R77,
92_eei_decisions.md D3). -/
def Access.defined (a : Access) : Bool :=
  a.width == .bits32 && [0x0, 0x4, 0x8, 0xC].contains a.offset

end Sys2Proof
end

