-- ==== Sys2Proof/Decode.lean ====
section
/-! DEFINITION. The fields of a command word (30_encoding.md R91, R94), the decoder of a host access
(R95) and the encoder (R96). -/

namespace Sys2Proof

/-! ### Fields of CMD32 (R91) -/

/-- OPC, bits [3:0]. -/
def Cmd.opc (v : Word) : BitVec 4 := v.extractLsb' 0 4

/-- ALG, bits [5:4]. -/
def Cmd.alg (v : Word) : BitVec 2 := v.extractLsb' 4 2

/-- RSV, bits [7:6]. -/
def Cmd.rsv (v : Word) : BitVec 2 := v.extractLsb' 6 2

/-- LEN, bits [31:8]. -/
def Cmd.len (v : Word) : BitVec 24 := v.extractLsb' 8 24

/-- The command word with the given fields (R91). -/
def Cmd.pack (len : BitVec 24) (rsv alg : BitVec 2) (opc : BitVec 4) : Word :=
  (len ++ rsv ++ alg ++ opc : BitVec (24 + 2 + 2 + 4))

/-- DIN's operand, bits [7:0]; bits [31:8] are ignored (10_state.md R45). -/
def Din.byte (v : Word) : Byte := v.extractLsb' 0 8

/-- The ALG codes of R92; code 3 is reserved. -/
def Alg.ofCode (c : BitVec 2) : Option Alg :=
  if c = 0 then some .sha1
  else if c = 1 then some .groestl512
  else if c = 2 then some .groestl384
  else none

/-- The code of an algorithm (R92; 10_state.md R32). -/
def Alg.code : Alg → BitVec 2
  | .sha1 => 0
  | .groestl512 => 1
  | .groestl384 => 2

/-- The register at an offset of the block (10_state.md R43). -/
def Reg.ofOffset : Int → Option Reg
  | 0x0 => some .cmd
  | 0x4 => some .status
  | 0x8 => some .din
  | 0xC => some .dout
  | _ => none

/-- The offset of a register (10_state.md R43). -/
def Reg.offset : Reg → Int
  | .cmd => 0x0
  | .status => 0x4
  | .din => 0x8
  | .dout => 0xC

/-! ### The decoder (R95) -/

/-- What an access decodes to: an instruction, the illegal command word of R93, or nothing, where the
spec defines no access (92_eei_decisions.md D3). -/
inductive Decoded where
  | instr (i : Instr)
  | illegal
  | undefined
  deriving DecidableEq, Repr

/-- A command word, decoded in the order of R95. -/
def decodeCmd (v : Word) : Option Instr :=
  if Cmd.rsv v ≠ 0 then none
  else if Cmd.opc v = 1 ∧ Cmd.len v = 0 then (Alg.ofCode (Cmd.alg v)).map .init
  else if Cmd.opc v = 2 ∧ Cmd.alg v = 0 then some (.add (Cmd.len v))
  else if Cmd.opc v = 3 ∧ Cmd.alg v = 0 ∧ Cmd.len v = 0 then some .finalize
  else if Cmd.opc v = 4 ∧ Cmd.alg v = 0 ∧ Cmd.len v = 0 then some .getDigest
  else none

/-- A 32-bit write of v to a register (R95). -/
def decodeWrite (reg : Reg) (v : Word) : Decoded :=
  match reg with
  | .cmd =>
    match decodeCmd v with
    | some i => .instr i
    | none => .illegal
  | .din => .instr (.writeDin (Din.byte v))
  | .status => .instr (.writeRo .status)
  | .dout => .instr (.writeRo .dout)

/-- A 32-bit read of a register (R95). -/
def decodeRead (reg : Reg) : Decoded :=
  match reg with
  | .cmd => .instr (.readWo .cmd)
  | .din => .instr (.readWo .din)
  | .status => .instr .readStatus
  | .dout => .instr .readDout

/-- The decoder, total on every access (R95): other widths and offsets are undefined. -/
def decode (a : Access) : Decoded :=
  if a.width ≠ .bits32 then .undefined
  else
    match Reg.ofOffset a.offset with
    | none => .undefined
    | some reg =>
      match a.dir with
      | .write => decodeWrite reg a.data
      | .read => decodeRead reg

/-! ### The encoder (R92, R96) -/

/-- A 32-bit write of v to a register. -/
def writeAccess (reg : Reg) (v : Word) : Access := ⟨.write, .bits32, reg.offset, v⟩

/-- A 32-bit read of a register. -/
def readAccess (reg : Reg) : Access := ⟨.read, .bits32, reg.offset, 0⟩

/-- The access of an instruction, with zeros in the bits its register ignores (R96). -/
def encode : Instr → Access
  | .init alg => writeAccess .cmd (Cmd.pack 0 0 alg.code 1)
  | .add len => writeAccess .cmd (Cmd.pack len 0 0 2)
  | .finalize => writeAccess .cmd (Cmd.pack 0 0 0 3)
  | .getDigest => writeAccess .cmd (Cmd.pack 0 0 0 4)
  | .writeDin b => writeAccess .din (b.setWidth 32)
  | .readStatus => readAccess .status
  | .readDout => readAccess .dout
  | .readWo reg => readAccess reg
  | .writeRo reg => writeAccess reg 0

/-! ### Instructions as numbers, for the opcode table -/

/-- The access whose bits are w: the written word in bits 31..0, as the table numbers a CMD32 row,
then the offset in bits 35..32 and, in bit 36, 1 for a read. A 32-bit number is therefore a write of
CMD. The bits above 31 are the model's own numbering of the BUS rows. Log entry 13. -/
def Access.ofTableWord (nbits w : Nat) : Access :=
  let b := w % 2 ^ nbits
  { dir := if b / 2 ^ 36 % 2 = 1 then .read else .write
    width := .bits32
    offset := (b / 2 ^ 32 % 16 : Nat)
    data := BitVec.ofNat 32 b }

/-- The instruction the decoder reads from an instruction whose bits are w. -/
def decodeTableWord (nbits w : Nat) : Option Instr :=
  match decode (Access.ofTableWord nbits w) with
  | .instr i => some i
  | .illegal => none
  | .undefined => none

end Sys2Proof
end

