-- ==== Sys2Proof/Config.lean ====
section
/-! DEFINITION. What an implementation or a platform fixes (00_scope.md R5) and the free values of
the model. A constant without a body is open: no proof can see its value. -/

namespace Sys2Proof

/-- GROESTL_LEN_MODE: what the Groestl length field holds (00_scope.md R5, 40_block_engine.md R131). -/
inductive LenMode where
  | blockCount
  | bitLength
  deriving DecidableEq, Repr

/-- The spec's chosen value of GROESTL_LEN_MODE (90_conflicts.md C1, 92_eei_decisions.md D9).
DESIGN CHOICE, log entry 7. -/
def Config.groestlLenMode : LenMode := .blockCount

/-- N_INSTANCES, at least 1 (00_scope.md R5, OPEN). Log entry 9. -/
opaque Config.nInstances : { n : Nat // 1 ≤ n } := ⟨1, Nat.le_refl 1⟩

/-- ENGINE_BASE(k), the platform address of register block k (00_scope.md R5, OPEN). Log entry 9. -/
opaque Config.engineBase : Nat → Nat

/-- FREE VALUE: engine e's k-th draw for H, when INIT selects Groestl and leaves H unspecified
(10_state.md R33, 40_block_engine.md R111, U5). Log entry 5. -/
opaque Config.freeWords (e k : Nat) : Vector Word 5

/-- FREE VALUE: engine e's k-th draw for G, when INIT selects SHA-1 and leaves G unspecified
(10_state.md R33, 40_block_engine.md R111, U5). Log entry 5. -/
opaque Config.freeMatrix (e k : Nat) : ByteMatrix

/-- FREE VALUE: the byte that engine e's k-th draw, a reset, leaves in BUF[a] (70_reset_and_hazards.md
R290, U3). Log entry 2. -/
opaque Config.freeByte (e k a : Nat) : Byte

end Sys2Proof
end

