-- ==== Sys2Proof/Machine/State.lean ====
section
/-! DEFINITION. The state of one engine (10_state.md R30), the reasons a step can stop, and the
state after reset (70_reset_and_hazards.md R290). -/

namespace Sys2Proof.Machine

/-- PHASE, the lifecycle of the context (10_state.md R31). -/
inductive Phase where
  | idle
  | absorb
  | final
  | fault
  deriving DecidableEq, Repr

/-- FCODE, the first fault since reset (60_exceptions.md R260); codes 6 to 15 are never recorded and
have no constructor (U7). -/
inductive FCode where
  | none
  | illegalCmd
  | sequence
  | dinUnexpected
  | doutEmpty
  | lengthOverflow
  deriving DecidableEq, Repr

/-- Where a compression or the output transform stands: before its load step, or in its rounds, whose
counter is t or r (10_state.md R40, R41). The last round done, the next step is the feed-forward or
combine. -/
inductive Stage where
  | load
  | rounds
  deriving DecidableEq, Repr

/-- The step within a FINALIZE job (40_block_engine.md R132): padding, then the compressions, then the
Groestl output transform. `rest` is the part of the padding string not yet in BUF. Log entry 3. -/
inductive FinStep where
  | pad
  | block (stage : Stage) (rest : List Byte)
  | output (stage : Stage)
  deriving DecidableEq, Repr

/-- SEQ, the job and the step within it (10_state.md R36). -/
inductive Seq where
  | none
  | compress (stage : Stage)
  | finalize (step : FinStep)
  deriving DecidableEq, Repr

/-- The SHA-1 round registers A, Bw, C, D and E (10_state.md R40). -/
structure RoundRegs where
  a  : Word
  bw : Word
  c  : Word
  d  : Word
  e  : Word
  deriving DecidableEq, Repr

/-- A byte memory: the listed cells, addresses strictly rising, are the bytes stored since reset. What an
unlisted address of BUF holds is `State.bufByte`'s to say. -/
abbrev Memory := List Host.Cell

/-- The addresses of the cells rise strictly, so equal memories are equal lists. -/
def Memory.wf : Memory → Bool
  | [] => true
  | [_] => true
  | x :: y :: rest => decide (x.1 < y.1) && Memory.wf (y :: rest)

/-- One engine (10_state.md R30) and, last, the model's own five fields: what the host and the
platform do next, what the host's reads returned, and three that say which free values are whose. -/
structure State where
  /-- PHASE (R31). -/
  phase      : Phase
  /-- ALG (R32). -/
  alg        : Alg
  /-- H[0..4] (R33). -/
  h          : Vector Word 5
  /-- G (R33). -/
  g          : ByteMatrix
  /-- BUF (R34), the bytes stored since reset; every other byte holds a free value, log entry 2. What
  stands at and above BUF_LEN stays there: log entry 6. -/
  buf        : Memory
  /-- BUF_LEN (R34). -/
  bufLen     : BitVec 8
  /-- TOTAL (R35). -/
  total      : DWord
  /-- BLOCKS (R35). -/
  blocks     : DWord
  /-- ADD_REMAIN (R37). -/
  addRemain  : BitVec 24
  /-- DOUT_REMAIN (R38). -/
  doutRemain : BitVec 7
  /-- FCODE (R39). -/
  fcode      : FCode
  /-- BUSY (R36). -/
  busy       : Bool
  /-- SEQ (R36). -/
  seq        : Seq
  /-- A, Bw, C, D and E (R40). Between jobs the working registers keep their last values: log entry 12. -/
  regs       : RoundRegs
  /-- WIN[0..15] (R40). -/
  win        : Vector Word 16
  /-- The SHA-1 round counter t (R40). -/
  t          : Nat
  /-- PM, the P pipeline (R41). -/
  pm         : ByteMatrix
  /-- QM, the Q pipeline (R41). -/
  qm         : ByteMatrix
  /-- The Groestl round counter r (R41). -/
  r          : Nat
  /-- MODEL FIELD: the accesses and resets still to come, oldest first. Log entry 4. -/
  pending    : List HostEvent
  /-- MODEL FIELD: the words the taken reads returned, in read order (30_encoding.md R97). Log entry 4. -/
  reads      : List Word
  /-- MODEL FIELD: how many free values were drawn. Log entry 5. -/
  draws      : Nat
  /-- MODEL FIELD: the draw of the last reset, which names the free values BUF holds. Log entry 2. -/
  bufDraw    : Nat
  /-- MODEL FIELD: the engine's number on the platform, which names its free values: engines draw
  independently of each other (60_exceptions.md R281). Nothing else reads it. Log entry 5. -/
  engine     : Nat
  deriving DecidableEq, Repr

/-- Where the model stops. None of these is a fault of the engine: those are states (R262). -/
inductive Fault where
  /-- A write of BUF at an index above 127, which does not exist (20_memory.md R70). Raised by
  WRITE_DIN and by the padding of a FINALIZE job; no run from reset meets it. Safe. -/
  | bufferIndex
  /-- A job would read as data a BUF byte that nothing has stored since reset (70_reset_and_hazards.md
  R291: the model should fault, not pick a value). Raised by the load step of a compression; no run from reset meets it.
  Safe. -/
  | unspecifiedRead
  /-- DOUT_REMAIN is above DSIZE(ALG), so the digest has no such byte (40_block_engine.md R117).
  Raised by READ_DOUT; no run from reset meets it. Safe. -/
  | digestIndex
  deriving DecidableEq, Repr

/-- Why an access has no meaning. -/
inductive Refusal where
  /-- An instruction that has no meaning in the model yet; raised by `exec` alone. Safe. -/
  | notModelled (mnemonic : String)
  /-- An access of another width, or outside the four offsets (10_state.md R43, 20_memory.md R77,
  92_eei_decisions.md D3: "a model refuses"). Raised by `step`. Safe. Log entry 8. -/
  | undefinedAccess
  /-- READ_WO of a readable register or WRITE_RO of a writable one: no access decodes to it. Raised by
  the meanings of READ_WO and WRITE_RO. Safe. -/
  | illFormedOperand
  deriving DecidableEq, Repr

/-- The outcome of a step of this machine. -/
abbrev Result := Host.Outcome State Fault Refusal

/-- The all-zero matrix. -/
def zeroMatrix : ByteMatrix := Vector.replicate 8 (Vector.replicate 16 0)

/-- The machine right after reset (R290). The control state is the spec's. H, G, the round registers,
WIN, PM, QM, t and r are unspecified there: zero is a DESIGN CHOICE, log entry 1. Every BUF byte holds
the free value of draw 0: log entry 2. -/
def State.reset : State where
  phase := .idle
  alg := .sha1
  h := Vector.replicate 5 0
  g := zeroMatrix
  buf := []
  bufLen := 0
  total := 0
  blocks := 0
  addRemain := 0
  doutRemain := 0
  fcode := .none
  busy := false
  seq := .none
  regs := ⟨0, 0, 0, 0, 0⟩
  win := Vector.replicate 16 0
  t := 0
  pm := zeroMatrix
  qm := zeroMatrix
  r := 0
  pending := []
  reads := []
  draws := 1
  bufDraw := 0
  engine := 0

end Sys2Proof.Machine
end

