-- ==== Sys2Proof/Machine/Operands.lean ====
section
/-! DEFINITION. The fixed configuration of each algorithm (00_scope.md R3, R5), the word and byte
primitives (R7, R11) and the block and matrix mapping (42_groestl.md R200). -/

namespace Sys2Proof.Machine

/-- B(ALG) in bytes (R3). -/
def blockBytes : Alg → Nat
  | .sha1 => 64
  | .groestl512 => 128
  | .groestl384 => 128

/-- DSIZE(ALG) in bytes (R3). -/
def digestBytes : Alg → Nat
  | .sha1 => 20
  | .groestl512 => 64
  | .groestl384 => 48

/-- BUF_BYTES (R5). -/
def bufBytes : Nat := 128

/-- MAX_MSG_BYTES (R5). -/
def maxMsgBytes : Nat := 2 ^ 61 - 1

/-- rotl(a, n) for 0 < n < 32 (R7). -/
def rotl (a : Word) (n : Nat) : Word := (a <<< n) ||| (a >>> (32 - n))

/-- be32 of four bytes, the first one most significant (R11). -/
def be32 (b0 b1 b2 b3 : Byte) : Word := (b0 ++ b1 ++ b2 ++ b3 : BitVec (8 + 8 + 8 + 8))

/-- be32bytes (R11): w[31:24], w[23:16], w[15:8], w[7:0]. -/
def be32bytes (w : Word) : List Byte :=
  [w.extractLsb' 24 8, w.extractLsb' 16 8, w.extractLsb' 8 8, w.extractLsb' 0 8]

/-- be64bytes (R11), most significant byte first. -/
def be64bytes (v : DWord) : List Byte :=
  be32bytes (v.extractLsb' 32 32) ++ be32bytes (v.extractLsb' 0 32)

/-- zext_32 of a byte (30_encoding.md R94). -/
def zext32 (b : Byte) : Word := b.setWidth 32

/-- The matrix with the given entries. -/
def matrixOf (f : Fin 8 → Fin 16 → Byte) : ByteMatrix :=
  Vector.ofFn fun r => Vector.ofFn fun c => f r c

/-- Element-wise XOR of two matrices (R8). -/
def xorMatrix (x y : ByteMatrix) : ByteMatrix :=
  matrixOf fun r c => x[r][c] ^^^ y[r][c]

/-- msg(blk): element [r][c] is block byte c·8 + r (R200; 20_memory.md R74). -/
def msgOf (blk : Vector Byte 128) : ByteMatrix :=
  matrixOf fun r c => blk[c.val * 8 + r.val]

/-- The 128-byte string of a matrix: byte c·8 + r is [r][c] (R200). -/
def serialise (m : ByteMatrix) : Vector Byte 128 :=
  Vector.ofFn fun k => m[k.val % 8][k.val / 8]

end Sys2Proof.Machine
end

