-- ==== Sys2Proof/Machine/Ops.lean ====
section
/-! DEFINITION. The named operations on the state: the buffer's memory, the host side of an access,
the sequencer's start and end, fault entry, and the reset that alone leaves the fault state. -/

namespace Sys2Proof.Machine

/-! ### Memory (00_scope.md R12, 20_memory.md R70) -/

/-- The byte stored at an address since reset, if one was. -/
def Memory.read : Memory → Nat → Option Byte
  | [], _ => none
  | x :: rest, a => if x.1 = a then some x.2 else Memory.read rest a

/-- The memory with v at address a, its cells kept in rising order. -/
def Memory.write : Memory → Nat → Byte → Memory
  | [], a, v => [(a, v)]
  | x :: rest, a, v =>
    if a < x.1 then (a, v) :: x :: rest
    else if a = x.1 then (a, v) :: rest
    else x :: Memory.write rest a v

/-- BUF[a] (10_state.md R34): the byte stored there since reset, else the arbitrary value that reset left,
a draw under no law (70_reset_and_hazards.md R290). Log entry 2. -/
def State.bufByte (s : State) (a : Nat) : Byte :=
  (s.buf.read a).getD (Config.freeByte s.engine s.bufDraw a)

/-- BufRead(0, n) (R12): the n bytes from index 0. None where one of them is unspecified, which is not read
as data (70_reset_and_hazards.md R291). -/
def State.readBlock (n : Nat) (s : State) : Option (Vector Byte n) :=
  if ∀ i : Fin n, (s.buf.read i.val).isSome = true then some (Vector.ofFn fun i => s.bufByte i.val)
  else none

/-- BUF[BUF_LEN] <- b and BUF_LEN <- BUF_LEN + 1 (40_block_engine.md R120, R132); none where BUF has
no such index (R70). -/
def State.bufPush (b : Byte) (s : State) : Option State :=
  if s.bufLen.toNat < bufBytes then
    some { s with buf := s.buf.write s.bufLen.toNat b, bufLen := s.bufLen + 1 }
  else none

/-! ### The host side of an access (20_memory.md R78, R79; 30_encoding.md R97) -/

/-- The access at the head of the host's list is taken: the host goes on to its next one. -/
def State.retire (s : State) : State := { s with pending := s.pending.tail }

/-- A read returns w to the host. -/
def State.respond (w : Word) (s : State) : State := { s with reads := s.reads ++ [w] }

/-! ### The sequencer (10_state.md R36) -/

/-- BUSY <- 1; SEQ <- the job at a step (40_block_engine.md R113, R121, R132). -/
def State.startJob (q : Seq) (s : State) : State := { s with busy := true, seq := q }

/-- A block is compressed: BLOCKS <- BLOCKS + 1; BUF_LEN <- 0 (R121, R132). -/
def State.endBlock (s : State) : State := { s with blocks := s.blocks + 1, bufLen := 0 }

/-- BUSY <- 0; SEQ <- NONE (R121). -/
def State.endJob (s : State) : State := { s with busy := false, seq := .none }

/-- The end of a FINALIZE job (R132). -/
def State.endFinalize (s : State) : State :=
  { s with doutRemain := 0, phase := .final, busy := false, seq := .none }

/-! ### Faults (60_exceptions.md R262, R264) -/

/-- raise Fault(code) (R262): the first fault since reset is recorded, nothing else changes. -/
def State.raise (code : FCode) (s : State) : State :=
  if s.phase = .fault then s else { s with fcode := code, phase := .fault }

/-- The platform asserts reset (70_reset_and_hazards.md R290), the only way out of the fault state
(R264): every piece of the engine's state takes its reset value, BUF that of a new draw. The host's list
goes on, what its reads returned stays, and the engine keeps its number. -/
def State.platformReset (s : State) : State :=
  { State.reset with
    pending := s.pending.tail
    reads := s.reads
    draws := s.draws + 1
    bufDraw := s.draws
    engine := s.engine }

end Sys2Proof.Machine
end

