-- ==== Sys2Proof/Machine/Flags.lean ====
section
/-! DEFINITION. The STATUS word (10_state.md R44) and the phase legality of the commands
(60_exceptions.md R261). -/

namespace Sys2Proof.Machine

/-- The encodings of PHASE (10_state.md R31). -/
def Phase.code : Phase → BitVec 2
  | .idle => 0
  | .absorb => 1
  | .final => 2
  | .fault => 3

/-- The fault codes (60_exceptions.md R260). -/
def FCode.code : FCode → BitVec 4
  | .none => 0
  | .illegalCmd => 1
  | .sequence => 2
  | .dinUnexpected => 3
  | .doutEmpty => 4
  | .lengthOverflow => 5

/-- A flag at a bit of a word. -/
def flagAt (b : Bool) (n : Nat) : Word := (BitVec.ofBool b).setWidth 32 <<< n

/-- The STATUS word, put together as 40_block_engine.md R115 does. -/
def State.status (s : State) : Word :=
  flagAt s.busy 0 ||| s.phase.code.setWidth 32 <<< 1 ||| s.alg.code.setWidth 32 <<< 4
    ||| flagAt (s.addRemain != 0) 6 ||| flagAt (s.doutRemain != 0) 7
    ||| s.fcode.code.setWidth 32 <<< 8

/-- Legal(ins, PHASE, ADD_REMAIN) (R261). While bytes are owed no command is legal, whatever the phase
(10_state.md R37): log entry 11. The table speaks of commands only; the other accesses have no legality
of their own. -/
def legal (ins : Instr) (phase : Phase) (addRemain : BitVec 24) : Bool :=
  match ins with
  | .init _ => addRemain == 0 && (phase == .idle || phase == .absorb || phase == .final)
  | .add _ => addRemain == 0 && phase == .absorb
  | .finalize => addRemain == 0 && phase == .absorb
  | .getDigest => addRemain == 0 && phase == .final
  | .writeDin _ => true
  | .readStatus => true
  | .readDout => true
  | .readWo _ => true
  | .writeRo _ => true

end Sys2Proof.Machine
end

