-- ==== Sys2Proof/Machine/Groestl.lean ====
section
/-! DEFINITION. The Groestl compression engine (42_groestl.md R200 to R217): the round stages, the
permutations, the compression, the output transform, the initial values and the digests. -/

namespace Sys2Proof.Machine

/-! ### Tables and field arithmetic -/

/-- The substitution table as R202 prints it: row i, column j is S[16·i + j]. -/
def sboxRows : Vector (Vector Byte 16) 16 :=
  #v[#v[0x63, 0x7c, 0x77, 0x7b, 0xf2, 0x6b, 0x6f, 0xc5, 0x30, 0x01, 0x67, 0x2b, 0xfe, 0xd7, 0xab, 0x76],
    #v[0xca, 0x82, 0xc9, 0x7d, 0xfa, 0x59, 0x47, 0xf0, 0xad, 0xd4, 0xa2, 0xaf, 0x9c, 0xa4, 0x72, 0xc0],
    #v[0xb7, 0xfd, 0x93, 0x26, 0x36, 0x3f, 0xf7, 0xcc, 0x34, 0xa5, 0xe5, 0xf1, 0x71, 0xd8, 0x31, 0x15],
    #v[0x04, 0xc7, 0x23, 0xc3, 0x18, 0x96, 0x05, 0x9a, 0x07, 0x12, 0x80, 0xe2, 0xeb, 0x27, 0xb2, 0x75],
    #v[0x09, 0x83, 0x2c, 0x1a, 0x1b, 0x6e, 0x5a, 0xa0, 0x52, 0x3b, 0xd6, 0xb3, 0x29, 0xe3, 0x2f, 0x84],
    #v[0x53, 0xd1, 0x00, 0xed, 0x20, 0xfc, 0xb1, 0x5b, 0x6a, 0xcb, 0xbe, 0x39, 0x4a, 0x4c, 0x58, 0xcf],
    #v[0xd0, 0xef, 0xaa, 0xfb, 0x43, 0x4d, 0x33, 0x85, 0x45, 0xf9, 0x02, 0x7f, 0x50, 0x3c, 0x9f, 0xa8],
    #v[0x51, 0xa3, 0x40, 0x8f, 0x92, 0x9d, 0x38, 0xf5, 0xbc, 0xb6, 0xda, 0x21, 0x10, 0xff, 0xf3, 0xd2],
    #v[0xcd, 0x0c, 0x13, 0xec, 0x5f, 0x97, 0x44, 0x17, 0xc4, 0xa7, 0x7e, 0x3d, 0x64, 0x5d, 0x19, 0x73],
    #v[0x60, 0x81, 0x4f, 0xdc, 0x22, 0x2a, 0x90, 0x88, 0x46, 0xee, 0xb8, 0x14, 0xde, 0x5e, 0x0b, 0xdb],
    #v[0xe0, 0x32, 0x3a, 0x0a, 0x49, 0x06, 0x24, 0x5c, 0xc2, 0xd3, 0xac, 0x62, 0x91, 0x95, 0xe4, 0x79],
    #v[0xe7, 0xc8, 0x37, 0x6d, 0x8d, 0xd5, 0x4e, 0xa9, 0x6c, 0x56, 0xf4, 0xea, 0x65, 0x7a, 0xae, 0x08],
    #v[0xba, 0x78, 0x25, 0x2e, 0x1c, 0xa6, 0xb4, 0xc6, 0xe8, 0xdd, 0x74, 0x1f, 0x4b, 0xbd, 0x8b, 0x8a],
    #v[0x70, 0x3e, 0xb5, 0x66, 0x48, 0x03, 0xf6, 0x0e, 0x61, 0x35, 0x57, 0xb9, 0x86, 0xc1, 0x1d, 0x9e],
    #v[0xe1, 0xf8, 0x98, 0x11, 0x69, 0xd9, 0x8e, 0x94, 0x9b, 0x1e, 0x87, 0xe9, 0xce, 0x55, 0x28, 0xdf],
    #v[0x8c, 0xa1, 0x89, 0x0d, 0xbf, 0xe6, 0x42, 0x68, 0x41, 0x99, 0x2d, 0x0f, 0xb0, 0x54, 0xbb, 0x16]
  ]

/-- S[x] (R202). -/
def sbox (x : Byte) : Byte :=
  have hx := x.isLt
  sboxRows[x.toNat / 16][x.toNat % 16]

/-- xtime (R203). -/
def xtime (x : Byte) : Byte := (x <<< 1) ^^^ (if x.getLsbD 7 then 0x1B else 0x00)

/-- The loop of gmul (R203), n turns left. -/
def gmulLoop : Nat → Byte → Byte → Byte → Byte
  | 0, acc, _, _ => acc
  | n + 1, acc, a, b => gmulLoop n (if b.getLsbD 0 then acc ^^^ a else acc) (xtime a) (b >>> 1)

/-- gmul(a, b) (R203). -/
def gmul (a b : Byte) : Byte := gmulLoop 8 0 a b

/-- row0 of the MixBytes matrix (R204). -/
def mixRow0 : Vector Byte 8 := #v[0x02, 0x02, 0x03, 0x04, 0x05, 0x03, 0x05, 0x07]

/-- Bm[i][k] = row0[(k − i) mod 8] (R204). -/
def mixEntry (i k : Fin 8) : Byte := mixRow0[(k.val + 8 - i.val) % 8]

/-- σP (R207). -/
def sigmaP : Vector Nat 8 := #v[0, 1, 2, 3, 4, 5, 6, 11]

/-- σQ (R207). -/
def sigmaQ : Vector Nat 8 := #v[1, 3, 5, 11, 0, 2, 4, 6]

/-! ### Round stages -/

/-- The round index as a byte. -/
def roundByte (rnd : Nat) : Byte := BitVec.ofNat 8 rnd

/-- `i << 4` for a column index, the byte 16·i (00_scope.md R8). -/
def columnByte (i : Nat) : Byte := BitVec.ofNat 8 i <<< 4

/-- ARC_P (R205). -/
def arcP (m : ByteMatrix) (rnd : Nat) : ByteMatrix :=
  matrixOf fun r c =>
    if r = 0 then m[r][c] ^^^ (roundByte rnd ^^^ columnByte c) else m[r][c]

/-- ARC_Q (R206). -/
def arcQ (m : ByteMatrix) (rnd : Nat) : ByteMatrix :=
  matrixOf fun r c =>
    if r = 7 then m[r][c] ^^^ (roundByte rnd ^^^ (columnByte (15 - c) ||| 0x0F))
    else m[r][c] ^^^ 0xFF

/-- SubBytes (R208). -/
def subBytes (m : ByteMatrix) : ByteMatrix := matrixOf fun r c => sbox m[r][c]

/-- ShiftBytes, SH(M, σ) (R207). -/
def shiftBytes (sigma : Vector Nat 8) (m : ByteMatrix) : ByteMatrix :=
  matrixOf fun r c => m[r][(c.val + sigma[r]) % 16]

/-- MixBytes (R209). -/
def mixBytes (m : ByteMatrix) : ByteMatrix :=
  matrixOf fun i c =>
    gmul (mixEntry i 0) m[0][c] ^^^ gmul (mixEntry i 1) m[1][c]
      ^^^ gmul (mixEntry i 2) m[2][c] ^^^ gmul (mixEntry i 3) m[3][c]
      ^^^ gmul (mixEntry i 4) m[4][c] ^^^ gmul (mixEntry i 5) m[5][c]
      ^^^ gmul (mixEntry i 6) m[6][c] ^^^ gmul (mixEntry i 7) m[7][c]

/-- One round of P (R210). -/
def roundP (m : ByteMatrix) (rnd : Nat) : ByteMatrix :=
  mixBytes (shiftBytes sigmaP (subBytes (arcP m rnd)))

/-- One round of Q (R211). -/
def roundQ (m : ByteMatrix) (rnd : Nat) : ByteMatrix :=
  mixBytes (shiftBytes sigmaQ (subBytes (arcQ m rnd)))

/-! ### Permutations, compression, output transform -/

/-- Rounds 0 to n − 1 of a permutation. -/
def permRounds (round : ByteMatrix → Nat → ByteMatrix) (m : ByteMatrix) : Nat → ByteMatrix
  | 0 => m
  | n + 1 => round (permRounds round m n) n

/-- PermP, 14 rounds (R210). -/
def permP (m : ByteMatrix) : ByteMatrix := permRounds roundP m 14

/-- PermQ, 14 rounds (R211). -/
def permQ (m : ByteMatrix) : ByteMatrix := permRounds roundQ m 14

/-- Groestl_Compress(G, blk) (R212): G ^ PermP(G ^ msg) ^ PermQ(msg). -/
def groestlCompress (g : ByteMatrix) (blk : Vector Byte 128) : ByteMatrix :=
  xorMatrix (xorMatrix g (permP (xorMatrix g (msgOf blk)))) (permQ (msgOf blk))

/-- Groestl_OutputTransform(G) (R213): G ^ PermP(G). -/
def groestlOutput (g : ByteMatrix) : ByteMatrix := xorMatrix g (permP g)

/-! ### Initial values and digests -/

/-- The matrix that is zero but for [6][15] and [7][15]. -/
def ivMatrix (b6 b7 : Byte) : ByteMatrix :=
  matrixOf fun r c => if c = 15 then (if r = 6 then b6 else if r = 7 then b7 else 0) else 0

/-- GroestlIV(1), for Groestl-512 (R214). -/
def groestlIv512 : ByteMatrix := ivMatrix 0x02 0x00

/-- GroestlIV(2), for Groestl-384 (R214). -/
def groestlIv384 : ByteMatrix := ivMatrix 0x01 0x80

/-- The Groestl-512 digest (R215): byte c·8 + r is G[r][c + 8]. -/
def groestlDigest512 (g : ByteMatrix) : List Byte :=
  (Vector.ofFn fun k : Fin 64 => g[k.val % 8][k.val / 8 + 8]).toList

/-- The Groestl-384 digest (R216): byte (c − 2)·8 + r is G[r][c + 8]. -/
def groestlDigest384 (g : ByteMatrix) : List Byte :=
  (Vector.ofFn fun k : Fin 48 => g[k.val % 8][k.val / 8 + 2 + 8]).toList

end Sys2Proof.Machine
end

