-- ==== Sys2Proof/Machine/Sha1.lean ====
section
/-! DEFINITION. The SHA-1 compression engine (41_sha1.md R160 to R171): the steps of its datapath and,
beside them, the whole compression as one function over the 80-word schedule. -/

namespace Sys2Proof.Machine

/-- SHA1_IV (R161). -/
def sha1Iv : Vector Word 5 := #v[0x67452301, 0xEFCDAB89, 0x98BADCFE, 0x10325476, 0xC3D2E1F0]

/-- Block word load: word t is be32(blk, 4·t) (R162; 20_memory.md R72). -/
def sha1Words (blk : Vector Byte 64) : Vector Word 16 :=
  Vector.ofFn fun t =>
    be32 blk[4 * t.val] blk[4 * t.val + 1] blk[4 * t.val + 2] blk[4 * t.val + 3]

/-- f_t (R165). -/
def sha1F (t : Nat) (b c d : Word) : Word :=
  if t < 20 then (b &&& c) ||| (~~~b &&& d)
  else if t < 40 then b ^^^ c ^^^ d
  else if t < 60 then (b &&& c) ||| (b &&& d) ||| (c &&& d)
  else b ^^^ c ^^^ d

/-- K_t (R166). -/
def sha1K (t : Nat) : Word :=
  if t < 20 then 0x5A827999
  else if t < 40 then 0x6ED9EBA1
  else if t < 60 then 0x8F1BBCDC
  else 0xCA62C1D6

/-- One round with the schedule word w (R167); every register takes its pre-round sources at once. -/
def sha1Round (t : Nat) (w : Word) (x : RoundRegs) : RoundRegs where
  a := rotl x.a 5 + sha1F t x.bw x.c x.d + x.e + sha1K t + w
  bw := x.a
  c := rotl x.bw 30
  d := x.c
  e := x.d

/-- Round-register load (R168). -/
def sha1Load (h : Vector Word 5) : RoundRegs := ⟨h[0], h[1], h[2], h[3], h[4]⟩

/-- Feed-forward (R169). -/
def sha1FeedForward (h : Vector Word 5) (x : RoundRegs) : Vector Word 5 :=
  #v[h[0] + x.a, h[1] + x.bw, h[2] + x.c, h[3] + x.d, h[4] + x.e]

/-! ### The window scheduler (R164) -/

/-- The schedule word that round t computes from the window. -/
def windowWord (t : Nat) (win : Vector Word 16) : Word :=
  if t < 16 then win[t % 16]
  else rotl (win[(t % 16 + 13) % 16] ^^^ win[(t % 16 + 8) % 16] ^^^ win[(t % 16 + 2) % 16] ^^^ win[t % 16]) 1

/-- The window after round t: from round 16 on, its word replaces WIN[t mod 16]. -/
def windowNext (t : Nat) (win : Vector Word 16) : Vector Word 16 :=
  if t < 16 then win else win.set (t % 16) (windowWord t win)

/-! ### The whole compression (R162, R163, R170) -/

/-- W[0..16+n) in place (R163), the words above still 0. -/
def expandTo (w0 : Vector Word 80) : Nat → Vector Word 80
  | 0 => w0
  | n + 1 =>
    let w := expandTo w0 n
    if h : n + 16 < 80 then
      w.set (n + 16) (rotl (w[n + 13] ^^^ w[n + 8] ^^^ w[n + 2] ^^^ w[n]) 1)
    else w

/-- The schedule W[0..80) of a block (R162, R163). -/
def sha1Schedule (blk : Vector Byte 64) : Vector Word 80 :=
  expandTo (Vector.ofFn fun t => if h : t.val < 16 then (sha1Words blk)[t.val] else 0) 64

/-- Rounds 0 to n − 1 over a schedule. -/
def sha1Rounds (w : Vector Word 80) (x : RoundRegs) : Nat → RoundRegs
  | 0 => x
  | n + 1 => if h : n < 80 then sha1Round n w[n] (sha1Rounds w x n) else sha1Rounds w x n

/-- SHA1_Compress(H, blk) (R170). -/
def sha1Compress (h : Vector Word 5) (blk : Vector Byte 64) : Vector Word 5 :=
  sha1FeedForward h (sha1Rounds (sha1Schedule blk) (sha1Load h) 80)

/-- The SHA-1 digest (R171; 20_memory.md R73). -/
def sha1Digest (h : Vector Word 5) : List Byte :=
  be32bytes h[0] ++ be32bytes h[1] ++ be32bytes h[2] ++ be32bytes h[3] ++ be32bytes h[4]

end Sys2Proof.Machine
end

