-- ==== Sys2Proof/Machine/Sequencer.lean ====
section
/-! DEFINITION. Padding (40_block_engine.md R130, R131) and the sequencer: one datapath step of a
compression or of the output transform, one step of a COMPRESS or FINALIZE job (R121, R132), and what a
held access and a fault-free idle step do (70_reset_and_hazards.md R300). -/

namespace Sys2Proof.Machine

/-! ### Padding -/

/-- z = (B − 9 − r) mod B (R130), the integer remainder in [0, B). -/
def padZeros (blockSize r : Nat) : Nat := (((blockSize : Int) - 9 - (r : Int)) % (blockSize : Int)).toNat

/-- Pad(r, L) (R130). -/
def padding (blockSize r : Nat) (len : DWord) : List Byte :=
  [0x80] ++ List.replicate (padZeros blockSize r) 0 ++ be64bytes len

/-- npad(r) (R130): 1 if r ≤ B − 9, else 2. -/
def npad (blockSize r : Nat) : Nat := if r + 9 ≤ blockSize then 1 else 2

/-- The length value L that padding appends (R131), for a value of GROESTL_LEN_MODE. -/
def lengthValue (mode : LenMode) (s : State) : DWord :=
  match s.alg with
  | .sha1 => s.total * 8
  | .groestl512 | .groestl384 =>
    match mode with
    | .blockCount => s.blocks + BitVec.ofNat 64 (npad (blockBytes s.alg) s.bufLen.toNat)
    | .bitLength => s.total * 8

/-- Padding bytes go into BUF until it holds a block or none is left (R132); the bytes not written come
back. None where BUF has no index for a byte. -/
def fillBlock : List Byte → State → Option (State × List Byte)
  | [], s => some (s, [])
  | x :: rest, s =>
    match s.bufPush x with
    | none => none
    | some s' => if s'.bufLen.toNat = blockBytes s'.alg then some (s', rest) else fillBlock rest s'

/-! ### Datapath steps (R310) -/

/-- What a datapath step leaves: the operation goes on, it is done, or the model stops. -/
inductive StepResult where
  | running (s : State)
  | finished (s : State)
  | stopped (f : Fault)

/-- The load step of a SHA-1 compression (41_sha1.md R162, R168). -/
def sha1LoadStep (s : State) : StepResult :=
  match s.readBlock 64 with
  | some blk => .running { s with win := sha1Words blk, regs := sha1Load s.h, t := 0 }
  | none => .stopped .unspecifiedRead

/-- A SHA-1 round (R164, R167). -/
def sha1RoundStep (s : State) : State :=
  { s with
    regs := sha1Round s.t (windowWord s.t s.win) s.regs
    win := windowNext s.t s.win
    t := s.t + 1 }

/-- The feed-forward step (R169). -/
def sha1LastStep (s : State) : State := { s with h := sha1FeedForward s.h s.regs }

/-- The load step of a Groestl compression (42_groestl.md R212). -/
def groestlLoadStep (s : State) : StepResult :=
  match s.readBlock 128 with
  | some blk => .running { s with qm := msgOf blk, pm := xorMatrix s.g (msgOf blk), r := 0 }
  | none => .stopped .unspecifiedRead

/-- A dual round, P and Q in lockstep (R212). -/
def groestlRoundStep (s : State) : State :=
  { s with pm := roundP s.pm s.r, qm := roundQ s.qm s.r, r := s.r + 1 }

/-- The combine step (R212): G <- G ^ PM ^ QM. -/
def groestlLastStep (s : State) : State := { s with g := xorMatrix (xorMatrix s.g s.pm) s.qm }

/-- The load step of the output transform (R213). -/
def outputLoadStep (s : State) : State := { s with pm := s.g, r := 0 }

/-- A round of the output transform (R213): P alone. -/
def outputRoundStep (s : State) : State := { s with pm := roundP s.pm s.r, r := s.r + 1 }

/-- The combine step of the output transform (R213): G <- G ^ PM. -/
def outputLastStep (s : State) : State := { s with g := xorMatrix s.g s.pm }

/-- One step of SHA1_Compress (R170): load, rounds 0 to 79, feed-forward. -/
def sha1Step (stage : Stage) (s : State) : StepResult :=
  match stage with
  | .load => sha1LoadStep s
  | .rounds => if s.t < 80 then .running (sha1RoundStep s) else .finished (sha1LastStep s)

/-- One step of Groestl_Compress (R212): load, 14 dual rounds, combine. -/
def groestlStep (stage : Stage) (s : State) : StepResult :=
  match stage with
  | .load => groestlLoadStep s
  | .rounds => if s.r < 14 then .running (groestlRoundStep s) else .finished (groestlLastStep s)

/-- One step of Groestl_OutputTransform (R213): load, 14 rounds, combine. -/
def outputStep (stage : Stage) (s : State) : StepResult :=
  match stage with
  | .load => .running (outputLoadStep s)
  | .rounds => if s.r < 14 then .running (outputRoundStep s) else .finished (outputLastStep s)

/-- One step of the selected algorithm's compression (R121). -/
def blockStep (stage : Stage) (s : State) : StepResult :=
  match s.alg with
  | .sha1 => sha1Step stage s
  | .groestl512 => groestlStep stage s
  | .groestl384 => groestlStep stage s

/-! ### Job steps -/

/-- A COMPRESS job's step (R121): after the last one the block is counted and the job ends. -/
def compressJobStep (stage : Stage) (s : State) : Result :=
  match blockStep stage s with
  | .running s' => .next { s' with seq := .compress .rounds }
  | .finished s' => .next s'.endBlock.endJob
  | .stopped f => .fault f

/-- The padding is used up: Groestl goes to its output transform, SHA-1 is done (R132). -/
def afterPadding (s : State) : State :=
  match s.alg with
  | .sha1 => s.endFinalize
  | .groestl512 => { s with seq := .finalize (.output .load) }
  | .groestl384 => { s with seq := .finalize (.output .load) }

/-- More padding bytes go into BUF; a full block is compressed next (R132). -/
def padStep (bytes : List Byte) (s : State) : Result :=
  match fillBlock bytes s with
  | none => .fault .bufferIndex
  | some (s', rest) =>
    if s'.bufLen.toNat = blockBytes s'.alg then .next { s' with seq := .finalize (.block .load rest) }
    else .next (afterPadding s')

/-- A FINALIZE job's step (R132). L is computed in the first one, before any padding block. -/
def finalizeJobStep (step : FinStep) (s : State) : Result :=
  match step with
  | .pad =>
    padStep (padding (blockBytes s.alg) s.bufLen.toNat (lengthValue Config.groestlLenMode s)) s
  | .block stage rest =>
    match blockStep stage s with
    | .running s' => .next { s' with seq := .finalize (.block .rounds rest) }
    | .finished s' => padStep rest s'.endBlock
    | .stopped f => .fault f
  | .output stage =>
    match outputStep stage s with
    | .running s' => .next { s' with seq := .finalize (.output .rounds) }
    | .finished s' => .next s'.endFinalize
    | .stopped f => .fault f

/-- One step of the sequencer; with no job the engine does nothing (60_exceptions.md R283). -/
def State.engineStep (s : State) : Result :=
  match s.seq with
  | .none => .next s
  | .compress stage => compressJobStep stage s
  | .finalize step => finalizeJobStep step s

end Sys2Proof.Machine
end

