-- ==== Sys2Proof/Machine/Accesses.lean ====
section
/-! DEFINITION. The meanings of the register accesses (40_block_engine.md R115 to R120). -/

namespace Sys2Proof.Machine

/-- Digest(ALG) (R117). -/
def State.digest (s : State) : List Byte :=
  match s.alg with
  | .sha1 => sha1Digest s.h
  | .groestl512 => groestlDigest512 s.g
  | .groestl384 => groestlDigest384 s.g

/-- Digest byte DSIZE(ALG) − DOUT_REMAIN (R116), if the digest has it. -/
def State.nextDigestByte (s : State) : Option Byte :=
  if s.doutRemain.toNat ≤ digestBytes s.alg then
    s.digest[digestBytes s.alg - s.doutRemain.toNat]?
  else none

/-- The counters after an accepted message byte, and the COMPRESS job when the byte completes a block
(R120, R121). -/
def countByte (s : State) : State :=
  let s' := { s with total := s.total + 1, addRemain := s.addRemain - 1 }
  if s'.bufLen.toNat = blockBytes s'.alg then s'.startJob (.compress .load) else s'

/-- WRITE_DIN (R120): held while BUSY = 1, ignored in FAULT, DIN_UNEXPECTED when no byte is owed. -/
def execWriteDin (b : Byte) (s : State) : Result :=
  if s.busy then s.engineStep
  else if s.phase = .fault then .next s.retire
  else if s.addRemain = 0 then .next (s.retire.raise .dinUnexpected)
  else
    match s.retire.bufPush b with
    | some s' => .next (countByte s')
    | none => .fault .bufferIndex

/-- READ_STATUS (R115): taken always, while BUSY = 1 as well, and without any other effect. -/
def execReadStatus (s : State) : Result := .next (s.retire.respond s.status)

/-- READ_DOUT (R116): held while BUSY = 1; in FAULT it returns 0 and does nothing; with no byte armed it
returns 0 and faults DOUT_EMPTY; else it returns the next digest byte. -/
def execReadDout (s : State) : Result :=
  if s.busy then s.engineStep
  else if s.phase = .fault then .next (s.retire.respond 0)
  else if s.doutRemain = 0 then .next ((s.retire.respond 0).raise .doutEmpty)
  else
    match s.nextDigestByte with
    | some b => .next { s.retire.respond (zext32 b) with doutRemain := s.doutRemain - 1 }
    | none => .fault .digestIndex

/-- READ_WO (R118): returns 0, never held, no other effect. Log entry 10. -/
def execReadWo (reg : Reg) (s : State) : Result :=
  if reg.writeOnly then .next (s.retire.respond 0) else .refused .illFormedOperand

/-- WRITE_RO (R118): discarded, never held, no effect. Log entry 10. -/
def execWriteRo (reg : Reg) (s : State) : Result :=
  if reg.writeOnly then .refused .illFormedOperand else .next s.retire

end Sys2Proof.Machine
end

