-- ==== Sys2Proof/Machine/Commands.lean ====
section
/-! DEFINITION. The meanings of the four commands (40_block_engine.md R110 to R114) and of an illegal
command word (30_encoding.md R93). -/

namespace Sys2Proof.Machine

/-- A CMD write that decodes to a command (R110): held while BUSY = 1, where the engine goes on and the
access stays pending (70_reset_and_hazards.md R300); ignored in FAULT (60_exceptions.md R264); a SEQUENCE
fault where the table of R261 does not allow it; else performed. -/
def command (ins : Instr) (perform : State → State) (s : State) : Result :=
  if s.busy then s.engineStep
  else if s.phase = .fault then .next s.retire
  else if legal ins s.phase s.addRemain then .next (perform s.retire)
  else .next (s.retire.raise .sequence)

/-- A CMD write that does not decode (R93, R110): ILLEGAL_CMD, held and ignored as a command is. -/
def illegalCommand (s : State) : Result :=
  if s.busy then s.engineStep
  else if s.phase = .fault then .next s.retire
  else .next (s.retire.raise .illegalCmd)

/-- The IV goes into the selected algorithm's register; the other one becomes unspecified, a free value
(R111; 10_state.md R33), of this engine's own draws. Log entry 5. -/
def loadIv (alg : Alg) (s : State) : State :=
  match alg with
  | .sha1 => { s with h := sha1Iv, g := Config.freeMatrix s.engine s.draws, draws := s.draws + 1 }
  | .groestl512 =>
    { s with g := groestlIv512, h := Config.freeWords s.engine s.draws, draws := s.draws + 1 }
  | .groestl384 =>
    { s with g := groestlIv384, h := Config.freeWords s.engine s.draws, draws := s.draws + 1 }

/-- INIT's effect (R111). -/
def initContext (alg : Alg) (s : State) : State :=
  { loadIv alg s with
    alg := alg
    bufLen := 0
    total := 0
    blocks := 0
    addRemain := 0
    doutRemain := 0
    phase := .absorb }

/-- ADD's effect (R112): the length bound is checked on the whole announced count. -/
def announce (len : BitVec 24) (s : State) : State :=
  if s.total.toNat + len.toNat > maxMsgBytes then s.raise .lengthOverflow
  else { s with addRemain := len }

/-- GET_DIGEST's effect (R114). -/
def armDigest (s : State) : State :=
  { s with doutRemain := BitVec.ofNat 7 (digestBytes s.alg) }

/-- INIT (R111). -/
def execInit (alg : Alg) (s : State) : Result := command (.init alg) (initContext alg) s

/-- ADD (R112). -/
def execAdd (len : BitVec 24) (s : State) : Result := command (.add len) (announce len) s

/-- FINALIZE (R113): the job of R132 starts. -/
def execFinalize (s : State) : Result := command .finalize (State.startJob (.finalize .pad)) s

/-- GET_DIGEST (R114). -/
def execGetDigest (s : State) : Result := command .getDigest armDigest s

end Sys2Proof.Machine
end

