-- ==== Sys2Proof/Machine/Dispatch.lean ====
section
/-! DEFINITION. One arm for each instruction. -/

namespace Sys2Proof.Machine

def exec (i : Instr) (s : State) : Host.Outcome State Fault Refusal :=
  match i with
  | .init alg => Sys2Proof.Machine.execInit alg s
  | .add len => Sys2Proof.Machine.execAdd len s
  | .finalize => Sys2Proof.Machine.execFinalize s
  | .getDigest => Sys2Proof.Machine.execGetDigest s
  | .writeDin b => Sys2Proof.Machine.execWriteDin b s
  | .readStatus => Sys2Proof.Machine.execReadStatus s
  | .readDout => Sys2Proof.Machine.execReadDout s
  | .readWo reg => Sys2Proof.Machine.execReadWo reg s
  | .writeRo reg => Sys2Proof.Machine.execWriteRo reg s

end Sys2Proof.Machine
end

