-- ==== Sys2Proof/Machine/Fetch.lean ====
section
/-! DEFINITION. What a step meets at the head of the host's list, and the step in which the host issues
nothing. -/

namespace Sys2Proof.Machine

/-- What comes next to the engine. -/
inductive Fetched where
  | nothing
  | reset
  | instr (i : Instr)
  | illegal
  | undefined
  deriving DecidableEq, Repr

/-- The head of the host's list, an access decoded (30_encoding.md R95). The list at its end, the host
issues nothing. -/
def State.fetch (s : State) : Fetched :=
  match s.pending with
  | [] => .nothing
  | .idle :: _ => .nothing
  | .reset :: _ => .reset
  | .access a :: _ =>
    match decode a with
    | .instr i => .instr i
    | .illegal => .illegal
    | .undefined => .undefined

/-- The host issues nothing: while BUSY = 1 the engine takes a step of its job (10_state.md R36), with
BUSY = 0 it does nothing (60_exceptions.md R283). -/
def State.quietStep (s : State) : Result :=
  if s.busy then s.retire.engineStep else .next s.retire

/-- The state in which the access a is what the host issues next. -/
def State.issue (a : Access) (s : State) : State := { s with pending := .access a :: s.pending }

end Sys2Proof.Machine
end

