-- ==== Sys2Proof/Machine/Step.lean ====
section
/-! DEFINITION. One step of the machine. -/

namespace Sys2Proof.Machine

/-- One step: what the host or the platform does next (00_scope.md R15; 20_memory.md R79). -/
def step (s : State) : Host.Outcome State Fault Refusal :=
  match s.fetch with
  | .nothing => s.quietStep
  | .reset => .next s.platformReset
  | .instr i => exec i s
  | .illegal => illegalCommand s
  | .undefined => .refused .undefinedAccess

/-- The state in which the instruction whose bits are w is the host's next access. Log entry 13. -/
def State.withFetchWord (s : State) (nbits w : Nat) : State :=
  s.issue (Access.ofTableWord nbits w)

end Sys2Proof.Machine
end

