-- ==== Sys2Proof/Machine/Platform.lean ====
section
/-! DEFINITION. Several engines on one platform (60_exceptions.md R281): each has its own state and its
own register block, and a step is a step of one of them. The core of Machine/Core.lean is one engine. -/

namespace Sys2Proof.Machine

/-- The engines, in the order of their numbers k. -/
abbrev Platform := List State

/-- N_INSTANCES engines, each at reset (R281, 70_reset_and_hazards.md R290), with its number, so that what
is unspecified in one engine has nothing to do with what is in another: log entry 5. -/
def platformAtReset : Platform :=
  (List.range Config.nInstances.val).map fun k => { State.reset with engine := k }

/-- How many bytes an access reaches. -/
def widthBytes : Width → Nat
  | .bits8 => 1
  | .bits16 => 2
  | .bits32 => 4
  | .bits64 => 8

/-- The offset from a base at which an access of n bytes from an address reaches the 16-byte register block
there (20_memory.md R71); none where no byte of it is in the block. -/
def offsetIn (base addr n : Nat) : Option Int :=
  if base < addr + n ∧ addr < base + 16 then some ((addr : Int) - (base : Int)) else none

/-- The host issues an access, register block k standing at base k. It waits, behind the earlier ones
(20_memory.md R79), at every engine whose block it reaches: a defined one reaches one engine, and an
unaligned or wide one that reaches a block from outside it is refused there as any undefined access is
(R77, 92_eei_decisions.md D3). Where it reaches no block it is not the engines' concern. -/
def hostIssueAt (base : Nat → Nat) (dir : Dir) (width : Width) (addr : Nat) (data : Word) (p : Platform) :
    Platform :=
  p.mapIdx fun k s =>
    match offsetIn (base k) addr (widthBytes width) with
    | some offset => { s with pending := s.pending ++ [.access ⟨dir, width, offset, data⟩] }
    | none => s

/-- The host issues an access on this platform, with its ENGINE_BASE. -/
def hostIssue (dir : Dir) (width : Width) (addr : Nat) (data : Word) (p : Platform) : Platform :=
  hostIssueAt Config.engineBase dir width addr data p

/-- Engine k takes a step; the others do not move (R281). A fault or refusal of an engine is the
platform's answer; none where there is no engine k. -/
def platformStep (k : Nat) (p : Platform) : Option (Host.Outcome Platform Fault Refusal) :=
  match p[k]? with
  | none => none
  | some s =>
    match step s with
    | .next s' => some (.next (p.set k s'))
    | .fault f => some (.fault f)
    | .refused r => some (.refused r)

end Sys2Proof.Machine
end

