-- ==== Sys2Proof/Safety.lean ====
section
/-! DEFINITION. The terms the claims use: the invariant of an engine, runs of its sequencer, and the
compressions as functions of the whole message. -/

namespace Sys2Proof.Machine

/-! ### The invariant -/

/-- What holds of BUF, the counters and the algorithm at each position of the sequencer
(40_block_engine.md R121, R132). -/
def jobInv (s : State) : Prop :=
  match s.seq with
  | .none => s.bufLen.toNat < blockBytes s.alg
  | .compress _ => s.bufLen.toNat = blockBytes s.alg
  | .finalize .pad => s.bufLen.toNat < blockBytes s.alg ∧ s.addRemain = 0
  | .finalize (.block _ rest) =>
    s.bufLen.toNat = blockBytes s.alg ∧ s.addRemain = 0
      ∧ (rest.length = 0 ∨ rest.length = blockBytes s.alg)
  | .finalize (.output _) => s.bufLen.toNat = 0 ∧ s.addRemain = 0 ∧ s.alg ≠ .sha1

/-- The part of a job in which BLOCKS counts message blocks only. -/
def countsMessage (s : State) : Prop :=
  match s.seq with
  | .none => True
  | .compress _ => True
  | .finalize .pad => True
  | .finalize (.block _ _) => False
  | .finalize (.output _) => False

/-- The invariant of an engine: the state rules of 10_state.md R30 to R47, and what the positions of
the sequencer add. -/
structure State.Inv (s : State) : Prop where
  /-- BUF is in its canonical form. -/
  bufWf : s.buf.wf = true
  /-- BUF has 128 bytes (R34). -/
  bufRange : ∀ x ∈ s.buf, x.1 < bufBytes
  /-- BUF[0..BUF_LEN) is specified (R34, R291). -/
  bufHeld : ∀ a, a < s.bufLen.toNat → (s.buf.read a).isSome = true
  /-- BUSY is 1 exactly when the sequencer runs a job (R36). -/
  busyIff : s.busy = true ↔ s.seq ≠ .none
  /-- A job keeps the phase from before it, ABSORB (R302). -/
  busyPhase : s.busy = true → s.phase = .absorb
  /-- FCODE tells the phase FAULT (R39, R262). -/
  faultIff : s.phase = .fault ↔ s.fcode ≠ .none
  /-- The positions of the sequencer. -/
  job : jobInv s
  /-- TOTAL = BLOCKS·B + BUF_LEN while the message is absorbed (R47). -/
  total : s.phase = .absorb → countsMessage s →
    s.total.toNat = s.blocks.toNat * blockBytes s.alg + s.bufLen.toNat
  /-- The announced message keeps to its bound (R35). -/
  bound : s.total.toNat + s.addRemain.toNat ≤ maxMsgBytes
  /-- Before INIT nothing is counted (R31, R32, R290). -/
  idleZero : s.phase = .idle →
    s.alg = .sha1 ∧ s.bufLen = 0 ∧ s.total = 0 ∧ s.blocks = 0 ∧ s.addRemain = 0
  /-- In FINAL the buffer is empty and no byte is owed (R47). -/
  finalEmpty : s.phase = .final → s.bufLen = 0 ∧ s.addRemain = 0
  /-- Digest bytes are armed after FINALIZE only (R38, R47). -/
  noDigest : s.phase = .idle ∨ s.phase = .absorb → s.doutRemain = 0
  /-- At most DSIZE(ALG) digest bytes are armed (R38). -/
  digestBound : s.doutRemain.toNat ≤ digestBytes s.alg
  /-- The round counters keep to their ranges (R40, R41). -/
  rounds : s.t ≤ 80 ∧ s.r ≤ 14

/-! ### Runs -/

/-- n steps of the sequencer, stopping at the first stop. -/
def engineRun : Nat → State → Result
  | 0, s => .next s
  | n + 1, s =>
    match s.engineStep with
    | .next s' => engineRun n s'
    | .fault f => .fault f
    | .refused r => .refused r

/-- n steps of the machine, stopping at the first stop. -/
def run : Nat → State → Result
  | 0, s => .next s
  | n + 1, s =>
    match step s with
    | .next s' => run n s'
    | .fault f => .fault f
    | .refused r => .refused r

/-- A READ_WO or WRITE_RO of the right register, or a READ_STATUS: what R118 and R300 never hold. -/
def neverHeld : Instr → Bool
  | .init _ => false
  | .add _ => false
  | .finalize => false
  | .getDigest => false
  | .writeDin _ => false
  | .readStatus => true
  | .readDout => false
  | .readWo _ => true
  | .writeRo _ => true

/-- The step is a step of the job: BUSY = 1 and what the host issues, if anything, is held
(70_reset_and_hazards.md R300; log entry 10). -/
def jobMoves (s : State) : Prop :=
  s.busy = true ∧
    match s.fetch with
    | .nothing => True
    | .reset => False
    | .instr i => neverHeld i = false
    | .illegal => True
    | .undefined => False

/-- The rounds of the selected algorithm's compression are done (10_state.md R40, R41). -/
def roundsDone (s : State) : Prop :=
  match s.alg with
  | .sha1 => s.t = 80
  | .groestl512 => s.r = 14
  | .groestl384 => s.r = 14

/-- The job's next step is the feed-forward or combine of a compression or of the output transform
(41_sha1.md R170, 42_groestl.md R212, R213). -/
def atLastStep (s : State) : Prop :=
  match s.seq with
  | .none => False
  | .compress .load => False
  | .compress .rounds => roundsDone s
  | .finalize .pad => False
  | .finalize (.block .load _) => False
  | .finalize (.block .rounds _) => roundsDone s
  | .finalize (.output .load) => False
  | .finalize (.output .rounds) => s.r = 14

/-- The host accesses of an ADD and its bytes (40_block_engine.md R122). -/
def chunkEvents (chunk : List Byte) : List HostEvent :=
  .access (encode (.add (BitVec.ofNat 24 chunk.length)))
    :: chunk.map fun b => .access (encode (.writeDin b))

/-! ### Compressions over a whole message -/

/-- The window at the start of round t (41_sha1.md R164). -/
def windowAt (blk : Vector Byte 64) : Nat → Vector Word 16
  | 0 => sha1Words blk
  | t + 1 => windowNext t (windowAt blk t)

/-- BUF[0..BUF_LEN) as a byte string. -/
def heldBytes (s : State) : List Byte :=
  (List.range s.bufLen.toNat).map s.bufByte

/-- Block k of a byte string whose length is a multiple of n. -/
def blockAt (n : Nat) (l : List Byte) (k : Nat) : Vector Byte n :=
  Vector.ofFn fun i => l.getD (k * n + i.val) 0

/-- H after the first k blocks of a byte string. -/
def sha1Blocks (h : Vector Word 5) (l : List Byte) : Nat → Vector Word 5
  | 0 => h
  | k + 1 => sha1Compress (sha1Blocks h l k) (blockAt 64 l k)

/-- G after the first k blocks of a byte string. -/
def groestlBlocks (g : ByteMatrix) (l : List Byte) : Nat → ByteMatrix
  | 0 => g
  | k + 1 => groestlCompress (groestlBlocks g l k) (blockAt 128 l k)

/-! ### Comparing outcomes -/

/-- Two outcomes stop for the same reason, or go on to states that the relation holds of. -/
def sameOutcome (rel : State → State → Prop) : Result → Result → Prop
  | .next s, .next t => rel s t
  | .fault f, .fault g => f = g
  | .refused p, .refused q => p = q
  | .next _, .fault _ => False
  | .next _, .refused _ => False
  | .fault _, .next _ => False
  | .fault _, .refused _ => False
  | .refused _, .next _ => False
  | .refused _, .fault _ => False

end Sys2Proof.Machine
end

