-- ==== Sys2Proof/Certificates/Slice0/Obligations.lean ====
section
/-! DEFINITION. The statements for the provers. -/

open Sys2Proof Sys2Proof.Machine

/-! ### Encoding -/

/-- Words written out from the encodings of 30_encoding.md R92 and R96 decode to their instructions. -/
def Obligations.DecodeReadsSpecWords : Prop :=
  decode ⟨.write, .bits32, 0x0, 0x00000001⟩ = .instr (.init .sha1)
    ∧ decode ⟨.write, .bits32, 0x0, 0x00000011⟩ = .instr (.init .groestl512)
    ∧ decode ⟨.write, .bits32, 0x0, 0x00000021⟩ = .instr (.init .groestl384)
    ∧ decode ⟨.write, .bits32, 0x0, 0x00003802⟩ = .instr (.add 56)
    ∧ decode ⟨.write, .bits32, 0x0, 0x00000003⟩ = .instr .finalize
    ∧ decode ⟨.write, .bits32, 0x0, 0x00000004⟩ = .instr .getDigest
    ∧ decode ⟨.write, .bits32, 0x8, 0x00000061⟩ = .instr (.writeDin 0x61)
    ∧ decode ⟨.read, .bits32, 0x4, 0⟩ = .instr .readStatus
    ∧ decode ⟨.read, .bits32, 0xC, 0⟩ = .instr .readDout
    ∧ decode ⟨.read, .bits32, 0x8, 0⟩ = .instr (.readWo .din)
    ∧ decode ⟨.write, .bits32, 0x4, 0xFFFFFFFF⟩ = .instr (.writeRo .status)

/-- Decoding the access of a well-formed instruction gives the instruction back, with every operand
(30_encoding.md R92, R94 to R96). -/
def Obligations.DecodeEncodeIsIdentity : Prop :=
  ∀ i : Instr, i.wellFormed = true → decode (encode i) = .instr i

/-- A command has one command word (30_encoding.md R92): the word that decodes to it is the one it encodes
to. -/
def Obligations.CommandHasOneWord : Prop :=
  ∀ (v : Word) (i : Instr), decode ⟨.write, .bits32, 0x0, v⟩ = .instr i →
    encode i = ⟨.write, .bits32, 0x0, v⟩

/-- The illegal command words are those of 30_encoding.md R93, and writing one raises ILLEGAL_CMD and
changes nothing else; it is held while BUSY = 1 and ignored in FAULT. -/
def Obligations.IllegalWordsFault : Prop :=
  ∀ v : Word,
    let opc := v.extractLsb' 0 4
    let alg := v.extractLsb' 4 2
    let rsv := v.extractLsb' 6 2
    let len := v.extractLsb' 8 24
    let illegal := opc = 0 ∨ 5 ≤ opc.toNat ∨ rsv ≠ 0 ∨ (opc = 1 ∧ alg = 3)
      ∨ (opc ≠ 1 ∧ alg ≠ 0) ∨ (opc ≠ 2 ∧ len ≠ 0)
    (decode ⟨.write, .bits32, 0x0, v⟩ = .illegal ↔ illegal)
      ∧ (illegal → ∀ (s : State) (rest : List HostEvent),
        s.pending = .access ⟨.write, .bits32, 0x0, v⟩ :: rest →
          (s.busy = true → step s = s.engineStep)
          ∧ (s.busy = false → s.phase = .fault → step s = .next { s with pending := rest })
          ∧ (s.busy = false → s.phase ≠ .fault →
            step s = .next { s with pending := rest, fcode := .illegalCmd, phase := .fault }))

/-- The decoder is the one of 30_encoding.md R95 on every access, and an access of another width or offset
is refused by the machine. -/
def Obligations.DecoderIsTotal : Prop :=
  ∀ a : Access,
    let opc := a.data.extractLsb' 0 4
    let alg := a.data.extractLsb' 4 2
    let rsv := a.data.extractLsb' 6 2
    let len := a.data.extractLsb' 8 24
    (a.width = .bits32 → a.dir = .write → a.offset = 0x0 →
      decode a =
        if rsv ≠ 0 then .illegal
        else if opc = 1 ∧ alg ≠ 3 ∧ len = 0 then
          .instr (.init (if alg = 0 then .sha1 else if alg = 1 then .groestl512 else .groestl384))
        else if opc = 2 ∧ alg = 0 then .instr (.add len)
        else if opc = 3 ∧ alg = 0 ∧ len = 0 then .instr .finalize
        else if opc = 4 ∧ alg = 0 ∧ len = 0 then .instr .getDigest
        else .illegal)
      ∧ (a.width = .bits32 → a.dir = .write → a.offset = 0x8 →
        decode a = .instr (.writeDin (a.data.extractLsb' 0 8)))
      ∧ (a.width = .bits32 → a.dir = .read → a.offset = 0xC → decode a = .instr .readDout)
      ∧ (a.width = .bits32 → a.dir = .read → a.offset = 0x4 → decode a = .instr .readStatus)
      ∧ (a.width = .bits32 → a.dir = .read → a.offset = 0x0 → decode a = .instr (.readWo .cmd))
      ∧ (a.width = .bits32 → a.dir = .read → a.offset = 0x8 → decode a = .instr (.readWo .din))
      ∧ (a.width = .bits32 → a.dir = .write → a.offset = 0x4 → decode a = .instr (.writeRo .status))
      ∧ (a.width = .bits32 → a.dir = .write → a.offset = 0xC → decode a = .instr (.writeRo .dout))
      ∧ (a.width ≠ .bits32 ∨ a.offset ∉ [0x0, 0x4, 0x8, 0xC] →
        ∀ (s : State) (rest : List HostEvent), s.pending = .access a :: rest →
          step s = .refused .undefinedAccess)

/-! ### The step -/

/-- Where the host's next access decodes to an instruction, a step of the machine is that instruction's
meaning, with nothing around it, and the instruction is well-formed. -/
def Obligations.StepRunsDecodedInstruction : Prop :=
  ∀ (s : State) (a : Access) (rest : List HostEvent) (i : Instr),
    s.pending = .access a :: rest → decode a = .instr i → step s = exec i s ∧ i.wellFormed = true

/-- Where the host issues nothing, the engine goes on with its job, and without one does nothing
(60_exceptions.md R283). That an idle step is an entry of the host's list is log entry 4. -/
def Obligations.QuietStepRunsTheJob : Prop :=
  ∀ s : State,
    (s.pending = [] → s.busy = true → step s = s.engineStep)
      ∧ (s.pending = [] → s.busy = false → step s = .next s)
      ∧ (∀ rest, s.pending = .idle :: rest → s.busy = true →
        step s = ({ s with pending := rest } : State).engineStep)
      ∧ (∀ rest, s.pending = .idle :: rest → s.busy = false →
        step s = .next { s with pending := rest })

/-- Reset gives every control field the value of 70_reset_and_hazards.md R290, in every state: in the middle
of a job and in FAULT as well. Every byte of BUF takes the free value of a new draw (log entry 2): the statement
holds for every value of it. That the host's list and what its reads returned stay is the model's choice (log
entry 4). -/
def Obligations.ResetSetsControlState : Prop :=
  ∀ (s : State) (rest : List HostEvent), s.pending = .reset :: rest →
    ∃ t, step s = .next t ∧ t.phase = .idle ∧ t.alg = .sha1 ∧ t.bufLen = 0 ∧ t.total = 0
      ∧ t.blocks = 0 ∧ t.addRemain = 0 ∧ t.doutRemain = 0 ∧ t.fcode = .none ∧ t.busy = false
      ∧ t.seq = .none ∧ t.status = 0 ∧ t.pending = rest ∧ t.reads = s.reads
      ∧ ∀ a, t.bufByte a = Config.freeByte s.engine s.draws a

/-! ### Commands -/

/-- INIT completes, with the IVs of 41_sha1.md R161 and 42_groestl.md R214, where BUSY = 0, outside FAULT and
with no byte owed (40_block_engine.md R111). The register of the algorithm not selected takes a free value
(log entry 5): the statement holds for every value of it. Everything not named stays. -/
def Obligations.InitLoadsContext : Prop :=
  ∀ (alg : Alg) (s : State), s.busy = false → s.phase ≠ .fault → s.addRemain = 0 →
    ∃ t, exec (.init alg) s = .next t
      ∧ t = { s with
          phase := .absorb, alg := alg, h := t.h, g := t.g, bufLen := 0, total := 0, blocks := 0
          addRemain := 0, doutRemain := 0, pending := s.pending.tail, draws := s.draws + 1 }
      ∧ (alg = .sha1 → t.h = #v[0x67452301, 0xEFCDAB89, 0x98BADCFE, 0x10325476, 0xC3D2E1F0]
        ∧ t.g = Config.freeMatrix s.engine s.draws)
      ∧ (alg = .groestl512 → t.h = Config.freeWords s.engine s.draws
        ∧ ∀ (r : Fin 8) (c : Fin 16), t.g[r][c] = if r = 6 ∧ c = 15 then 0x02 else 0)
      ∧ (alg = .groestl384 → t.h = Config.freeWords s.engine s.draws
        ∧ ∀ (r : Fin 8) (c : Fin 16),
          t.g[r][c] = if r = 6 ∧ c = 15 then 0x01 else if r = 7 ∧ c = 15 then 0x80 else 0)

/-- ADD completes where it is legal and the announced message keeps to 2^61 − 1 bytes, and sets ADD_REMAIN
alone (40_block_engine.md R112); past the bound it faults LENGTH_OVERFLOW. -/
def Obligations.AddAnnouncesBytes : Prop :=
  ∀ (n : BitVec 24) (s : State), s.busy = false → s.phase = .absorb → s.addRemain = 0 →
    (s.total.toNat + n.toNat ≤ 2 ^ 61 - 1 →
      exec (.add n) s = .next { s with addRemain := n, pending := s.pending.tail })
    ∧ (2 ^ 61 - 1 < s.total.toNat + n.toNat →
      exec (.add n) s
        = .next { s with phase := .fault, fcode := .lengthOverflow, pending := s.pending.tail })

/-- FINALIZE completes where it is legal: it starts the FINALIZE job and does nothing else itself
(40_block_engine.md R113). -/
def Obligations.FinalizeStartsJob : Prop :=
  ∀ s : State, s.busy = false → s.phase = .absorb → s.addRemain = 0 →
    exec .finalize s
      = .next { s with busy := true, seq := .finalize .pad, pending := s.pending.tail }

/-- GET_DIGEST completes in FINAL and arms 20, 64 or 48 bytes (40_block_engine.md R114, 00_scope.md R3),
whether or not bytes of an earlier one are unread. -/
def Obligations.GetDigestArmsOutput : Prop :=
  ∀ s : State, s.busy = false → s.phase = .final → s.addRemain = 0 →
    exec .getDigest s
      = .next { s with
          doutRemain := match s.alg with
            | .sha1 => 20
            | .groestl512 => 64
            | .groestl384 => 48
          pending := s.pending.tail }

/-- The table of 60_exceptions.md R261: where it does not say ok, the command raises SEQUENCE, and nothing
but PHASE, FCODE and the host's list changes; where it says ok, the command is not so turned away. -/
def Obligations.LegalityTable : Prop :=
  (∀ (alg : Alg) (n : BitVec 24), n ≠ 0 →
    legal (.init alg) .idle 0 = true ∧ legal (.init alg) .absorb 0 = true
      ∧ legal (.init alg) .absorb n = false ∧ legal (.init alg) .final 0 = true)
  ∧ (∀ len n : BitVec 24, n ≠ 0 →
    legal (.add len) .idle 0 = false ∧ legal (.add len) .absorb 0 = true
      ∧ legal (.add len) .absorb n = false ∧ legal (.add len) .final 0 = false)
  ∧ (∀ n : BitVec 24, n ≠ 0 →
    legal .finalize .idle 0 = false ∧ legal .finalize .absorb 0 = true
      ∧ legal .finalize .absorb n = false ∧ legal .finalize .final 0 = false)
  ∧ (∀ n : BitVec 24, n ≠ 0 →
    legal .getDigest .idle 0 = false ∧ legal .getDigest .absorb 0 = false
      ∧ legal .getDigest .absorb n = false ∧ legal .getDigest .final 0 = true)
  ∧ ∀ (i : Instr) (s : State),
    ((∃ alg, i = .init alg) ∨ (∃ len, i = .add len) ∨ i = .finalize ∨ i = .getDigest) →
    s.busy = false → s.phase ≠ .fault →
      (legal i s.phase s.addRemain = false →
        exec i s
          = .next { s with phase := .fault, fcode := .sequence, pending := s.pending.tail })
      ∧ (legal i s.phase s.addRemain = true → s.fcode ≠ .sequence →
        ∃ t, exec i s = .next t ∧ t.fcode ≠ .sequence)

/-- What the four commands leave unchanged when they are taken, faults included: every byte of BUF, the
working registers, what the reads returned, and each field no rule of the command writes. That the working
registers and the bytes of BUF above BUF_LEN stay is the model's choice (log entries 6 and 12). -/
def Obligations.CommandFrame : Prop :=
  ∀ (i : Instr) (s t : State),
    ((∃ alg, i = .init alg) ∨ (∃ len, i = .add len) ∨ i = .finalize ∨ i = .getDigest) →
    s.busy = false → exec i s = .next t →
      (∀ a, t.buf.read a = s.buf.read a)
      ∧ t.regs = s.regs ∧ t.win = s.win ∧ t.t = s.t ∧ t.pm = s.pm ∧ t.qm = s.qm ∧ t.r = s.r
      ∧ t.reads = s.reads ∧ t.pending = s.pending.tail ∧ t.bufDraw = s.bufDraw ∧ t.engine = s.engine
      ∧ ((∀ alg, i ≠ .init alg) → t.alg = s.alg ∧ t.h = s.h ∧ t.g = s.g ∧ t.bufLen = s.bufLen
        ∧ t.total = s.total ∧ t.blocks = s.blocks ∧ t.draws = s.draws
        ∧ (t.phase = s.phase ∨ t.phase = .fault))
      ∧ ((∀ alg, i ≠ .init alg) → (∀ len, i ≠ .add len) → t.addRemain = s.addRemain)
      ∧ ((∀ alg, i ≠ .init alg) → i ≠ .getDigest → t.doutRemain = s.doutRemain)
      ∧ (i ≠ .finalize → t.busy = s.busy ∧ t.seq = s.seq)
      ∧ (t.phase ≠ .fault ∨ s.phase = .fault → t.fcode = s.fcode)

/-! ### Register accesses -/

/-- WRITE_DIN completes outside FAULT with a byte owed and BUSY = 0, where BUF has room: it stores the byte
at BUF_LEN, counts it, and starts COMPRESS exactly when it completes a block of 64 or 128 bytes
(40_block_engine.md R120); every other byte of BUF stays. -/
def Obligations.WriteDinStoresByte : Prop :=
  ∀ (b : Byte) (s : State),
    s.busy = false → s.phase ≠ .fault → s.addRemain ≠ 0 → s.bufLen.toNat < 128 →
    ∃ t, exec (.writeDin b) s = .next t
      ∧ t = { s with
          buf := t.buf, bufLen := s.bufLen + 1, total := s.total + 1, addRemain := s.addRemain - 1
          busy := t.busy, seq := t.seq, pending := s.pending.tail }
      ∧ t.buf.read s.bufLen.toNat = some b
      ∧ (∀ a, a ≠ s.bufLen.toNat → t.buf.read a = s.buf.read a)
      ∧ (s.bufLen.toNat + 1 = (match s.alg with
            | .sha1 => 64
            | .groestl512 => 128
            | .groestl384 => 128) → t.busy = true ∧ t.seq = .compress .load)
      ∧ (s.bufLen.toNat + 1 ≠ (match s.alg with
            | .sha1 => 64
            | .groestl512 => 128
            | .groestl384 => 128) → t.busy = false ∧ t.seq = s.seq)

/-- A DIN write with no byte owed faults DIN_UNEXPECTED in every phase but FAULT, and stores nothing
(40_block_engine.md R120). -/
def Obligations.UnexpectedByteFaults : Prop :=
  ∀ (b : Byte) (s : State), s.busy = false → s.phase ≠ .fault → s.addRemain = 0 →
    exec (.writeDin b) s
      = .next { s with phase := .fault, fcode := .dinUnexpected, pending := s.pending.tail }

/-- What WRITE_DIN leaves unchanged when it is taken, faults included: every byte of BUF but the one at
BUF_LEN, and each field its rule does not write. That the working registers and the bytes of BUF above BUF_LEN stay
is the model's choice (log entries 6 and 12). -/
def Obligations.WriteDinFrame : Prop :=
  ∀ (b : Byte) (s t : State), s.busy = false → exec (.writeDin b) s = .next t →
    (∀ a, a ≠ s.bufLen.toNat → t.buf.read a = s.buf.read a)
      ∧ (s.phase = .fault ∨ s.addRemain = 0 → ∀ a, t.buf.read a = s.buf.read a)
      ∧ t.alg = s.alg ∧ t.h = s.h ∧ t.g = s.g ∧ t.blocks = s.blocks ∧ t.doutRemain = s.doutRemain
      ∧ t.regs = s.regs ∧ t.win = s.win ∧ t.t = s.t ∧ t.pm = s.pm ∧ t.qm = s.qm ∧ t.r = s.r
      ∧ t.reads = s.reads ∧ t.draws = s.draws ∧ t.pending = s.pending.tail
      ∧ t.bufDraw = s.bufDraw ∧ t.engine = s.engine
      ∧ (t.phase = s.phase ∨ t.phase = .fault)
      ∧ (t.phase ≠ .fault ∨ s.phase = .fault → t.fcode = s.fcode)

/-- READ_STATUS completes in every state and returns the word of 10_state.md R44: each field in its bits, the
reserved bits 0. It has no other effect, a write to STATUS is ignored, and after reset the word is 0. That the
write is ignored at once while BUSY = 1, and not held, is log entry 10. -/
def Obligations.StatusRegister : Prop :=
  (∀ s : State, ∃ w : Word,
    exec .readStatus s = .next { s with reads := s.reads ++ [w], pending := s.pending.tail }
      ∧ w.getLsbD 0 = s.busy
      ∧ w.extractLsb' 1 2 = (match s.phase with
        | .idle => 0
        | .absorb => 1
        | .final => 2
        | .fault => 3)
      ∧ w.getLsbD 3 = false
      ∧ w.extractLsb' 4 2 = (match s.alg with
        | .sha1 => 0
        | .groestl512 => 1
        | .groestl384 => 2)
      ∧ w.getLsbD 6 = decide (s.addRemain ≠ 0)
      ∧ w.getLsbD 7 = decide (s.doutRemain ≠ 0)
      ∧ w.extractLsb' 8 4 = (match s.fcode with
        | .none => 0
        | .illegalCmd => 1
        | .sequence => 2
        | .dinUnexpected => 3
        | .doutEmpty => 4
        | .lengthOverflow => 5)
      ∧ w.extractLsb' 12 20 = 0)
  ∧ (∀ s : State, exec (.writeRo .status) s = .next { s with pending := s.pending.tail })
  ∧ State.reset.status = 0

/-- READ_DOUT completes with a byte armed, outside FAULT and with BUSY = 0: it returns digest byte
DSIZE(ALG) − DOUT_REMAIN in bits [7:0], counts it, and changes nothing else (40_block_engine.md R116). -/
def Obligations.ReadDoutReturnsNextByte : Prop :=
  ∀ s : State, s.busy = false → s.phase ≠ .fault → s.doutRemain ≠ 0 →
    s.doutRemain.toNat ≤ digestBytes s.alg →
    ∃ b : Byte, s.digest[digestBytes s.alg - s.doutRemain.toNat]? = some b
      ∧ exec .readDout s
        = .next { s with
            doutRemain := s.doutRemain - 1
            reads := s.reads ++ [b.setWidth 32]
            pending := s.pending.tail }

/-- A DOUT read with no byte armed returns 0 and faults DOUT_EMPTY (40_block_engine.md R116). -/
def Obligations.EmptyReadFaults : Prop :=
  ∀ s : State, s.busy = false → s.phase ≠ .fault → s.doutRemain = 0 →
    exec .readDout s
      = .next { s with
          phase := .fault, fcode := .doutEmpty, reads := s.reads ++ [0], pending := s.pending.tail }

/-- READ_WO returns 0 and WRITE_RO is discarded, in every state, during a job as well, and neither changes
anything else (40_block_engine.md R118). That R118 wins over the hold rule here is log entry 10. -/
def Obligations.PlainAccessesCompleteAlways : Prop :=
  ∀ s : State,
    exec (.readWo .cmd) s = .next { s with reads := s.reads ++ [0], pending := s.pending.tail }
      ∧ exec (.readWo .din) s = .next { s with reads := s.reads ++ [0], pending := s.pending.tail }
      ∧ exec (.writeRo .status) s = .next { s with pending := s.pending.tail }
      ∧ exec (.writeRo .dout) s = .next { s with pending := s.pending.tail }

/-- READ_WO of a readable register and WRITE_RO of a writable one are no accesses of the spec
(30_encoding.md R90, R95): the meanings refuse them, and no access decodes to one. -/
def Obligations.IllFormedOperandsAreRefused : Prop :=
  ∀ i : Instr, i.wellFormed = false →
    (∀ s : State, exec i s = .refused .illFormedOperand) ∧ ∀ a : Access, decode a ≠ .instr i

/-- The model's own stops, each where the spec has no byte to give (20_memory.md R70; 40_block_engine.md R117;
70_reset_and_hazards.md R291): a store past BUF, a digest byte past the digest, and a block with a byte of BUF
that nothing has stored since reset (log entry 2). No state with the invariant meets one: DefinedAccessesNeverStop. -/
def Obligations.ModelStopsByName : Prop :=
  ∀ s : State,
    (∀ b : Byte, s.busy = false → s.phase ≠ .fault → s.addRemain ≠ 0 → 128 ≤ s.bufLen.toNat →
      exec (.writeDin b) s = .fault .bufferIndex)
    ∧ (s.busy = false → s.phase ≠ .fault → s.doutRemain ≠ 0 →
      digestBytes s.alg < s.doutRemain.toNat → exec .readDout s = .fault .digestIndex)
    ∧ (s.seq = .finalize .pad → 128 ≤ s.bufLen.toNat → s.engineStep = .fault .bufferIndex)
    ∧ ((s.seq = .compress .load ∨ ∃ rest, s.seq = .finalize (.block .load rest)) →
      (∃ a, a < blockBytes s.alg ∧ s.buf.read a = none) → s.engineStep = .fault .unspecifiedRead)

/-- What the reads and the discarded writes leave unchanged when they are taken, faults included: all of BUF
and every field but the host's two and, for READ_DOUT, DOUT_REMAIN and a fault's PHASE and FCODE. For the working
registers and the bytes of BUF above BUF_LEN this is the model's choice (log entries 6 and 12). That READ_WO and
WRITE_RO are taken, and leave the host's list, while BUSY = 1 is log entry 10. -/
def Obligations.ReadFrame : Prop :=
  ∀ (i : Instr) (s t : State),
    (i = .readStatus ∨ i = .readDout ∨ (∃ reg, i = .readWo reg) ∨ ∃ reg, i = .writeRo reg) →
    (s.busy = false ∨ i ≠ .readDout) → exec i s = .next t →
      (∀ a, t.buf.read a = s.buf.read a)
      ∧ t = { s with
          doutRemain := t.doutRemain, phase := t.phase, fcode := t.fcode, reads := t.reads
          pending := s.pending.tail }
      ∧ (i ≠ .readDout → t.doutRemain = s.doutRemain ∧ t.phase = s.phase ∧ t.fcode = s.fcode)

/-- From FINAL, GET_DIGEST and k reads of DOUT, k up to DSIZE, return the first k digest bytes and leave the
hash state alone, so a repeat returns the same bytes (40_block_engine.md R114, R116). -/
def Obligations.DigestReadsInOrder : Prop :=
  ∀ (s : State) (k : Nat), s.Inv → s.phase = .final → k ≤ digestBytes s.alg →
    ∃ t, run (k + 1) { s with
          pending := .access (encode .getDigest) :: List.replicate k (.access (encode .readDout)) }
        = .next t
      ∧ t.reads = s.reads ++ (s.digest.take k).map (·.setWidth 32)
      ∧ t.h = s.h ∧ t.g = s.g ∧ t.alg = s.alg ∧ t.phase = .final ∧ t.pending = []

/-! ### Faults and phases -/

/-- Fault entry (60_exceptions.md R262): it happens only to an access taken at BUSY = 0 and changes PHASE and
FCODE alone, the host having gone on and, for a DOUT read, received 0; in FAULT no fault is recorded. -/
def Obligations.FaultEntryIsPrecise : Prop :=
  ∀ s t : State,
    (∀ i : Instr, exec i s = .next t → s.phase ≠ .fault → t.phase = .fault →
      s.busy = false ∧ t.fcode ≠ .none
        ∧ t = { s with
            phase := .fault, fcode := t.fcode, reads := t.reads, pending := s.pending.tail }
        ∧ (t.reads = s.reads ∨ (i = .readDout ∧ t.reads = s.reads ++ [0])))
    ∧ (illegalCommand s = .next t → s.phase ≠ .fault → t.phase = .fault →
      s.busy = false
        ∧ t = { s with phase := .fault, fcode := .illegalCmd, pending := s.pending.tail })
    ∧ (∀ i : Instr, exec i s = .next t → s.phase = .fault → s.busy = false →
      t.phase = .fault ∧ t.fcode = s.fcode)

/-- The fault state (60_exceptions.md R264): CMD and DIN writes are taken and ignored, DOUT reads return 0,
STATUS shows PHASE 3 and the first code, and only reset leaves it. -/
def Obligations.FaultIsSticky : Prop :=
  ∀ s : State, s.phase = .fault → s.busy = false →
    (∀ i : Instr, ((∃ alg, i = .init alg) ∨ (∃ len, i = .add len) ∨ i = .finalize ∨ i = .getDigest
        ∨ ∃ b, i = .writeDin b) → exec i s = .next { s with pending := s.pending.tail })
    ∧ illegalCommand s = .next { s with pending := s.pending.tail }
    ∧ exec .readDout s = .next { s with reads := s.reads ++ [0], pending := s.pending.tail }
    ∧ (∃ w : Word,
      exec .readStatus s = .next { s with reads := s.reads ++ [w], pending := s.pending.tail }
        ∧ w.extractLsb' 1 2 = 3 ∧ w.extractLsb' 8 4 = s.fcode.code)
    ∧ ∀ t, step s = .next t → s.fetch ≠ .reset → t.phase = .fault ∧ t.fcode = s.fcode

/-- FCODE is written only by a fault outside FAULT and by reset (10_state.md R39). -/
def Obligations.FcodeKeepsFirstFault : Prop :=
  ∀ s t : State, step s = .next t →
    (s.fetch = .reset ∧ t.fcode = .none) ∨ t.fcode = s.fcode
      ∨ (s.phase ≠ .fault ∧ t.phase = .fault ∧ t.fcode ≠ .none)

/-- PHASE changes only by INIT, the end of a FINALIZE job, a fault and reset (10_state.md R31). -/
def Obligations.PhaseChangesOnlyByItsRules : Prop :=
  ∀ s t : State, step s = .next t → t.phase ≠ s.phase →
    (s.fetch = .reset ∧ t.phase = .idle)
      ∨ (s.busy = false ∧ (∃ alg, s.fetch = .instr (.init alg)) ∧ t.phase = .absorb)
      ∨ (s.busy = true ∧ (∃ q, s.seq = .finalize q) ∧ t.phase = .final ∧ t.busy = false)
      ∨ (s.busy = false ∧ t.phase = .fault)

/-- The hash state is written only by INIT, by the last step of the selected algorithm's compression or of the
output transform, and by reset (10_state.md R33); a job's step never writes the register of the algorithm not
selected. A step whose access is taken during a job, READ_WO and WRITE_RO among them (log entry 10), is no step
of the job. -/
def Obligations.HashStateHasFewWriters : Prop :=
  ∀ s t : State, s.Inv → step s = .next t → s.fetch ≠ .reset →
    (¬ (s.busy = false ∧ ∃ alg, s.fetch = .instr (.init alg)) → ¬ (jobMoves s ∧ atLastStep s) →
      t.h = s.h ∧ t.g = s.g)
      ∧ (s.busy = true → s.alg = .sha1 → t.g = s.g)
      ∧ (s.busy = true → s.alg ≠ .sha1 → t.h = s.h)

/-! ### The sequencer -/

/-- The hold rule (70_reset_and_hazards.md R300): while BUSY = 1 an access that may be held is not taken, the
engine goes on with its job, and the access stays pending; a STATUS read is taken at once. READ_WO and
WRITE_RO are not held (log entry 10). -/
def Obligations.HeldAccessStaysPending : Prop :=
  ∀ s : State, s.busy = true →
    (∀ i : Instr, neverHeld i = false → exec i s = s.engineStep)
    ∧ illegalCommand s = s.engineStep
    ∧ (∀ t, s.engineStep = .next t → t.pending = s.pending ∧ t.reads = s.reads)
    ∧ exec .readStatus s
      = .next { s with reads := s.reads ++ [s.status], pending := s.pending.tail }

/-- What a step of a job leaves unchanged: ALG, TOTAL, ADD_REMAIN, FCODE and the host's fields; every byte of
BUF while a block is compressed, and, in the step that stores padding, every byte below BUF_LEN and every byte at or
above the block size (40_block_engine.md R121, R132). The bytes above BUF_LEN are the model's choice (log entry 6). -/
def Obligations.JobStepFrame : Prop :=
  ∀ s t : State, s.Inv → s.engineStep = .next t →
    t.alg = s.alg ∧ t.total = s.total ∧ t.addRemain = s.addRemain ∧ t.fcode = s.fcode
      ∧ t.pending = s.pending ∧ t.reads = s.reads ∧ t.draws = s.draws
      ∧ t.bufDraw = s.bufDraw ∧ t.engine = s.engine
      ∧ ((∀ q, s.seq ≠ .finalize q) → t.phase = s.phase ∧ t.doutRemain = s.doutRemain)
      ∧ (t.busy = s.busy → t.phase = s.phase)
      ∧ ((∀ stage, s.seq = .compress stage → ∀ a, t.buf.read a = s.buf.read a)
        ∧ (s.seq = .finalize .pad →
          ∀ a, a < s.bufLen.toNat ∨ blockBytes s.alg ≤ a → t.buf.read a = s.buf.read a)
        ∧ (∀ stage rest, s.seq = .finalize (.block stage rest) →
          ∀ a, ¬ atLastStep s ∨ rest = [] ∨ blockBytes s.alg ≤ a → t.buf.read a = s.buf.read a)
        ∧ (∀ stage, s.seq = .finalize (.output stage) → ∀ a, t.buf.read a = s.buf.read a))

/-- A STATUS read during a job sees BUSY = 1 and the phase from before it, ABSORB; FINAL shows when BUSY = 0
(70_reset_and_hazards.md R302, "[derived: from rules R300 and 10_state.md rule R44]"). -/
def Obligations.StatusDuringJob : Prop :=
  ∀ s : State, s.Inv → s.busy = true →
    s.status.getLsbD 0 = true ∧ s.status.extractLsb' 1 2 = 1

/-- Every job ends (70_reset_and_hazards.md R300): from any point of one, within 165 steps of the sequencer,
the count of a SHA-1 FINALIZE with two padding blocks (R310; log entry 3), BUSY is 0. -/
def Obligations.JobsEnd : Prop :=
  ∀ s : State, s.Inv → s.busy = true →
    ∃ n t, n ≤ 165 ∧ engineRun n s = .next t ∧ t.busy = false

/-- A SHA-1 COMPRESS job takes 82 steps, BUSY as it was until the last, and leaves SHA1_Compress of H and
the block in BUF, one block counted and the buffer empty (40_block_engine.md R121, 41_sha1.md R170,
70_reset_and_hazards.md R310). -/
def Obligations.Sha1CompressJob : Prop :=
  ∀ (s : State) (blk : Vector Byte 64), s.alg = .sha1 → s.seq = .compress .load →
    s.readBlock 64 = some blk →
    (∃ t, engineRun 82 s = .next t
      ∧ t = { s with
          h := sha1Compress s.h blk, blocks := s.blocks + 1, bufLen := 0, busy := false, seq := .none
          regs := t.regs, win := t.win, t := t.t })
    ∧ ∀ n, n < 82 → ∃ u, engineRun n s = .next u ∧ u.busy = s.busy ∧ u.h = s.h

/-- A Groestl COMPRESS job takes 16 steps and leaves Groestl_Compress of G and the block in BUF: the lockstep
pipelines give G ^ PermP(G ^ msg) ^ PermQ(msg) (40_block_engine.md R121, 42_groestl.md R212,
70_reset_and_hazards.md R310). The output transform as a function is G ^ PermP(G) (R213). The spec derives the formula
of R212 ("[derived: from rules R210 and R211]"). -/
def Obligations.GroestlCompressJob : Prop :=
  (∀ (g : ByteMatrix) (blk : Vector Byte 128), groestlCompress g blk
    = xorMatrix (xorMatrix g (permP (xorMatrix g (msgOf blk)))) (permQ (msgOf blk)))
  ∧ (∀ g : ByteMatrix, groestlOutput g = xorMatrix g (permP g))
  ∧ ∀ (s : State) (blk : Vector Byte 128), s.alg ≠ .sha1 → s.seq = .compress .load →
    s.readBlock 128 = some blk →
    (∃ t, engineRun 16 s = .next t
      ∧ t = { s with
          g := groestlCompress s.g blk, blocks := s.blocks + 1, bufLen := 0, busy := false
          seq := .none, pm := t.pm, qm := t.qm, r := t.r })
    ∧ ∀ n, n < 16 → ∃ u, engineRun n s = .next u ∧ u.busy = s.busy ∧ u.g = s.g

/-- A SHA-1 FINALIZE job (40_block_engine.md R130 to R132): one padding block for up to 55 buffered bytes, else
two; H becomes the compression of the buffered bytes, the padding and the 64-bit message length in bits, block
by block, and the engine is in FINAL with an empty buffer. One step stores padding until a block is full, and the
second block's padding is stored in the step that ends the first (log entry 3). -/
def Obligations.Sha1FinalizeJob : Prop :=
  ∀ s : State, s.Inv → s.alg = .sha1 → s.seq = .finalize .pad →
    let r := s.bufLen.toNat
    let n := if r ≤ 55 then 1 else 2
    ∃ t, engineRun (1 + 82 * n) s = .next t
      ∧ t.h = sha1Blocks s.h (heldBytes s ++ padding 64 r (s.total * 8)) n
      ∧ t.blocks = s.blocks + BitVec.ofNat 64 n ∧ t.bufLen = 0 ∧ t.total = s.total
      ∧ t.doutRemain = 0 ∧ t.phase = .final ∧ t.busy = false ∧ t.seq = .none ∧ t.g = s.g
      ∧ t.alg = s.alg

/-- A Groestl FINALIZE job (40_block_engine.md R130 to R132): one padding block for up to 119 buffered bytes,
else two; the length field is the number of blocks of the padded message (the spec's choice of
GROESTL_LEN_MODE, log entry 7); the output transform runs once, at the end. The steps are as in Sha1FinalizeJob (log
entry 3). -/
def Obligations.GroestlFinalizeJob : Prop :=
  ∀ s : State, s.Inv → s.alg ≠ .sha1 → s.seq = .finalize .pad →
    let r := s.bufLen.toNat
    let n := if r ≤ 119 then 1 else 2
    ∃ t, engineRun (1 + 16 * n + 16) s = .next t
      ∧ t.g = groestlOutput
          (groestlBlocks s.g (heldBytes s ++ padding 128 r (s.blocks + BitVec.ofNat 64 n)) n)
      ∧ t.blocks = s.blocks + BitVec.ofNat 64 n ∧ t.bufLen = 0 ∧ t.total = s.total
      ∧ t.doutRemain = 0 ∧ t.phase = .final ∧ t.busy = false ∧ t.seq = .none ∧ t.h = s.h
      ∧ t.alg = s.alg

/-- Chunk invariance (40_block_engine.md R122): from ABSORB with no byte owed, two ways of sending the same
bytes in ADDs, each with its DIN writes, end in the same state. The spec derives the rule ("[derived: from rules
R112 and R120]"). -/
def Obligations.ChunkInvariance : Prop :=
  ∀ (s : State) (xs ys : List (List Byte)), s.Inv → s.phase = .absorb → s.busy = false →
    s.addRemain = 0 → xs.flatten = ys.flatten →
    (∀ x ∈ xs, x.length < 2 ^ 24) → (∀ y ∈ ys, y.length < 2 ^ 24) →
    s.total.toNat + xs.flatten.length ≤ 2 ^ 61 - 1 →
    ∃ m n t, run m { s with pending := xs.flatMap chunkEvents } = .next t
      ∧ run n { s with pending := ys.flatMap chunkEvents } = .next t
      ∧ t.pending = [] ∧ t.busy = false ∧ t.phase = .absorb ∧ t.addRemain = 0

/-! ### Invariants -/

/-- BUF keeps its canonical form under every step, from every state. -/
def Obligations.StepKeepsMemoryForm : Prop :=
  ∀ s t : State, s.buf.wf = true → step s = .next t → t.buf.wf = true

/-- The invariant of an engine (10_state.md R34 to R41, R47; 70_reset_and_hazards.md R302) holds after every
step from a state where it holds, whatever the host and the platform do. -/
def Obligations.StepKeepsInvariant : Prop :=
  ∀ s t : State, s.Inv → step s = .next t → t.Inv

/-- The invariant holds right after reset, and memory is in its canonical form. -/
def Obligations.ResetHasInvariant : Prop :=
  State.reset.Inv ∧ State.reset.buf.wf = true

/-- The invariants of 10_state.md R47 hold in every run from reset, for every sequence of accesses, resets and
idle steps, whenever BUSY = 0 and PHASE is ABSORB or FINAL. The spec derives them ("[derived: from rules R34, R35,
R120, R121, R132]"). -/
def Obligations.CountersAgreeInEveryRun : Prop :=
  ∀ (events : List HostEvent) (n : Nat) (s : State),
    run n { State.reset with pending := events } = .next s →
    s.busy = false → s.phase = .absorb ∨ s.phase = .final →
      s.bufLen.toNat < blockBytes s.alg
      ∧ (s.phase = .absorb →
        s.total.toNat = s.blocks.toNat * blockBytes s.alg + s.bufLen.toNat)
      ∧ (s.phase = .final → s.bufLen = 0)
      ∧ s.total.toNat ≤ 2 ^ 61 - 1
      ∧ (s.phase = .final → s.addRemain = 0)
      ∧ (s.phase = .absorb → s.doutRemain = 0)

/-- From a state with the invariant every access the spec defines is taken or held: the model never stops, so
no unspecified byte of BUF is read and no index leaves BUF or the digest (70_reset_and_hazards.md R291,
20_memory.md R70; log entries 2 and 8). -/
def Obligations.DefinedAccessesNeverStop : Prop :=
  ∀ s : State, s.Inv →
    (∀ (a : Access) (rest : List HostEvent), s.pending = .access a :: rest → a.defined = true) →
    ∃ t, step s = .next t

/-! ### What is not read -/

/-- While ALG selects SHA-1 no rule reads G, and while it selects Groestl none reads H (10_state.md R33): another
value there changes nothing of the outcome but that register. -/
def Obligations.UnselectedRegisterIsNotRead : Prop :=
  ∀ s : State, s.Inv →
    (s.alg = .sha1 → ∀ g : ByteMatrix,
      sameOutcome (fun t t' => { t' with g := t.g } = t) (step s) (step { s with g := g }))
    ∧ (s.alg ≠ .sha1 → ∀ h : Vector Word 5,
      sameOutcome (fun t t' => { t' with h := t.h } = t) (step s) (step { s with h := h }))

/-- Before the first INIT no step reads H, G, BUF, its free values (`bufDraw`) or a working register: other values
there change nothing else of the outcome (70_reset_and_hazards.md R291). -/
def Obligations.NothingIsReadBeforeInit : Prop :=
  ∀ (s : State) (h : Vector Word 5) (g pm qm : ByteMatrix) (buf : Memory) (regs : RoundRegs)
    (win : Vector Word 16) (t r k : Nat), s.Inv → s.phase = .idle →
    sameOutcome
      (fun u u' => { u' with
        h := u.h, g := u.g, buf := u.buf, regs := u.regs, win := u.win, t := u.t, pm := u.pm
        qm := u.qm, r := u.r, bufDraw := u.bufDraw } = u)
      (step s)
      (step { s with
        h := h, g := g, buf := buf, regs := regs, win := win, t := t, pm := pm, qm := qm, r := r
        bufDraw := k })

/-- Engines share no state (60_exceptions.md R281): a step of engine k leaves every other one alone and depends
on engine k only; all start in the reset state, each with its own number and so its own free values (log entries 5
and 9). -/
def Obligations.EnginesAreIndependent : Prop :=
  (∀ (k : Nat) (p q : Platform), platformStep k p = some (.next q) →
    (∀ j, j ≠ k → q[j]? = p[j]?)
      ∧ ∃ s s', p[k]? = some s ∧ step s = .next s' ∧ q[k]? = some s')
  ∧ (∀ (k : Nat) (p p' q : Platform), p[k]? = p'[k]? → platformStep k p = some (.next q) →
    ∃ q', platformStep k p' = some (.next q') ∧ q'[k]? = q[k]?)
  ∧ (∀ (k : Nat) (s : State), platformAtReset[k]? = some s → s = { State.reset with engine := k })
  ∧ 1 ≤ platformAtReset.length

/-- The host's access to an address waits, behind the earlier ones, at the engines whose 16-byte block a byte of it
is in, at its offset from their base, and changes nothing else; one at a register's address, 32 bits wide, reaches
that engine alone where the blocks do not overlap; and any other access that reaches a block, be it from below, is
refused there when its turn comes (20_memory.md R71, R77, R79; log entries 8 and 9). -/
def Obligations.HostReachesOneEngine : Prop :=
  (∀ (base : Nat → Nat) (dir : Dir) (width : Width) (addr : Nat) (data : Word) (p : Platform),
    let q := hostIssueAt base dir width addr data p
    let n := match width with
      | .bits8 => 1
      | .bits16 => 2
      | .bits32 => 4
      | .bits64 => 8
    q.length = p.length
    ∧ (∀ (k : Nat) (s : State), p[k]? = some s →
      (base k < addr + n ∧ addr < base k + 16 →
        q[k]? = some { s with
          pending := s.pending ++ [.access ⟨dir, width, (addr : Int) - (base k : Int), data⟩] })
      ∧ (addr + n ≤ base k ∨ base k + 16 ≤ addr → q[k]? = some s))
    ∧ (∀ k : Nat, width = .bits32 → addr ∈ [base k, base k + 4, base k + 8, base k + 12] →
      base k < addr + n ∧ addr < base k + 16
      ∧ ∀ j : Nat, base j + 16 ≤ base k ∨ base k + 16 ≤ base j → q[j]? = p[j]?)
    ∧ ∀ k : Nat, width ≠ .bits32 ∨ addr ∉ [base k, base k + 4, base k + 8, base k + 12] →
      ∀ (s : State) (rest : List HostEvent),
        s.pending = .access ⟨dir, width, (addr : Int) - (base k : Int), data⟩ :: rest →
        step s = .refused .undefinedAccess)
  ∧ ∀ (dir : Dir) (width : Width) (addr : Nat) (data : Word) (p : Platform),
    hostIssue dir width addr data p = hostIssueAt Config.engineBase dir width addr data p

/-! ### Padding and datapaths -/

/-- Padding (40_block_engine.md R130): for r below the block size, z is below it and the buffered bytes with
the padding fill exactly npad blocks, 1 for r ≤ B − 9, else 2; the string is 0x80, z zeros and the length,
most significant byte first (20_memory.md R75). The spec derives z and npad ("[derived: z and npad from the quoted
rule]"). -/
def Obligations.PaddingFillsBlocks : Prop :=
  ∀ (alg : Alg) (r : Nat) (len : DWord), r < blockBytes alg →
    let size := blockBytes alg
    let z := ((size : Int) - 9 - (r : Int)) % (size : Int)
    0 ≤ z ∧ z < size
      ∧ padding size r len = [0x80] ++ List.replicate z.toNat 0 ++ be64bytes len
      ∧ (r ≤ size - 9 → r + (padding size r len).length = size)
      ∧ (size - 9 < r → r + (padding size r len).length = 2 * size)
      ∧ (be64bytes len).length = 8
      ∧ ∀ k, k < 8 → (be64bytes len)[k]? = some (len.extractLsb' (56 - 8 * k) 8)

/-- A message of N bytes takes ⌈(N + 9)/B⌉ compressions (40_block_engine.md R133): a FINALIZE job ends with that
many counted in BLOCKS, which are the full blocks and the padding blocks of what is left. The spec derives the count ("[derived: from rules R120, R121, R130, R132]"). -/
def Obligations.CompressionCount : Prop :=
  (∀ s : State, s.Inv → s.seq = .finalize .pad →
    ∃ n t, engineRun n s = .next t ∧ t.busy = false ∧ t.phase = .final
      ∧ t.blocks.toNat = (s.total.toNat + 9 + (blockBytes s.alg - 1)) / blockBytes s.alg)
  ∧ ∀ (alg : Alg) (n : Nat),
    n / blockBytes alg + npad (blockBytes alg) (n % blockBytes alg)
      = (n + 9 + (blockBytes alg - 1)) / blockBytes alg

/-- The length field (40_block_engine.md R131): under the invariant SHA-1's and BIT_LENGTH's is the message
length in bits, without wrapping, and BLOCK_COUNT's the number of blocks with the padding, ⌈(N + 9)/B⌉. -/
def Obligations.LengthFieldCountsMessage : Prop :=
  ∀ s : State, s.Inv → s.phase = .absorb → s.seq = .finalize .pad →
    (s.alg = .sha1 → ∀ mode, (lengthValue mode s).toNat = 8 * s.total.toNat)
      ∧ (s.alg ≠ .sha1 → (lengthValue .bitLength s).toNat = 8 * s.total.toNat
        ∧ (lengthValue .blockCount s).toNat = (s.total.toNat + 9 + 127) / 128)

/-- The schedule: words 0 to 15 are the block read big-endian, the others follow the recurrence (41_sha1.md
R162, R163; 00_scope.md R11). -/
def Obligations.ScheduleRecurrence : Prop :=
  ∀ blk : Vector Byte 64,
    (∀ (t : Nat) (h : t < 16), (sha1Schedule blk)[t]
      = be32 blk[4 * t] blk[4 * t + 1] blk[4 * t + 2] blk[4 * t + 3])
    ∧ ∀ (t : Nat) (h : t < 80) (h16 : 16 ≤ t), (sha1Schedule blk)[t]
      = rotl ((sha1Schedule blk)[t - 3] ^^^ (sha1Schedule blk)[t - 8]
          ^^^ (sha1Schedule blk)[t - 14] ^^^ (sha1Schedule blk)[t - 16]) 1

/-- be32 puts the first byte highest, be32bytes takes the word apart in the same order, and rotl is the rotation
(00_scope.md R7, R11; 20_memory.md R72). -/
def Obligations.WordPrimitives : Prop :=
  (∀ b0 b1 b2 b3 : Byte,
    (be32 b0 b1 b2 b3).toNat
        = b0.toNat * 2 ^ 24 + b1.toNat * 2 ^ 16 + b2.toNat * 2 ^ 8 + b3.toNat
      ∧ be32bytes (be32 b0 b1 b2 b3) = [b0, b1, b2, b3])
    ∧ ∀ (w : Word) (n : Nat), 0 < n → n < 32 → rotl w n = w.rotateLeft n

/-- A round of SHA-1 (41_sha1.md R165 to R167): the mixing function and the constant of the round's phase, the
sum modulo 2^32, and the shift of the registers; the load and the feed-forward (R168, R169). The compression is the
load, rounds 0 to 79 over the schedule, and the feed-forward (R170). -/
def Obligations.Sha1RoundFollowsPhases : Prop :=
  (∀ (t : Nat) (w a b c d e : Word), t < 80 →
    let f : Word :=
      if t ≤ 19 then (b &&& c) ||| (~~~b &&& d)
      else if t ≤ 39 then b ^^^ c ^^^ d
      else if t ≤ 59 then (b &&& c) ||| (b &&& d) ||| (c &&& d)
      else b ^^^ c ^^^ d
    let k : Word :=
      if t ≤ 19 then 0x5A827999
      else if t ≤ 39 then 0x6ED9EBA1
      else if t ≤ 59 then 0x8F1BBCDC
      else 0xCA62C1D6
    sha1Round t w ⟨a, b, c, d, e⟩ = ⟨a.rotateLeft 5 + f + e + k + w, a, b.rotateLeft 30, c, d⟩)
  ∧ (∀ h : Vector Word 5, sha1Load h = ⟨h[0], h[1], h[2], h[3], h[4]⟩)
  ∧ (∀ (h : Vector Word 5) (a b c d e : Word),
    sha1FeedForward h ⟨a, b, c, d, e⟩ = #v[h[0] + a, h[1] + b, h[2] + c, h[3] + d, h[4] + e])
  ∧ ∀ (h : Vector Word 5) (blk : Vector Byte 64), sha1Compress h blk
    = sha1FeedForward h
        ((List.finRange 80).foldl (fun x t => sha1Round t.val (sha1Schedule blk)[t] x) (sha1Load h))

/-- The window scheduler gives the schedule's word in every round, and from round 16 on the window holds the
last 16 of them (41_sha1.md R164, which the spec derives "by induction on t"). -/
def Obligations.WindowEqualsSchedule : Prop :=
  ∀ blk : Vector Byte 64,
    (∀ (t : Nat) (h : t < 80), windowWord t (windowAt blk t) = (sha1Schedule blk)[t])
    ∧ ∀ (t k : Nat) (h : t < 80) (h16 : 16 ≤ t) (hk : 1 ≤ k) (hk16 : k ≤ 16),
      (windowAt blk t)[(t - k) % 16]'(Nat.mod_lt _ (by decide))
        = (sha1Schedule blk)[t - k]'(Nat.lt_of_le_of_lt (Nat.sub_le t k) h)

/-- The substitution table is a bijection with no fixed point, and each entry is the affine map of the inverse
of its index (42_groestl.md R202). -/
def Obligations.SboxIsAffineInverse : Prop :=
  Function.Bijective sbox
    ∧ (∀ x, sbox x ≠ x)
    ∧ ∀ x, ∃ b, (x = 0 → b = 0) ∧ (x ≠ 0 → gmul x b = 1)
      ∧ sbox x = b ^^^ b.rotateLeft 1 ^^^ b.rotateLeft 2 ^^^ b.rotateLeft 3 ^^^ b.rotateLeft 4 ^^^ 0x63

/-- The field multiplication (42_groestl.md R203): xtime is the shift reduced by 0x1B, and a product is the sum, over
the bits k of the second factor that are 1, of the first factor taken through xtime k times; its small products; it is
commutative and distributes over XOR. -/
def Obligations.GmulLaws : Prop :=
  (∀ x : Byte, xtime x = (x <<< 1) ^^^ (if x.getLsbD 7 = true then 0x1B else 0x00))
    ∧ (∀ x y : Byte, gmul x y
      = ((List.range 8).map fun k => if y.getLsbD k = true then xtime^[k] x else 0).foldl (· ^^^ ·) 0)
    ∧ (∀ x, gmul x 1 = x ∧ gmul x 0 = 0 ∧ gmul x 2 = xtime x ∧ gmul x 3 = xtime x ^^^ x)
    ∧ (∀ x y, gmul x y = gmul y x)
    ∧ ∀ x y z, gmul x (y ^^^ z) = gmul x y ^^^ gmul x z

/-- The stages of a Groestl round entry by entry (42_groestl.md R205 to R208): P's constant 16·i + rnd goes into
row 0 alone, Q's complement of it into row 7 and 0xFF into the other rows, each row moves left by its shift, and
every byte is substituted. A round is the four stages in the order ARC, SB, SH, MB, and each permutation is rounds 0 to
13 in turn (R210, R211). XOR of matrices is entry by entry (00_scope.md R8). A block and its matrix are column-major
images of each other (R200, 20_memory.md R74). -/
def Obligations.GroestlStagesByEntry : Prop :=
  (∀ (m : ByteMatrix) (rnd : Nat), rnd < 14 → ∀ (r : Fin 8) (c : Fin 16),
    (arcP m rnd)[r][c]
        = (if r.val = 0 then m[r][c] ^^^ BitVec.ofNat 8 (16 * c.val + rnd) else m[r][c])
      ∧ (arcQ m rnd)[r][c]
        = (if r.val = 7 then m[r][c] ^^^ BitVec.ofNat 8 rnd ^^^ 0xFF ^^^ BitVec.ofNat 8 (16 * c.val)
          else m[r][c] ^^^ 0xFF)
      ∧ (subBytes m)[r][c] = sbox m[r][c]
      ∧ (shiftBytes sigmaP m)[r][c]
        = m[r][(c.val + (if r.val = 7 then 11 else r.val)) % 16]'(Nat.mod_lt _ (by decide))
      ∧ ∀ k, [1, 3, 5, 11, 0, 2, 4, 6][r.val]? = some k →
        (shiftBytes sigmaQ m)[r][c] = m[r][(c.val + k) % 16]'(Nat.mod_lt _ (by decide)))
  ∧ (∀ (m : ByteMatrix) (rnd : Nat),
    roundP m rnd = mixBytes (shiftBytes sigmaP (subBytes (arcP m rnd)))
      ∧ roundQ m rnd = mixBytes (shiftBytes sigmaQ (subBytes (arcQ m rnd))))
  ∧ (∀ m : ByteMatrix, permP m = (List.range 14).foldl roundP m ∧ permQ m = (List.range 14).foldl roundQ m)
  ∧ (∀ (x y : ByteMatrix) (r : Fin 8) (c : Fin 16), (xorMatrix x y)[r][c] = x[r][c] ^^^ y[r][c])
  ∧ (∀ (blk : Vector Byte 128) (r : Fin 8) (c : Fin 16), (msgOf blk)[r][c] = blk[c.val * 8 + r.val])
  ∧ (∀ (m : ByteMatrix) (r : Fin 8) (c : Fin 16), (serialise m)[c.val * 8 + r.val] = m[r][c])
  ∧ (∀ blk : Vector Byte 128, serialise (msgOf blk) = blk)

/-- MixBytes: each entry is the sum over its column of the products with the row of the circulant matrix with row0 =
02 02 03 04 05 03 05 07 (42_groestl.md R204, R209). It is linear, and mixes each column by itself: column c of the
result depends on column c alone. -/
def Obligations.MixBytesIsLinear : Prop :=
  (∀ (m : ByteMatrix) (i : Fin 8) (c : Fin 16),
    let row0 : Vector Byte 8 := #v[0x02, 0x02, 0x03, 0x04, 0x05, 0x03, 0x05, 0x07]
    (mixBytes m)[i][c]
      = ((List.finRange 8).map fun k : Fin 8 => gmul row0[(k.val + 8 - i.val) % 8] m[k][c]).foldl (· ^^^ ·) 0)
    ∧ (∀ x y : ByteMatrix, mixBytes (xorMatrix x y) = xorMatrix (mixBytes x) (mixBytes y))
    ∧ ∀ (x y : ByteMatrix) (c : Fin 16), (∀ r : Fin 8, x[r][c] = y[r][c]) →
      ∀ r : Fin 8, (mixBytes x)[r][c] = (mixBytes y)[r][c]

/-- The digests (41_sha1.md R171, 42_groestl.md R215, R216): 20, 64 and 48 bytes, each byte where its rule says,
the Groestl ones the last 64 and 48 bytes of G's serialisation, which the spec derives from R200. -/
def Obligations.DigestProjections : Prop :=
  (∀ h : Vector Word 5, (sha1Digest h).length = 20
    ∧ ∀ (k : Nat) (hk : k < 20),
      (sha1Digest h)[k]? = some (h[k / 4].extractLsb' (24 - 8 * (k % 4)) 8))
  ∧ (∀ g : ByteMatrix, (groestlDigest512 g).length = 64
    ∧ (∀ (r c : Fin 8), (groestlDigest512 g)[c.val * 8 + r.val]? = some g[r][c.val + 8])
    ∧ groestlDigest512 g = (serialise g).toList.drop 64)
  ∧ ∀ g : ByteMatrix, (groestlDigest384 g).length = 48
    ∧ (∀ (r c : Fin 8), 2 ≤ c.val →
      (groestlDigest384 g)[(c.val - 2) * 8 + r.val]? = some g[r][c.val + 8])
    ∧ groestlDigest384 g = (serialise g).toList.drop 80
end

