-- ==== Sys2Proof/Laws/State.lean ====
section
/-! SUPPORT. One lemma for each field of the state under each named update. -/

namespace Sys2Proof.Machine

variable (s : State)

/-! ### retire -/

@[simp] theorem retire_phase : s.retire.phase = s.phase := rfl
@[simp] theorem retire_alg : s.retire.alg = s.alg := rfl
@[simp] theorem retire_h : s.retire.h = s.h := rfl
@[simp] theorem retire_g : s.retire.g = s.g := rfl
@[simp] theorem retire_buf : s.retire.buf = s.buf := rfl
@[simp] theorem retire_bufLen : s.retire.bufLen = s.bufLen := rfl
@[simp] theorem retire_total : s.retire.total = s.total := rfl
@[simp] theorem retire_blocks : s.retire.blocks = s.blocks := rfl
@[simp] theorem retire_addRemain : s.retire.addRemain = s.addRemain := rfl
@[simp] theorem retire_doutRemain : s.retire.doutRemain = s.doutRemain := rfl
@[simp] theorem retire_fcode : s.retire.fcode = s.fcode := rfl
@[simp] theorem retire_busy : s.retire.busy = s.busy := rfl
@[simp] theorem retire_seq : s.retire.seq = s.seq := rfl
@[simp] theorem retire_regs : s.retire.regs = s.regs := rfl
@[simp] theorem retire_win : s.retire.win = s.win := rfl
@[simp] theorem retire_t : s.retire.t = s.t := rfl
@[simp] theorem retire_pm : s.retire.pm = s.pm := rfl
@[simp] theorem retire_qm : s.retire.qm = s.qm := rfl
@[simp] theorem retire_r : s.retire.r = s.r := rfl
@[simp] theorem retire_pending : s.retire.pending = s.pending.tail := rfl
@[simp] theorem retire_reads : s.retire.reads = s.reads := rfl
@[simp] theorem retire_draws : s.retire.draws = s.draws := rfl
@[simp] theorem retire_bufDraw : s.retire.bufDraw = s.bufDraw := rfl
@[simp] theorem retire_engine : s.retire.engine = s.engine := rfl

/-! ### respond -/

@[simp] theorem respond_phase (w : Word) : (s.respond w).phase = s.phase := rfl
@[simp] theorem respond_alg (w : Word) : (s.respond w).alg = s.alg := rfl
@[simp] theorem respond_h (w : Word) : (s.respond w).h = s.h := rfl
@[simp] theorem respond_g (w : Word) : (s.respond w).g = s.g := rfl
@[simp] theorem respond_buf (w : Word) : (s.respond w).buf = s.buf := rfl
@[simp] theorem respond_bufLen (w : Word) : (s.respond w).bufLen = s.bufLen := rfl
@[simp] theorem respond_total (w : Word) : (s.respond w).total = s.total := rfl
@[simp] theorem respond_blocks (w : Word) : (s.respond w).blocks = s.blocks := rfl
@[simp] theorem respond_addRemain (w : Word) : (s.respond w).addRemain = s.addRemain := rfl
@[simp] theorem respond_doutRemain (w : Word) : (s.respond w).doutRemain = s.doutRemain := rfl
@[simp] theorem respond_fcode (w : Word) : (s.respond w).fcode = s.fcode := rfl
@[simp] theorem respond_busy (w : Word) : (s.respond w).busy = s.busy := rfl
@[simp] theorem respond_seq (w : Word) : (s.respond w).seq = s.seq := rfl
@[simp] theorem respond_regs (w : Word) : (s.respond w).regs = s.regs := rfl
@[simp] theorem respond_win (w : Word) : (s.respond w).win = s.win := rfl
@[simp] theorem respond_t (w : Word) : (s.respond w).t = s.t := rfl
@[simp] theorem respond_pm (w : Word) : (s.respond w).pm = s.pm := rfl
@[simp] theorem respond_qm (w : Word) : (s.respond w).qm = s.qm := rfl
@[simp] theorem respond_r (w : Word) : (s.respond w).r = s.r := rfl
@[simp] theorem respond_pending (w : Word) : (s.respond w).pending = s.pending := rfl
@[simp] theorem respond_reads (w : Word) : (s.respond w).reads = s.reads ++ [w] := rfl
@[simp] theorem respond_draws (w : Word) : (s.respond w).draws = s.draws := rfl
@[simp] theorem respond_bufDraw (w : Word) : (s.respond w).bufDraw = s.bufDraw := rfl
@[simp] theorem respond_engine (w : Word) : (s.respond w).engine = s.engine := rfl

/-! ### startJob -/

@[simp] theorem startJob_phase (q : Seq) : (s.startJob q).phase = s.phase := rfl
@[simp] theorem startJob_alg (q : Seq) : (s.startJob q).alg = s.alg := rfl
@[simp] theorem startJob_h (q : Seq) : (s.startJob q).h = s.h := rfl
@[simp] theorem startJob_g (q : Seq) : (s.startJob q).g = s.g := rfl
@[simp] theorem startJob_buf (q : Seq) : (s.startJob q).buf = s.buf := rfl
@[simp] theorem startJob_bufLen (q : Seq) : (s.startJob q).bufLen = s.bufLen := rfl
@[simp] theorem startJob_total (q : Seq) : (s.startJob q).total = s.total := rfl
@[simp] theorem startJob_blocks (q : Seq) : (s.startJob q).blocks = s.blocks := rfl
@[simp] theorem startJob_addRemain (q : Seq) : (s.startJob q).addRemain = s.addRemain := rfl
@[simp] theorem startJob_doutRemain (q : Seq) : (s.startJob q).doutRemain = s.doutRemain := rfl
@[simp] theorem startJob_fcode (q : Seq) : (s.startJob q).fcode = s.fcode := rfl
@[simp] theorem startJob_busy (q : Seq) : (s.startJob q).busy = true := rfl
@[simp] theorem startJob_seq (q : Seq) : (s.startJob q).seq = q := rfl
@[simp] theorem startJob_regs (q : Seq) : (s.startJob q).regs = s.regs := rfl
@[simp] theorem startJob_win (q : Seq) : (s.startJob q).win = s.win := rfl
@[simp] theorem startJob_t (q : Seq) : (s.startJob q).t = s.t := rfl
@[simp] theorem startJob_pm (q : Seq) : (s.startJob q).pm = s.pm := rfl
@[simp] theorem startJob_qm (q : Seq) : (s.startJob q).qm = s.qm := rfl
@[simp] theorem startJob_r (q : Seq) : (s.startJob q).r = s.r := rfl
@[simp] theorem startJob_pending (q : Seq) : (s.startJob q).pending = s.pending := rfl
@[simp] theorem startJob_reads (q : Seq) : (s.startJob q).reads = s.reads := rfl
@[simp] theorem startJob_draws (q : Seq) : (s.startJob q).draws = s.draws := rfl
@[simp] theorem startJob_bufDraw (q : Seq) : (s.startJob q).bufDraw = s.bufDraw := rfl
@[simp] theorem startJob_engine (q : Seq) : (s.startJob q).engine = s.engine := rfl

/-! ### endBlock -/

@[simp] theorem endBlock_phase : s.endBlock.phase = s.phase := rfl
@[simp] theorem endBlock_alg : s.endBlock.alg = s.alg := rfl
@[simp] theorem endBlock_h : s.endBlock.h = s.h := rfl
@[simp] theorem endBlock_g : s.endBlock.g = s.g := rfl
@[simp] theorem endBlock_buf : s.endBlock.buf = s.buf := rfl
@[simp] theorem endBlock_bufLen : s.endBlock.bufLen = 0 := rfl
@[simp] theorem endBlock_total : s.endBlock.total = s.total := rfl
@[simp] theorem endBlock_blocks : s.endBlock.blocks = s.blocks + 1 := rfl
@[simp] theorem endBlock_addRemain : s.endBlock.addRemain = s.addRemain := rfl
@[simp] theorem endBlock_doutRemain : s.endBlock.doutRemain = s.doutRemain := rfl
@[simp] theorem endBlock_fcode : s.endBlock.fcode = s.fcode := rfl
@[simp] theorem endBlock_busy : s.endBlock.busy = s.busy := rfl
@[simp] theorem endBlock_seq : s.endBlock.seq = s.seq := rfl
@[simp] theorem endBlock_regs : s.endBlock.regs = s.regs := rfl
@[simp] theorem endBlock_win : s.endBlock.win = s.win := rfl
@[simp] theorem endBlock_t : s.endBlock.t = s.t := rfl
@[simp] theorem endBlock_pm : s.endBlock.pm = s.pm := rfl
@[simp] theorem endBlock_qm : s.endBlock.qm = s.qm := rfl
@[simp] theorem endBlock_r : s.endBlock.r = s.r := rfl
@[simp] theorem endBlock_pending : s.endBlock.pending = s.pending := rfl
@[simp] theorem endBlock_reads : s.endBlock.reads = s.reads := rfl
@[simp] theorem endBlock_draws : s.endBlock.draws = s.draws := rfl
@[simp] theorem endBlock_bufDraw : s.endBlock.bufDraw = s.bufDraw := rfl
@[simp] theorem endBlock_engine : s.endBlock.engine = s.engine := rfl

/-! ### endJob -/

@[simp] theorem endJob_phase : s.endJob.phase = s.phase := rfl
@[simp] theorem endJob_alg : s.endJob.alg = s.alg := rfl
@[simp] theorem endJob_h : s.endJob.h = s.h := rfl
@[simp] theorem endJob_g : s.endJob.g = s.g := rfl
@[simp] theorem endJob_buf : s.endJob.buf = s.buf := rfl
@[simp] theorem endJob_bufLen : s.endJob.bufLen = s.bufLen := rfl
@[simp] theorem endJob_total : s.endJob.total = s.total := rfl
@[simp] theorem endJob_blocks : s.endJob.blocks = s.blocks := rfl
@[simp] theorem endJob_addRemain : s.endJob.addRemain = s.addRemain := rfl
@[simp] theorem endJob_doutRemain : s.endJob.doutRemain = s.doutRemain := rfl
@[simp] theorem endJob_fcode : s.endJob.fcode = s.fcode := rfl
@[simp] theorem endJob_busy : s.endJob.busy = false := rfl
@[simp] theorem endJob_seq : s.endJob.seq = .none := rfl
@[simp] theorem endJob_regs : s.endJob.regs = s.regs := rfl
@[simp] theorem endJob_win : s.endJob.win = s.win := rfl
@[simp] theorem endJob_t : s.endJob.t = s.t := rfl
@[simp] theorem endJob_pm : s.endJob.pm = s.pm := rfl
@[simp] theorem endJob_qm : s.endJob.qm = s.qm := rfl
@[simp] theorem endJob_r : s.endJob.r = s.r := rfl
@[simp] theorem endJob_pending : s.endJob.pending = s.pending := rfl
@[simp] theorem endJob_reads : s.endJob.reads = s.reads := rfl
@[simp] theorem endJob_draws : s.endJob.draws = s.draws := rfl
@[simp] theorem endJob_bufDraw : s.endJob.bufDraw = s.bufDraw := rfl
@[simp] theorem endJob_engine : s.endJob.engine = s.engine := rfl

/-! ### endFinalize -/

@[simp] theorem endFinalize_phase : s.endFinalize.phase = .final := rfl
@[simp] theorem endFinalize_alg : s.endFinalize.alg = s.alg := rfl
@[simp] theorem endFinalize_h : s.endFinalize.h = s.h := rfl
@[simp] theorem endFinalize_g : s.endFinalize.g = s.g := rfl
@[simp] theorem endFinalize_buf : s.endFinalize.buf = s.buf := rfl
@[simp] theorem endFinalize_bufLen : s.endFinalize.bufLen = s.bufLen := rfl
@[simp] theorem endFinalize_total : s.endFinalize.total = s.total := rfl
@[simp] theorem endFinalize_blocks : s.endFinalize.blocks = s.blocks := rfl
@[simp] theorem endFinalize_addRemain : s.endFinalize.addRemain = s.addRemain := rfl
@[simp] theorem endFinalize_doutRemain : s.endFinalize.doutRemain = 0 := rfl
@[simp] theorem endFinalize_fcode : s.endFinalize.fcode = s.fcode := rfl
@[simp] theorem endFinalize_busy : s.endFinalize.busy = false := rfl
@[simp] theorem endFinalize_seq : s.endFinalize.seq = .none := rfl
@[simp] theorem endFinalize_regs : s.endFinalize.regs = s.regs := rfl
@[simp] theorem endFinalize_win : s.endFinalize.win = s.win := rfl
@[simp] theorem endFinalize_t : s.endFinalize.t = s.t := rfl
@[simp] theorem endFinalize_pm : s.endFinalize.pm = s.pm := rfl
@[simp] theorem endFinalize_qm : s.endFinalize.qm = s.qm := rfl
@[simp] theorem endFinalize_r : s.endFinalize.r = s.r := rfl
@[simp] theorem endFinalize_pending : s.endFinalize.pending = s.pending := rfl
@[simp] theorem endFinalize_reads : s.endFinalize.reads = s.reads := rfl
@[simp] theorem endFinalize_draws : s.endFinalize.draws = s.draws := rfl
@[simp] theorem endFinalize_bufDraw : s.endFinalize.bufDraw = s.bufDraw := rfl
@[simp] theorem endFinalize_engine : s.endFinalize.engine = s.engine := rfl

/-! ### issue -/

@[simp] theorem issue_phase (a : Access) : (s.issue a).phase = s.phase := rfl
@[simp] theorem issue_alg (a : Access) : (s.issue a).alg = s.alg := rfl
@[simp] theorem issue_h (a : Access) : (s.issue a).h = s.h := rfl
@[simp] theorem issue_g (a : Access) : (s.issue a).g = s.g := rfl
@[simp] theorem issue_buf (a : Access) : (s.issue a).buf = s.buf := rfl
@[simp] theorem issue_bufLen (a : Access) : (s.issue a).bufLen = s.bufLen := rfl
@[simp] theorem issue_total (a : Access) : (s.issue a).total = s.total := rfl
@[simp] theorem issue_blocks (a : Access) : (s.issue a).blocks = s.blocks := rfl
@[simp] theorem issue_addRemain (a : Access) : (s.issue a).addRemain = s.addRemain := rfl
@[simp] theorem issue_doutRemain (a : Access) : (s.issue a).doutRemain = s.doutRemain := rfl
@[simp] theorem issue_fcode (a : Access) : (s.issue a).fcode = s.fcode := rfl
@[simp] theorem issue_busy (a : Access) : (s.issue a).busy = s.busy := rfl
@[simp] theorem issue_seq (a : Access) : (s.issue a).seq = s.seq := rfl
@[simp] theorem issue_regs (a : Access) : (s.issue a).regs = s.regs := rfl
@[simp] theorem issue_win (a : Access) : (s.issue a).win = s.win := rfl
@[simp] theorem issue_t (a : Access) : (s.issue a).t = s.t := rfl
@[simp] theorem issue_pm (a : Access) : (s.issue a).pm = s.pm := rfl
@[simp] theorem issue_qm (a : Access) : (s.issue a).qm = s.qm := rfl
@[simp] theorem issue_r (a : Access) : (s.issue a).r = s.r := rfl
@[simp] theorem issue_pending (a : Access) : (s.issue a).pending = .access a :: s.pending := rfl
@[simp] theorem issue_reads (a : Access) : (s.issue a).reads = s.reads := rfl
@[simp] theorem issue_draws (a : Access) : (s.issue a).draws = s.draws := rfl
@[simp] theorem issue_bufDraw (a : Access) : (s.issue a).bufDraw = s.bufDraw := rfl
@[simp] theorem issue_engine (a : Access) : (s.issue a).engine = s.engine := rfl

/-! ### raise -/

theorem raise_of_fault (code : FCode) (h : s.phase = .fault) : s.raise code = s := if_pos h

/-- Fault entry outside FAULT (60_exceptions.md R262). -/
theorem raise_of_ne (code : FCode) (h : s.phase ≠ .fault) :
    s.raise code = { s with fcode := code, phase := .fault } := if_neg h

@[simp] theorem raise_phase (code : FCode) : (s.raise code).phase = .fault := by
  unfold State.raise; split <;> simp_all

@[simp] theorem raise_alg (code : FCode) : (s.raise code).alg = s.alg := by unfold State.raise; split <;> rfl
@[simp] theorem raise_h (code : FCode) : (s.raise code).h = s.h := by unfold State.raise; split <;> rfl
@[simp] theorem raise_g (code : FCode) : (s.raise code).g = s.g := by unfold State.raise; split <;> rfl
@[simp] theorem raise_buf (code : FCode) : (s.raise code).buf = s.buf := by unfold State.raise; split <;> rfl
@[simp] theorem raise_bufLen (code : FCode) : (s.raise code).bufLen = s.bufLen := by unfold State.raise; split <;> rfl
@[simp] theorem raise_total (code : FCode) : (s.raise code).total = s.total := by unfold State.raise; split <;> rfl
@[simp] theorem raise_blocks (code : FCode) : (s.raise code).blocks = s.blocks := by unfold State.raise; split <;> rfl
@[simp] theorem raise_addRemain (code : FCode) : (s.raise code).addRemain = s.addRemain := by unfold State.raise; split <;> rfl
@[simp] theorem raise_doutRemain (code : FCode) : (s.raise code).doutRemain = s.doutRemain := by unfold State.raise; split <;> rfl
@[simp] theorem raise_busy (code : FCode) : (s.raise code).busy = s.busy := by unfold State.raise; split <;> rfl
@[simp] theorem raise_seq (code : FCode) : (s.raise code).seq = s.seq := by unfold State.raise; split <;> rfl
@[simp] theorem raise_regs (code : FCode) : (s.raise code).regs = s.regs := by unfold State.raise; split <;> rfl
@[simp] theorem raise_win (code : FCode) : (s.raise code).win = s.win := by unfold State.raise; split <;> rfl
@[simp] theorem raise_t (code : FCode) : (s.raise code).t = s.t := by unfold State.raise; split <;> rfl
@[simp] theorem raise_pm (code : FCode) : (s.raise code).pm = s.pm := by unfold State.raise; split <;> rfl
@[simp] theorem raise_qm (code : FCode) : (s.raise code).qm = s.qm := by unfold State.raise; split <;> rfl
@[simp] theorem raise_r (code : FCode) : (s.raise code).r = s.r := by unfold State.raise; split <;> rfl
@[simp] theorem raise_pending (code : FCode) : (s.raise code).pending = s.pending := by unfold State.raise; split <;> rfl
@[simp] theorem raise_reads (code : FCode) : (s.raise code).reads = s.reads := by unfold State.raise; split <;> rfl
@[simp] theorem raise_draws (code : FCode) : (s.raise code).draws = s.draws := by unfold State.raise; split <;> rfl
@[simp] theorem raise_bufDraw (code : FCode) : (s.raise code).bufDraw = s.bufDraw := by unfold State.raise; split <;> rfl
@[simp] theorem raise_engine (code : FCode) : (s.raise code).engine = s.engine := by unfold State.raise; split <;> rfl

end Sys2Proof.Machine
end

