-- ==== Sys2Proof/Laws/Ops.lean ====
section
/-! SUPPORT. The laws of BUF's memory and what each shared operation can do. -/

namespace Sys2Proof.Machine

/-! ### Memory -/

theorem read_write_same (m : Memory) (a : Nat) (v : Byte) : (m.write a v).read a = some v := by
  induction m with
  | nil => simp [Memory.write, Memory.read]
  | cons x rest ih =>
    unfold Memory.write
    split
    · simp [Memory.read]
    · split
      · simp [Memory.read]
      · rename_i h
        simp [Memory.read, Ne.symm h, ih]

theorem read_write_other (m : Memory) {a b : Nat} (v : Byte) (hab : a ≠ b) :
    (m.write a v).read b = m.read b := by
  induction m with
  | nil => simp [Memory.write, Memory.read, hab]
  | cons x rest ih =>
    unfold Memory.write
    split
    · simp [Memory.read, hab]
    · split
      · rename_i h
        simp [Memory.read, hab, ← h]
      · simp [Memory.read, ih]

theorem mem_write {m : Memory} {a : Nat} {v : Byte} {x : Host.Cell} (h : x ∈ m.write a v) :
    x = (a, v) ∨ x ∈ m := by
  induction m with
  | nil => simpa [Memory.write] using h
  | cons y rest ih =>
    unfold Memory.write at h
    split at h
    · simpa using h
    · split at h
      · rcases List.mem_cons.mp h with h | h
        · exact .inl h
        · exact .inr (List.mem_cons_of_mem _ h)
      · rcases List.mem_cons.mp h with h | h
        · exact .inr (h ▸ List.mem_cons_self)
        · rcases ih h with h | h
          · exact .inl h
          · exact .inr (List.mem_cons_of_mem _ h)

/-- The canonical form, said of the first cell and the rest. -/
theorem wf_cons (x : Host.Cell) (m : Memory) :
    Memory.wf (x :: m) = true ↔ (∀ y ∈ m, x.1 < y.1) ∧ m.wf = true := by
  induction m generalizing x with
  | nil => simp [Memory.wf]
  | cons y rest ih =>
    simp only [Memory.wf, Bool.and_eq_true, decide_eq_true_eq, List.mem_cons, forall_eq_or_imp]
    constructor
    · rintro ⟨hxy, hw⟩
      exact ⟨⟨hxy, fun z hz => lt_trans hxy (((ih y).mp hw).1 z hz)⟩, hw⟩
    · rintro ⟨⟨hxy, -⟩, hw⟩
      exact ⟨hxy, hw⟩

/-- A write keeps the canonical form. -/
theorem write_wf {m : Memory} (a : Nat) (v : Byte) (h : m.wf = true) : (m.write a v).wf = true := by
  induction m with
  | nil => rfl
  | cons x rest ih =>
    obtain ⟨hlt, hw⟩ := (wf_cons x rest).mp h
    unfold Memory.write
    split
    · rename_i hax
      refine (wf_cons _ _).mpr ⟨fun y hy => ?_, h⟩
      rcases List.mem_cons.mp hy with rfl | hy
      · exact hax
      · exact lt_trans hax (hlt y hy)
    · split
      · rename_i hax
        exact (wf_cons _ _).mpr ⟨fun y hy => hax ▸ hlt y hy, hw⟩
      · rename_i h1 h2
        refine (wf_cons _ _).mpr ⟨fun y hy => ?_, ih hw⟩
        rcases mem_write hy with rfl | hy
        · exact lt_of_le_of_ne (not_lt.mp h1) (Ne.symm h2)
        · exact hlt y hy

/-- BUF after reset is in its canonical form. -/
theorem reset_buf_wf : State.reset.buf.wf = true := rfl

/-! ### The buffer -/

/-- A byte stored since reset is what BUF holds. -/
theorem bufByte_of_read {s : State} {a : Nat} {b : Byte} (h : s.buf.read a = some b) :
    s.bufByte a = b := by
  simp [State.bufByte, h]

/-- A byte nothing has stored since reset is the free value of that reset. -/
theorem bufByte_of_none {s : State} {a : Nat} (h : s.buf.read a = none) :
    s.bufByte a = Config.freeByte s.engine s.bufDraw a := by
  simp [State.bufByte, h]

/-- BUF[a] depends on what was stored there and on which free values are in force, alone. -/
theorem bufByte_congr {s t : State} {a : Nat} (h : t.buf.read a = s.buf.read a)
    (he : t.engine = s.engine) (hd : t.bufDraw = s.bufDraw) : t.bufByte a = s.bufByte a := by
  simp [State.bufByte, h, he, hd]

/-- BufRead answers where every byte is specified, with the bytes stored. -/
theorem readBlock_some {s : State} {n : Nat} (h : ∀ a, a < n → (s.buf.read a).isSome = true) :
    ∃ blk, s.readBlock n = some blk ∧ ∀ i : Fin n, s.buf.read i.val = some blk[i] := by
  have h' : ∀ i : Fin n, (s.buf.read i.val).isSome = true := fun i => h i.val i.isLt
  refine ⟨Vector.ofFn fun i => s.bufByte i.val, if_pos h', fun i => ?_⟩
  obtain ⟨b, hb⟩ := Option.isSome_iff_exists.1 (h' i)
  simp [hb, bufByte_of_read hb]

/-- BufRead has no answer where a byte is unspecified. -/
theorem readBlock_none {s : State} {n a : Nat} (ha : a < n) (h : s.buf.read a = none) :
    s.readBlock n = none := by
  have : ¬ ∀ i : Fin n, (s.buf.read i.val).isSome = true := fun hall => by simpa [h] using hall ⟨a, ha⟩
  exact if_neg this

/-- A byte goes into BUF in one way. -/
theorem bufPush_some {b : Byte} {s s' : State} (h : s.bufPush b = some s') :
    s.bufLen.toNat < bufBytes
      ∧ s' = { s with buf := s.buf.write s.bufLen.toNat b, bufLen := s.bufLen + 1 } := by
  unfold State.bufPush at h
  split at h
  · exact ⟨‹_›, by simpa using h.symm⟩
  · cases h

theorem bufPush_of_lt (b : Byte) {s : State} (h : s.bufLen.toNat < bufBytes) :
    s.bufPush b
      = some { s with buf := s.buf.write s.bufLen.toNat b, bufLen := s.bufLen + 1 } := if_pos h

/-- Filling a block changes BUF and BUF_LEN only, and keeps the canonical form. -/
theorem fillBlock_some {l : List Byte} {s t : State} {rest : List Byte}
    (h : fillBlock l s = some (t, rest)) :
    t = { s with buf := t.buf, bufLen := t.bufLen } ∧ (s.buf.wf = true → t.buf.wf = true)
      ∧ (t.bufLen.toNat = blockBytes t.alg ∨ rest = []) := by
  induction l generalizing s with
  | nil =>
    obtain ⟨rfl, rfl⟩ : s = t ∧ [] = rest := by simpa [fillBlock] using h
    exact ⟨rfl, id, .inr rfl⟩
  | cons x l ih =>
    unfold fillBlock at h
    split at h
    · cases h
    · rename_i s' hp
      obtain ⟨-, rfl⟩ := bufPush_some hp
      split at h
      · rename_i hfull
        obtain ⟨rfl, rfl⟩ := by simpa using h
        exact ⟨rfl, write_wf _ _, .inl hfull⟩
      · obtain ⟨h1, h2, h3⟩ := ih h
        exact ⟨h1, fun hw => h2 (write_wf _ _ hw), h3⟩

end Sys2Proof.Machine
end

