-- ==== Sys2Proof/Laws/PerInstr.lean ====
section
/-! SUPPORT. One statement about every instruction as syntax: it encodes to an access the spec defines
(20_memory.md R77). -/

namespace Sys2Proof.Laws.EncodeDefined

/-- The instruction's access is a 32-bit one at one of the four offsets. -/
def Statement (i : Instr) : Prop := (encode i).defined = true

theorem init (alg : Alg) : Statement (.init alg) := rfl

theorem add (len : BitVec 24) : Statement (.add len) := rfl

theorem finalize : Statement .finalize := rfl

theorem getDigest : Statement .getDigest := rfl

theorem writeDin (b : Byte) : Statement (.writeDin b) := rfl

theorem readStatus : Statement .readStatus := rfl

theorem readDout : Statement .readDout := rfl

theorem readWo (reg : Reg) : Statement (.readWo reg) := by cases reg <;> rfl

theorem writeRo (reg : Reg) : Statement (.writeRo reg) := by cases reg <;> rfl

end Sys2Proof.Laws.EncodeDefined
end

