-- ==== Sys2Proof/Laws/Platform.lean ====
section
/-! SUPPORT. What the host's access does at each engine of a platform, said once. -/

namespace Sys2Proof.Machine

/-- An access with a byte in the block reaches it. -/
theorem offsetIn_of_reaches {base addr n : Nat} (h : base < addr + n) (h' : addr < base + 16) :
    offsetIn base addr n = some ((addr : Int) - (base : Int)) := if_pos ⟨h, h'⟩

/-- An access that ends before the block or starts after it does not reach it. -/
theorem offsetIn_of_apart {base addr n : Nat} (h : addr + n ≤ base ∨ base + 16 ≤ addr) :
    offsetIn base addr n = none := if_neg (by omega)

/-- The access is appended at the engines it reaches and leaves the others alone. -/
theorem getElem?_hostIssueAt (base : Nat → Nat) (dir : Dir) (width : Width) (addr : Nat) (data : Word)
    (p : Platform) (k : Nat) :
    (hostIssueAt base dir width addr data p)[k]? = p[k]?.map fun s =>
      match offsetIn (base k) addr (widthBytes width) with
      | some offset => { s with pending := s.pending ++ [.access ⟨dir, width, offset, data⟩] }
      | none => s := List.getElem?_mapIdx

/-- The host's access adds no engine and removes none. -/
theorem length_hostIssueAt (base : Nat → Nat) (dir : Dir) (width : Width) (addr : Nat) (data : Word)
    (p : Platform) : (hostIssueAt base dir width addr data p).length = p.length := List.length_mapIdx

end Sys2Proof.Machine
end

