-- ==== Sys2Proof/Laws/Steps.lean ====
section
/-! SUPPORT. Inversion lemmas: what a command, an access, a step of a job and a step of the machine can
do, each said once. -/

namespace Sys2Proof.Machine

/-- A command is held, ignored, performed, or faults SEQUENCE (40_block_engine.md R110). -/
theorem command_cases (ins : Instr) (perform : State → State) (s : State) :
    (s.busy = true ∧ command ins perform s = s.engineStep)
      ∨ (s.busy = false ∧ s.phase = .fault ∧ command ins perform s = .next s.retire)
      ∨ (s.busy = false ∧ s.phase ≠ .fault ∧ legal ins s.phase s.addRemain = true
        ∧ command ins perform s = .next (perform s.retire))
      ∨ (s.busy = false ∧ s.phase ≠ .fault ∧ legal ins s.phase s.addRemain = false
        ∧ command ins perform s = .next (s.retire.raise .sequence)) := by
  unfold command
  by_cases hb : s.busy = true
  · exact .inl ⟨hb, if_pos hb⟩
  · have hb' : s.busy = false := by simpa using hb
    by_cases hp : s.phase = .fault
    · exact .inr (.inl ⟨hb', hp, by simp [hb', hp]⟩)
    · cases hl : legal ins s.phase s.addRemain
      · exact .inr (.inr (.inr ⟨hb', hp, rfl, by simp [hb', hp]⟩))
      · exact .inr (.inr (.inl ⟨hb', hp, rfl, by simp [hb', hp]⟩))

/-- An illegal command word is held, ignored, or faults ILLEGAL_CMD (30_encoding.md R93). -/
theorem illegalCommand_cases (s : State) :
    (s.busy = true ∧ illegalCommand s = s.engineStep)
      ∨ (s.busy = false ∧ s.phase = .fault ∧ illegalCommand s = .next s.retire)
      ∨ (s.busy = false ∧ s.phase ≠ .fault ∧ illegalCommand s = .next (s.retire.raise .illegalCmd)) := by
  unfold illegalCommand
  by_cases hb : s.busy = true
  · exact .inl ⟨hb, if_pos hb⟩
  · have hb' : s.busy = false := by simpa using hb
    by_cases hp : s.phase = .fault
    · exact .inr (.inl ⟨hb', hp, by simp [hb', hp]⟩)
    · exact .inr (.inr ⟨hb', hp, by simp [hb', hp]⟩)

/-- WRITE_DIN is held, ignored, faults, stores and counts its byte, or meets the end of BUF (R120). -/
theorem execWriteDin_cases (b : Byte) (s : State) :
    (s.busy = true ∧ execWriteDin b s = s.engineStep)
      ∨ (s.busy = false ∧ s.phase = .fault ∧ execWriteDin b s = .next s.retire)
      ∨ (s.busy = false ∧ s.phase ≠ .fault ∧ s.addRemain = 0
        ∧ execWriteDin b s = .next (s.retire.raise .dinUnexpected))
      ∨ (s.busy = false ∧ s.phase ≠ .fault ∧ s.addRemain ≠ 0 ∧ s.bufLen.toNat < bufBytes
        ∧ execWriteDin b s = .next (countByte
          { s.retire with buf := s.buf.write s.bufLen.toNat b, bufLen := s.bufLen + 1 }))
      ∨ (s.busy = false ∧ s.phase ≠ .fault ∧ s.addRemain ≠ 0 ∧ bufBytes ≤ s.bufLen.toNat
        ∧ execWriteDin b s = .fault .bufferIndex) := by
  unfold execWriteDin
  by_cases hb : s.busy = true
  · exact .inl ⟨hb, if_pos hb⟩
  have hb' : s.busy = false := by simpa using hb
  by_cases hp : s.phase = .fault
  · exact .inr (.inl ⟨hb', hp, by simp [hb', hp]⟩)
  by_cases ha : s.addRemain = 0
  · exact .inr (.inr (.inl ⟨hb', hp, ha, by simp [hb', hp, ha]⟩))
  by_cases hl : s.bufLen.toNat < bufBytes
  · refine .inr (.inr (.inr (.inl ⟨hb', hp, ha, hl, ?_⟩)))
    rw [if_neg hb, if_neg hp, if_neg ha, bufPush_of_lt b (s := s.retire) hl]
    rfl
  · refine .inr (.inr (.inr (.inr ⟨hb', hp, ha, not_lt.mp hl, ?_⟩)))
    rw [if_neg hb, if_neg hp, if_neg ha, show s.retire.bufPush b = none from if_neg hl]

/-- READ_DOUT is held, returns 0, faults and returns 0, returns a digest byte, or has none (R116). -/
theorem execReadDout_cases (s : State) :
    (s.busy = true ∧ execReadDout s = s.engineStep)
      ∨ (s.busy = false ∧ s.phase = .fault ∧ execReadDout s = .next (s.retire.respond 0))
      ∨ (s.busy = false ∧ s.phase ≠ .fault ∧ s.doutRemain = 0
        ∧ execReadDout s = .next ((s.retire.respond 0).raise .doutEmpty))
      ∨ (∃ b, s.busy = false ∧ s.phase ≠ .fault ∧ s.doutRemain ≠ 0 ∧ s.nextDigestByte = some b
        ∧ execReadDout s
          = .next { s.retire.respond (zext32 b) with doutRemain := s.doutRemain - 1 })
      ∨ (s.busy = false ∧ s.phase ≠ .fault ∧ s.doutRemain ≠ 0 ∧ s.nextDigestByte = none
        ∧ execReadDout s = .fault .digestIndex) := by
  unfold execReadDout
  by_cases hb : s.busy = true
  · exact .inl ⟨hb, if_pos hb⟩
  have hb' : s.busy = false := by simpa using hb
  by_cases hp : s.phase = .fault
  · exact .inr (.inl ⟨hb', hp, by simp [hb', hp]⟩)
  by_cases ha : s.doutRemain = 0
  · exact .inr (.inr (.inl ⟨hb', hp, ha, by simp [hb', hp, ha]⟩))
  cases hn : s.nextDigestByte with
  | some b => exact .inr (.inr (.inr (.inl ⟨b, hb', hp, ha, rfl, by rw [if_neg hb, if_neg hp, if_neg ha]⟩)))
  | none => exact .inr (.inr (.inr (.inr ⟨hb', hp, ha, rfl, by rw [if_neg hb, if_neg hp, if_neg ha]⟩)))

theorem sha1LoadStep_some {s : State} {blk : Vector Byte 64} (h : s.readBlock 64 = some blk) :
    sha1LoadStep s = .running { s with win := sha1Words blk, regs := sha1Load s.h, t := 0 } := by
  unfold sha1LoadStep
  rw [h]

theorem sha1LoadStep_none {s : State} (h : s.readBlock 64 = none) :
    sha1LoadStep s = .stopped .unspecifiedRead := by
  unfold sha1LoadStep
  rw [h]

theorem sha1Step_cases (stage : Stage) (s : State) :
    (stage = .load ∧ ∃ blk, s.readBlock 64 = some blk
        ∧ sha1Step stage s = .running { s with win := sha1Words blk, regs := sha1Load s.h, t := 0 })
      ∨ (stage = .load ∧ s.readBlock 64 = none
        ∧ sha1Step stage s = .stopped .unspecifiedRead)
      ∨ (stage = .rounds ∧ s.t < 80 ∧ sha1Step stage s = .running (sha1RoundStep s))
      ∨ (stage = .rounds ∧ 80 ≤ s.t ∧ sha1Step stage s = .finished (sha1LastStep s)) := by
  cases stage with
  | load =>
    cases hb : s.readBlock 64 with
    | some blk => exact .inl ⟨rfl, blk, rfl, sha1LoadStep_some hb⟩
    | none => exact .inr (.inl ⟨rfl, rfl, sha1LoadStep_none hb⟩)
  | rounds =>
    by_cases h : s.t < 80
    · exact .inr (.inr (.inl ⟨rfl, h, if_pos h⟩))
    · exact .inr (.inr (.inr ⟨rfl, not_lt.mp h, if_neg h⟩))

theorem groestlLoadStep_some {s : State} {blk : Vector Byte 128} (h : s.readBlock 128 = some blk) :
    groestlLoadStep s = .running { s with qm := msgOf blk, pm := xorMatrix s.g (msgOf blk), r := 0 } := by
  unfold groestlLoadStep
  rw [h]

theorem groestlLoadStep_none {s : State} (h : s.readBlock 128 = none) :
    groestlLoadStep s = .stopped .unspecifiedRead := by
  unfold groestlLoadStep
  rw [h]

theorem groestlStep_cases (stage : Stage) (s : State) :
    (stage = .load ∧ ∃ blk, s.readBlock 128 = some blk
        ∧ groestlStep stage s = .running { s with qm := msgOf blk, pm := xorMatrix s.g (msgOf blk), r := 0 })
      ∨ (stage = .load ∧ s.readBlock 128 = none
        ∧ groestlStep stage s = .stopped .unspecifiedRead)
      ∨ (stage = .rounds ∧ s.r < 14 ∧ groestlStep stage s = .running (groestlRoundStep s))
      ∨ (stage = .rounds ∧ 14 ≤ s.r ∧ groestlStep stage s = .finished (groestlLastStep s)) := by
  cases stage with
  | load =>
    cases hb : s.readBlock 128 with
    | some blk => exact .inl ⟨rfl, blk, rfl, groestlLoadStep_some hb⟩
    | none => exact .inr (.inl ⟨rfl, rfl, groestlLoadStep_none hb⟩)
  | rounds =>
    by_cases h : s.r < 14
    · exact .inr (.inr (.inl ⟨rfl, h, if_pos h⟩))
    · exact .inr (.inr (.inr ⟨rfl, not_lt.mp h, if_neg h⟩))

/-- The compression's step is SHA-1's or Groestl's (R121). -/
theorem blockStep_cases (stage : Stage) (s : State) :
    (s.alg = .sha1 ∧ blockStep stage s = sha1Step stage s)
      ∨ (s.alg ≠ .sha1 ∧ blockStep stage s = groestlStep stage s) := by
  unfold blockStep
  split <;> simp_all

/-- What a datapath step of a compression leaves: the working registers or the hash state of the
selected algorithm change, and nothing else. -/
theorem blockStep_running {stage : Stage} {s t : State} (h : blockStep stage s = .running t) :
    t = { s with regs := t.regs, win := t.win, t := t.t, pm := t.pm, qm := t.qm, r := t.r } := by
  obtain ⟨-, hb⟩ | ⟨-, hb⟩ := blockStep_cases stage s
  · obtain ⟨-, _, -, e⟩ | ⟨-, -, e⟩ | ⟨-, -, e⟩ | ⟨-, -, e⟩ := sha1Step_cases stage s <;>
      rw [hb, e] at h <;> first | (injection h with h; subst h; rfl) | cases h
  · obtain ⟨-, _, -, e⟩ | ⟨-, -, e⟩ | ⟨-, -, e⟩ | ⟨-, -, e⟩ := groestlStep_cases stage s <;>
      rw [hb, e] at h <;> first | (injection h with h; subst h; rfl) | cases h

theorem blockStep_finished {stage : Stage} {s t : State} (h : blockStep stage s = .finished t) :
    (s.alg = .sha1 ∧ t = { s with h := sha1FeedForward s.h s.regs })
      ∨ (s.alg ≠ .sha1 ∧ t = { s with g := xorMatrix (xorMatrix s.g s.pm) s.qm }) := by
  obtain ⟨ha, hb⟩ | ⟨ha, hb⟩ := blockStep_cases stage s
  · obtain ⟨-, _, -, e⟩ | ⟨-, -, e⟩ | ⟨-, -, e⟩ | ⟨-, -, e⟩ := sha1Step_cases stage s <;>
      rw [hb, e] at h <;> first | injection h with h | cases h
    exact .inl ⟨ha, h.symm⟩
  · obtain ⟨-, _, -, e⟩ | ⟨-, -, e⟩ | ⟨-, -, e⟩ | ⟨-, -, e⟩ := groestlStep_cases stage s <;>
      rw [hb, e] at h <;> first | injection h with h | cases h
    exact .inr ⟨ha, h.symm⟩

/-- A datapath step stops only at a load whose block is not all there (70_reset_and_hazards.md R291). -/
theorem blockStep_stopped {stage : Stage} {s : State} {f : Fault}
    (h : blockStep stage s = .stopped f) :
    stage = .load ∧ s.readBlock (blockBytes s.alg) = none ∧ f = .unspecifiedRead := by
  obtain ⟨ha, hb⟩ | ⟨ha, hb⟩ := blockStep_cases stage s
  · obtain ⟨-, _, -, e⟩ | ⟨hs, hr, e⟩ | ⟨-, -, e⟩ | ⟨-, -, e⟩ := sha1Step_cases stage s <;>
      rw [hb, e] at h <;> first | injection h with h | cases h
    exact ⟨hs, by rw [ha]; exact hr, h.symm⟩
  · obtain ⟨-, _, -, e⟩ | ⟨hs, hr, e⟩ | ⟨-, -, e⟩ | ⟨-, -, e⟩ := groestlStep_cases stage s <;>
      rw [hb, e] at h <;> first | injection h with h | cases h
    refine ⟨hs, ?_, h.symm⟩
    cases hal : s.alg
    · exact absurd hal ha
    · exact hr
    · exact hr

/-- The padding step: BUF fills, and a full block is compressed next or the padding is used up. -/
theorem padStep_next {l : List Byte} {s t : State} (h : padStep l s = .next t) :
    ∃ u rest, fillBlock l s = some (u, rest)
      ∧ ((u.bufLen.toNat = blockBytes u.alg ∧ t = { u with seq := .finalize (.block .load rest) })
        ∨ (u.bufLen.toNat ≠ blockBytes u.alg ∧ t = afterPadding u)) := by
  unfold padStep at h
  split at h
  · cases h
  · rename_i u rest hf
    refine ⟨u, rest, hf, ?_⟩
    split at h
    · exact .inl ⟨‹_›, by simpa using h.symm⟩
    · exact .inr ⟨‹_›, by simpa using h.symm⟩

/-- One step of the sequencer goes on in one of these ways (R121, R132). -/
theorem engineStep_next {s t : State} (h : s.engineStep = .next t) :
    (s.seq = .none ∧ t = s)
      ∨ (∃ stage u, s.seq = .compress stage ∧ blockStep stage s = .running u
        ∧ t = { u with seq := .compress .rounds })
      ∨ (∃ stage u, s.seq = .compress stage ∧ blockStep stage s = .finished u
        ∧ t = u.endBlock.endJob)
      ∨ (s.seq = .finalize .pad
        ∧ padStep (padding (blockBytes s.alg) s.bufLen.toNat
            (lengthValue Config.groestlLenMode s)) s = .next t)
      ∨ (∃ stage rest u, s.seq = .finalize (.block stage rest) ∧ blockStep stage s = .running u
        ∧ t = { u with seq := .finalize (.block .rounds rest) })
      ∨ (∃ stage rest u, s.seq = .finalize (.block stage rest) ∧ blockStep stage s = .finished u
        ∧ padStep rest u.endBlock = .next t)
      ∨ (∃ stage u, s.seq = .finalize (.output stage) ∧ outputStep stage s = .running u
        ∧ t = { u with seq := .finalize (.output .rounds) })
      ∨ (∃ stage u, s.seq = .finalize (.output stage) ∧ outputStep stage s = .finished u
        ∧ t = u.endFinalize) := by
  unfold State.engineStep at h
  split at h
  · exact .inl ⟨‹_›, by simpa using h.symm⟩
  · rename_i stage hq
    unfold compressJobStep at h
    split at h
    · rename_i u hu
      exact .inr (.inl ⟨stage, u, hq, hu, by simpa using h.symm⟩)
    · rename_i u hu
      exact .inr (.inr (.inl ⟨stage, u, hq, hu, by simpa using h.symm⟩))
    · cases h
  · rename_i step hq
    unfold finalizeJobStep at h
    split at h
    · exact .inr (.inr (.inr (.inl ⟨hq, h⟩)))
    · rename_i stage rest
      split at h
      · rename_i u hu
        exact .inr (.inr (.inr (.inr (.inl ⟨stage, rest, u, hq, hu, by simpa using h.symm⟩))))
      · rename_i u hu
        exact .inr (.inr (.inr (.inr (.inr (.inl ⟨stage, rest, u, hq, hu, h⟩)))))
      · cases h
    · rename_i stage
      split at h
      · rename_i u hu
        exact .inr (.inr (.inr (.inr (.inr (.inr (.inl ⟨stage, u, hq, hu, by simpa using h.symm⟩))))))
      · rename_i u hu
        exact .inr (.inr (.inr (.inr (.inr (.inr (.inr ⟨stage, u, hq, hu, by simpa using h.symm⟩))))))
      · cases h

/-- The output transform never stops (60_exceptions.md R260). -/
theorem outputStep_cases (stage : Stage) (s : State) :
    (stage = .load ∧ outputStep stage s = .running (outputLoadStep s))
      ∨ (stage = .rounds ∧ s.r < 14 ∧ outputStep stage s = .running (outputRoundStep s))
      ∨ (stage = .rounds ∧ 14 ≤ s.r ∧ outputStep stage s = .finished (outputLastStep s)) := by
  cases stage with
  | load => exact .inl ⟨rfl, rfl⟩
  | rounds =>
    by_cases h : s.r < 14
    · exact .inr (.inl ⟨rfl, h, by rw [outputStep, if_pos h]⟩)
    · exact .inr (.inr ⟨rfl, not_lt.mp h, by rw [outputStep, if_neg h]⟩)

theorem decodeCmd_wellFormed {v : Word} {i : Instr} (h : decodeCmd v = some i) :
    i.wellFormed = true := by
  unfold decodeCmd at h
  split at h
  · cases h
  split at h
  · obtain ⟨alg, -, rfl⟩ := Option.map_eq_some_iff.mp h
    rfl
  split at h
  · exact Option.some.inj h ▸ rfl
  split at h
  · exact Option.some.inj h ▸ rfl
  split at h
  · exact Option.some.inj h ▸ rfl
  · cases h

/-- The decoder never answers an ill-formed instruction. -/
theorem decode_wellFormed {a : Access} {i : Instr} (h : decode a = .instr i) :
    i.wellFormed = true := by
  unfold decode at h
  split at h
  · cases h
  split at h
  · cases h
  rename_i reg _
  split at h
  · cases reg <;> simp only [decodeWrite] at h
    · split at h
      · rename_i j hj
        exact Decoded.instr.inj h ▸ decodeCmd_wellFormed hj
      · cases h
    all_goals exact Decoded.instr.inj h ▸ rfl
  · cases reg <;> exact Decoded.instr.inj h ▸ rfl

/-- A block is not empty (00_scope.md R3). -/
theorem blockBytes_pos (alg : Alg) : 0 < blockBytes alg := by cases alg <;> decide

/-- A block fits BUF (00_scope.md R3, R5). -/
theorem blockBytes_le (alg : Alg) : blockBytes alg ≤ bufBytes := by cases alg <;> decide

/-- Enough padding bytes fill the block: they stand from BUF_LEN on, in order, the ones not used come back,
and no other byte of BUF changes (40_block_engine.md R132). -/
theorem fillBlock_fills (l : List Byte) (s : State) (hlt : s.bufLen.toNat < blockBytes s.alg)
    (hl : blockBytes s.alg - s.bufLen.toNat ≤ l.length) :
    ∃ t, fillBlock l s = some (t, l.drop (blockBytes s.alg - s.bufLen.toNat))
      ∧ t = { s with buf := t.buf, bufLen := t.bufLen }
      ∧ t.bufLen.toNat = blockBytes s.alg
      ∧ (∀ j, j < blockBytes s.alg - s.bufLen.toNat → t.buf.read (s.bufLen.toNat + j) = l[j]?)
      ∧ (∀ a, a < s.bufLen.toNat ∨ blockBytes s.alg ≤ a → t.buf.read a = s.buf.read a)
      ∧ (∀ x ∈ t.buf, x ∈ s.buf ∨ x.1 < blockBytes s.alg) := by
  induction l generalizing s with
  | nil => simp only [List.length_nil] at hl; omega
  | cons x l ih =>
    have hle := blockBytes_le s.alg
    have h128 : bufBytes = 128 := rfl
    have hadd : (s.bufLen + 1).toNat = s.bufLen.toNat + 1 := by
      rw [BitVec.toNat_add]
      exact Nat.mod_eq_of_lt (by simp; omega)
    let s' : State := { s with buf := s.buf.write s.bufLen.toNat x, bufLen := s.bufLen + 1 }
    have hp : s.bufPush x = some s' := bufPush_of_lt x (by omega)
    by_cases hfull : s.bufLen.toNat + 1 = blockBytes s.alg
    · refine ⟨s', ?_, rfl, by show (s.bufLen + 1).toNat = _; omega, ?_, ?_, ?_⟩
      · have h1 : blockBytes s.alg - s.bufLen.toNat = 1 := by omega
        unfold fillBlock
        simp only [hp]
        rw [if_pos (show (s.bufLen + 1).toNat = blockBytes s.alg by omega), h1]
        rfl
      · intro j hj
        obtain rfl : j = 0 := by omega
        exact read_write_same _ _ _
      · intro a ha
        exact read_write_other _ _ (by omega)
      · intro y hy
        rcases mem_write hy with rfl | hy
        · exact .inr hlt
        · exact .inl hy
    · have hb' : s'.bufLen.toNat = s.bufLen.toNat + 1 := hadd
      have hlen : (x :: l).length = l.length + 1 := List.length_cons
      obtain ⟨t, hf, ht, htl, hr, ho, hm⟩ := ih s' (by show s'.bufLen.toNat < blockBytes s.alg; omega)
        (by show blockBytes s.alg - s'.bufLen.toNat ≤ l.length; omega)
      have hn : blockBytes s'.alg - s'.bufLen.toNat = blockBytes s.alg - s.bufLen.toNat - 1 := by
        show blockBytes s.alg - s'.bufLen.toNat = _
        omega
      refine ⟨t, ?_, ht, htl, ?_, ?_, ?_⟩
      · unfold fillBlock
        simp only [hp]
        rw [if_neg (show ¬ (s.bufLen + 1).toNat = blockBytes s.alg by omega), hf, hn]
        rw [show blockBytes s.alg - s.bufLen.toNat
          = (blockBytes s.alg - s.bufLen.toNat - 1) + 1 by omega, List.drop_succ_cons]
        simp
      · intro j hj
        cases j with
        | zero =>
          have := ho s.bufLen.toNat (.inl (by omega))
          simpa [s', read_write_same] using this
        | succ j =>
          have := hr j (by show j < blockBytes s.alg - s'.bufLen.toNat; omega)
          rw [hb'] at this
          rw [show s.bufLen.toNat + (j + 1) = s.bufLen.toNat + 1 + j by omega, this]
          simp
      · intro a ha
        rw [ho a (by rcases ha with h | h; exact .inl (by omega); exact .inr h)]
        exact read_write_other _ _ (by omega)
      · intro y hy
        rcases hm y hy with hy | hy
        · rcases mem_write hy with rfl | hy
          · exact .inr hlt
          · exact .inl hy
        · exact .inr hy

end Sys2Proof.Machine
end

