-- ==== Sys2Proof/Tests/Slice0.lean ====
section
/-! SUPPORT. Tests of the model, each expected value from spec/ (95_test_vectors.md where an id is named), and
the witnesses of the statements' hypotheses. -/

namespace Sys2Proof.Tests

open Sys2Proof Sys2Proof.Machine

/-! ### Small states -/

/-- The next state of an outcome. -/
def after : Result → Option State
  | .next t => some t
  | .fault _ => none
  | .refused _ => none

/-- In ABSORB with an empty buffer and nothing counted. -/
def absorbing (alg : Alg) : State := { State.reset with phase := .absorb, alg := alg }

/-- n zero bytes from an address on. -/
def zerosFrom : Nat → Nat → Memory
  | _, 0 => []
  | a, n + 1 => (a, 0) :: zerosFrom (a + 1) n

/-- n zero bytes of BUF. -/
def zeros (n : Nat) : Memory := zerosFrom 0 n

/-- In ABSORB with n bytes in the buffer. -/
def holding (alg : Alg) (n : Nat) : State :=
  { absorbing alg with buf := zeros n, bufLen := BitVec.ofNat 8 n, total := BitVec.ofNat 64 n }

/-- In ABSORB with n bytes in the buffer and k owed. -/
def owing (alg : Alg) (n k : Nat) : State :=
  { holding alg n with addRemain := BitVec.ofNat 24 k }

/-- A COMPRESS job at a stage, on a block of zeros. -/
def compressing (alg : Alg) (stage : Stage) : State :=
  { holding alg (blockBytes alg) with busy := true, seq := .compress stage }

/-- A FINALIZE job at its start, with n bytes in the buffer. -/
def finalizing (alg : Alg) (n : Nat) : State :=
  { holding alg n with busy := true, seq := .finalize .pad }

/-- In FINAL with n digest bytes armed. -/
def final (alg : Alg) (n : Nat) : State :=
  { State.reset with phase := .final, alg := alg, doutRemain := BitVec.ofNat 7 n }

/-- In FAULT after a SEQUENCE fault in ABSORB. -/
def faulted : State := { absorbing .sha1 with phase := .fault, fcode := .sequence }

/-- A write of v to CMD. -/
def cmd (v : Word) : Access := ⟨.write, .bits32, 0x0, v⟩

/-! ### Well-formedness: what each check refuses -/

theorem test_readWo_status_illFormed : (Instr.readWo .status).wellFormed = false := by decide

theorem test_readWo_dout_illFormed : (Instr.readWo .dout).wellFormed = false := by decide

theorem test_writeRo_cmd_illFormed : (Instr.writeRo .cmd).wellFormed = false := by decide

theorem test_writeRo_din_illFormed : (Instr.writeRo .din).wellFormed = false := by decide

theorem test_byte_access_undefined :
    (Access.mk .read .bits8 0x4 0).defined = false ∧ (Access.mk .read .bits64 0x8 0).defined = false := by
  decide

theorem test_offset_undefined :
    (Access.mk .write .bits32 0x10 0).defined = false ∧ (Access.mk .read .bits32 0x2 0).defined = false := by
  decide

/-! ### Decoding: words put together from the fields of 30_encoding.md R91 and R92 -/

/-- OPC 1, ALG 2, RSV 0, LEN 0. -/
theorem test_decode_init : decode (cmd 0b00000000_00000000_00000000_00_10_0001) = .instr (.init .groestl384) := by
  decide

/-- OPC 2, ALG 0, RSV 0, LEN 0x800001: the field's two end bits. -/
theorem test_decode_add : decode (cmd 0b10000000_00000000_00000001_00_00_0010) = .instr (.add 0x800001) := by
  decide

theorem test_decode_finalize : decode (cmd 0b00000000_00000000_00000000_00_00_0011) = .instr .finalize := by decide

theorem test_decode_getDigest : decode (cmd 0b00000000_00000000_00000000_00_00_0100) = .instr .getDigest := by decide

/-- DIN's bits [31:8] are ignored (10_state.md R45). -/
theorem test_decode_writeDin : decode ⟨.write, .bits32, 0x8, 0xFFFFFF81⟩ = .instr (.writeDin 0x81) := by decide

theorem test_decode_readStatus : decode ⟨.read, .bits32, 0x4, 0⟩ = .instr .readStatus := by decide

theorem test_decode_readDout : decode ⟨.read, .bits32, 0xC, 0⟩ = .instr .readDout := by decide

theorem test_decode_readWo :
    decode ⟨.read, .bits32, 0x0, 0⟩ = .instr (.readWo .cmd)
      ∧ decode ⟨.read, .bits32, 0x8, 0⟩ = .instr (.readWo .din) := by decide

theorem test_decode_writeRo :
    decode ⟨.write, .bits32, 0x4, 7⟩ = .instr (.writeRo .status)
      ∧ decode ⟨.write, .bits32, 0xC, 7⟩ = .instr (.writeRo .dout) := by decide

/-- The illegal command words of 95_test_vectors.md Part 5, and one for each clause of R93. -/
theorem test_decode_illegal :
    [0x00, 0x05, 0x0F, 0x31, 0x101, 0x103, 0x12, 0x42, 0x82, 0x104, 0x14, 0x13].all
      (fun v => decode (cmd v) == .illegal) = true := by decide

/-- A 32-bit number is a command word; bits 36..32 give a BUS row (log entry 13). -/
theorem test_table_words :
    decodeTableWord 32 0x21 = some (.init .groestl384) ∧ decodeTableWord 32 0x31 = none
      ∧ decodeTableWord 40 0x8_00000061 = some (.writeDin 0x61)
      ∧ decodeTableWord 40 0x14_00000000 = some .readStatus := by decide

/-- The placed word is what the next step runs. -/
theorem test_withFetchWord : (State.reset.withFetchWord 32 0x502).fetch = .instr (.add 5) := by decide

/-- The core is this machine, and STATUS is 0 after reset (70_reset_and_hazards.md R290). -/
theorem test_core_reset : core.reset = State.reset ∧ State.reset.status = 0 := ⟨rfl, by decide⟩

/-! ### Commands: 95_test_vectors.md Part 5 -/

/-- CMD-INIT: STATUS 0x022, with IV384 in G. -/
theorem test_init_groestl384 :
    (after (exec (.init .groestl384) State.reset)).map (fun t => (t.status, t.g[6][15], t.g[7][15], t.g[7][14]))
      = some (0x022, 0x01, 0x80, 0x00) := by decide

/-- F-INIT-OWED: INIT with a byte owed faults SEQUENCE and keeps ADD_REMAIN. -/
theorem test_init_owed :
    (after (exec (.init .groestl512) (owing .groestl512 1 1))).map State.status = some 0x256 := by decide

/-- F-OVF-OK and CMD-ADD: TOTAL + 5 = 2^61 − 1 is legal. -/
theorem test_add_at_bound :
    (after (exec (.add 5) { absorbing .sha1 with total := 0x1FFFFFFFFFFFFFFA })).map State.status
      = some 0x042 := by decide

/-- F-OVF: TOTAL + 6 = 2^61 faults LENGTH_OVERFLOW. -/
theorem test_add_overflow :
    (after (exec (.add 6) { absorbing .sha1 with total := 0x1FFFFFFFFFFFFFFA })).map State.status
      = some 0x506 := by decide

/-- P1, row 6: STATUS is 0x003 while the job runs. -/
theorem test_finalize_starts : (after (exec .finalize (absorbing .sha1))).map State.status = some 0x003 := by decide

/-- F-FIN2: a second FINALIZE faults SEQUENCE. -/
theorem test_finalize_twice : (after (exec .finalize (final .groestl384 0))).map State.status = some 0x226 := by decide

/-- P1, row 7, and the restart of CMD-GET2: 20 bytes again, with 18 unread. -/
theorem test_getDigest_restarts :
    (after (exec .getDigest (final .sha1 18))).map (fun t => (t.status, t.doutRemain)) = some (0x084, 20) := by decide

/-- F-GET-ABSORB. -/
theorem test_getDigest_absorb : (after (exec .getDigest (absorbing .sha1))).map State.status = some 0x206 := by decide

/-! ### Register accesses -/

/-- P3, step 4: the 64th byte starts COMPRESS, STATUS 0x003, TOTAL 64. -/
theorem test_writeDin_fills_block :
    (after (exec (.writeDin 0x61) (owing .sha1 63 1))).map (fun t => (t.status, t.total, t.seq, t.buf.read 63))
      = some (0x003, 64, .compress .load, some 0x61) := by decide +kernel

/-- F-DIN-EXTRA: a byte beyond the ADD count faults and is not stored. -/
theorem test_writeDin_unexpected :
    (after (exec (.writeDin 2) (holding .sha1 1))).map (fun t => (t.status, t.bufLen)) = some (0x306, 1) := by decide

/-- P2: Groestl-384 with bytes owed, during a job. -/
theorem test_readStatus_busy :
    (after (exec .readStatus { compressing .groestl384 .load with addRemain := 2 })).map (·.reads)
      = some [0x063] := by decide +kernel

/-- G-DIGEST-LAB, G[r][c] = 16·r + c: with 56 bytes armed Groestl-512 gives its byte 8, 0x09; with all armed
Groestl-384 gives its byte 0, 0x0a. -/
theorem test_readDout_groestl :
    let g := matrixOf fun r c => BitVec.ofNat 8 (16 * r.val + c.val)
    (after (exec .readDout { final .groestl512 56 with g := g })).map (·.reads) = some [0x09]
      ∧ (after (exec .readDout { final .groestl384 48 with g := g })).map (·.reads) = some [0x0a] := by
  decide +kernel

/-- F-DOUT-21: with no byte left the read returns 0 and faults DOUT_EMPTY. -/
theorem test_readDout_empty :
    (after (exec .readDout (final .sha1 0))).map (fun t => (t.reads, t.status)) = some ([0], 0x406) := by decide

/-- RO-WO: the reads return 0, during a job too. -/
theorem test_readWo :
    (after (exec (.readWo .cmd) (compressing .sha1 .rounds))).map (·.reads) = some [0] := by decide +kernel

/-- RO-WO: a write to STATUS is discarded. -/
theorem test_writeRo :
    (after (exec (.writeRo .status) (absorbing .sha1))).map State.status = some 0x002 := by decide

/-- F-STICKY. -/
theorem test_fault_sticky :
    (after (exec (.init .sha1) faulted)).map State.status = some 0x206
      ∧ (after (exec .readDout faulted)).map (fun t => (t.reads, t.fcode)) = some ([0], .sequence) := by decide

/-- F-RSV-FINAL: ILLEGAL_CMD beats SEQUENCE. -/
theorem test_illegal_word :
    (after (step ((final .sha1 0).issue (cmd 0x42)))).map State.status = some 0x106 := by decide

/-- An access of another width is refused (92_eei_decisions.md D3), which leaves no next state. -/
theorem test_undefined_access :
    (State.reset.issue ⟨.read, .bits16, 0x4, 0⟩).fetch = .undefined := by decide

/-! ### Datapaths -/

/-- SHA1-F. -/
theorem test_sha1F :
    [0, 20, 40, 60].map (fun t => sha1F t 0xF0F0F0F0 0xCCCCCCCC 0xAAAAAAAA)
      = [0xcacacaca, 0x96969696, 0xe8e8e8e8, 0x96969696] := by decide

/-- SHA1-ABC trace, round 0. -/
theorem test_sha1Round :
    sha1Round 0 0x61626380 (sha1Load sha1Iv)
      = ⟨0x0116fc33, 0x67452301, 0x7bf36ae2, 0x98badcfe, 0x10325476⟩ := by decide

/-- SHA1-ABC trace, round 60: the phase boundary. -/
theorem test_sha1Round_60 :
    sha1Round 60 0x7ba06619 ⟨0x3f52de5a, 0x09d785fd, 0x3498bfd4, 0xf211824f, 0xd79915ab⟩
      = ⟨0xd756c147, 0x3f52de5a, 0x4275e17f, 0x3498bfd4, 0xf211824f⟩ := by decide

/-- SHA1-SCHED: W16 of the block 00 01 … 3f. -/
theorem test_schedule :
    (sha1Schedule (Vector.ofFn fun i => BitVec.ofNat 8 i.val))[16] = 0x38383838 := by decide +kernel

/-- G-GF. -/
theorem test_gmul :
    xtime 0x80 = 0x1b ∧ xtime 0x57 = 0xae ∧ gmul 0x57 0x83 = 0xc1 ∧ gmul 0x07 0xff = 0xcb := by decide

/-- G-SBOX. -/
theorem test_sbox : sbox 0x00 = 0x63 ∧ sbox 0x01 = 0x7c ∧ sbox 0x53 = 0xed ∧ sbox 0xff = 0x16 := by decide

/-- G-MIX: the column 01 02 … 08. -/
theorem test_mixBytes :
    let m := mixBytes (matrixOf fun r _ => BitVec.ofNat 8 (r.val + 1))
    (List.finRange 8).map (fun r => m[r][3]) = [0x2b, 0x22, 0x11, 0x3c, 0x3f, 0x1e, 0x15, 0x08] := by decide +kernel

/-- G-ARC. -/
theorem test_arc :
    (arcP zeroMatrix 13)[0] = #v[0x0d, 0x1d, 0x2d, 0x3d, 0x4d, 0x5d, 0x6d, 0x7d, 0x8d, 0x9d, 0xad, 0xbd, 0xcd,
        0xdd, 0xed, 0xfd]
      ∧ (arcQ zeroMatrix 5)[7] = #v[0xfa, 0xea, 0xda, 0xca, 0xba, 0xaa, 0x9a, 0x8a, 0x7a, 0x6a, 0x5a, 0x4a, 0x3a,
        0x2a, 0x1a, 0x0a]
      ∧ (arcQ zeroMatrix 5)[0][4] = 0xff ∧ (arcP zeroMatrix 13)[1][4] = 0 := by decide +kernel

/-- G-SHIFT, the first column of each: M[r][σ(r)]. -/
theorem test_shiftBytes :
    let m := matrixOf fun r c => BitVec.ofNat 8 (16 * r.val + c.val)
    (List.finRange 8).map (fun r => (shiftBytes sigmaP m)[r][0]) = [0x00, 0x11, 0x22, 0x33, 0x44, 0x55, 0x66, 0x7b]
      ∧ (List.finRange 8).map (fun r => (shiftBytes sigmaQ m)[r][0])
        = [0x01, 0x13, 0x25, 0x3b, 0x40, 0x52, 0x64, 0x76] := by decide +kernel

/-- G-ROUND: the first column of one P round on the zero matrix, and the second. -/
theorem test_roundP :
    ((serialise (roundP zeroMatrix 0)).toList.take 16)
      = [0xa5, 0xa5, 0xa5, 0xa5, 0xa5, 0xa5, 0xa5, 0xa5, 0xec, 0xd7, 0x9e, 0x45, 0x9e, 0x37, 0x45, 0xec] := by
  decide +kernel

/-- PAD, the rows at the two boundaries of each block size. -/
theorem test_padZeros :
    [0, 3, 55, 56, 63].map (padZeros 64) = [55, 52, 0, 63, 56]
      ∧ [0, 119, 120, 127].map (padZeros 128) = [119, 0, 127, 120]
      ∧ [55, 56].map (npad 64) = [1, 2] ∧ [119, 120].map (npad 128) = [1, 2] := by decide

/-- GLEN: N = 248, and 8·N in BIT_LENGTH mode. -/
theorem test_lengthValue :
    let s := { holding .groestl512 120 with total := 248, blocks := 1 }
    lengthValue .blockCount s = 3 ∧ lengthValue .bitLength s = 1984 := by decide

/-! ### Witnesses: states with the invariant -/

/-- A FINALIZE job before the first of its two padding blocks: 64 bytes of padding still to come. -/
def firstBlock : State :=
  { compressing .sha1 .rounds with seq := .finalize (.block .load (List.replicate 64 0)) }

/-- The same job in the last round of its first block. -/
def midBlock : State :=
  { compressing .sha1 .load with seq := .finalize (.block .rounds (List.replicate 64 0)), t := 79 }

/-- A FINALIZE job at the end of its last block. -/
def lastBlock : State :=
  { compressing .groestl512 .rounds with seq := .finalize (.block .rounds []), r := 14 }

/-- An output transform in its rounds. -/
def transforming : State :=
  { absorbing .groestl512 with busy := true, seq := .finalize (.output .rounds), r := 13 }

/-- An output transform at its combine step. -/
def transformed : State := { transforming with r := 14 }

theorem zerosFrom_ge (b n : Nat) : ∀ x ∈ zerosFrom b n, b ≤ x.1 ∧ x.1 < b + n := by
  induction n generalizing b with
  | zero => intro x hx; cases hx
  | succ n ih =>
    intro x hx
    rcases List.mem_cons.1 hx with rfl | hx
    · exact ⟨Nat.le_refl b, by show b < _; omega⟩
    · have := ih (b + 1) x hx
      omega

theorem zeros_range {n : Nat} (h : n ≤ bufBytes) : ∀ x ∈ zeros n, x.1 < bufBytes := fun x hx => by
  have := zerosFrom_ge 0 n x hx
  omega

theorem zeros_wf (n : Nat) : (zeros n).wf = true := by
  have key : ∀ b, (zerosFrom b n).wf = true := by
    induction n with
    | zero => exact fun _ => rfl
    | succ n ih => exact fun b => (wf_cons _ _).2 ⟨fun y hy => (zerosFrom_ge (b + 1) n y hy).1, ih _⟩
  exact key 0

theorem zeros_held {n a : Nat} (h : a < n) : ((zeros n).read a).isSome = true := by
  have key : ∀ b, b ≤ a → a < b + n → ((zerosFrom b n).read a).isSome = true := by
    clear h
    induction n with
    | zero => intro b h1 h2; omega
    | succ n ih =>
      intro b h1 h2
      unfold zerosFrom Memory.read
      split
      · rfl
      · exact ih (b + 1) (by rename_i h; simp only at h; omega) (by omega)
  exact key 0 (Nat.zero_le a) (by omega)

theorem inv_idle : ({ State.reset with t := 80 }).Inv :=
  ⟨rfl, fun _ h => (nomatch h), fun _ h => absurd h (Nat.not_lt_zero _), by decide, by decide, by decide, (by decide : ({ State.reset with t := 80 }).bufLen.toNat < blockBytes ({ State.reset with t := 80 }).alg),
    fun h _ => absurd h (by decide),
    by decide, by decide, by decide, by decide, by decide, by decide⟩

theorem inv_sha1 : (absorbing .sha1).Inv :=
  ⟨rfl, fun _ h => (nomatch h), fun _ h => absurd h (Nat.not_lt_zero _), by decide, by decide, by decide, (by decide : (absorbing .sha1).bufLen.toNat < blockBytes (absorbing .sha1).alg),
    fun _ _ => by decide,
    by decide, by decide, by decide, by decide, by decide, by decide⟩

theorem inv_groestl512 : (absorbing .groestl512).Inv :=
  ⟨rfl, fun _ h => (nomatch h), fun _ h => absurd h (Nat.not_lt_zero _), by decide, by decide, by decide, (by decide : (absorbing .groestl512).bufLen.toNat < blockBytes (absorbing .groestl512).alg),
    fun _ _ => by decide,
    by decide, by decide, by decide, by decide, by decide, by decide⟩

theorem inv_holding_sha1 : (holding .sha1 63).Inv :=
  ⟨zeros_wf 63, zeros_range (n := 63) (by decide), fun _ h => zeros_held h, by decide, by decide, by decide, (by decide : (holding .sha1 63).bufLen.toNat < blockBytes (holding .sha1 63).alg),
    fun _ _ => by decide,
    by decide, by decide, by decide, by decide, by decide, by decide⟩

theorem inv_owing_groestl512 : (owing .groestl512 127 1).Inv :=
  ⟨zeros_wf 127, zeros_range (n := 127) (by decide), fun _ h => zeros_held h, by decide, by decide, by decide, (by decide : (owing .groestl512 127 1).bufLen.toNat < blockBytes (owing .groestl512 127 1).alg),
    fun _ _ => by decide,
    by decide, by decide, by decide, by decide, by decide, by decide⟩

theorem inv_final_sha1 : (final .sha1 20).Inv :=
  ⟨rfl, fun _ h => (nomatch h), fun _ h => absurd h (Nat.not_lt_zero _), by decide, by decide, by decide, (by decide : (final .sha1 20).bufLen.toNat < blockBytes (final .sha1 20).alg),
    fun h _ => absurd h (by decide),
    by decide, by decide, by decide, by decide, by decide, by decide⟩

theorem inv_final_groestl512 : (final .groestl512 64).Inv :=
  ⟨rfl, fun _ h => (nomatch h), fun _ h => absurd h (Nat.not_lt_zero _), by decide, by decide, by decide, (by decide : (final .groestl512 64).bufLen.toNat < blockBytes (final .groestl512 64).alg),
    fun h _ => absurd h (by decide),
    by decide, by decide, by decide, by decide, by decide, by decide⟩

theorem inv_final_groestl384 : (final .groestl384 0).Inv :=
  ⟨rfl, fun _ h => (nomatch h), fun _ h => absurd h (Nat.not_lt_zero _), by decide, by decide, by decide, (by decide : (final .groestl384 0).bufLen.toNat < blockBytes (final .groestl384 0).alg),
    fun h _ => absurd h (by decide),
    by decide, by decide, by decide, by decide, by decide, by decide⟩

theorem inv_faulted : (faulted).Inv :=
  ⟨rfl, fun _ h => (nomatch h), fun _ h => absurd h (Nat.not_lt_zero _), by decide, by decide, by decide, (by decide : (faulted).bufLen.toNat < blockBytes (faulted).alg),
    fun h _ => absurd h (by decide),
    by decide, by decide, by decide, by decide, by decide, by decide⟩

theorem inv_compressing_sha1 : (compressing .sha1 .rounds).Inv :=
  ⟨zeros_wf 64, zeros_range (n := 64) (by decide), fun _ h => zeros_held h, by decide, by decide, by decide, (by decide : (compressing .sha1 .rounds).bufLen.toNat = blockBytes (compressing .sha1 .rounds).alg),
    fun _ _ => by decide,
    by decide, by decide, by decide, by decide, by decide, by decide⟩

theorem inv_compressing_groestl384 : (compressing .groestl384 .rounds).Inv :=
  ⟨zeros_wf 128, zeros_range (n := 128) (by decide), fun _ h => zeros_held h, by decide, by decide, by decide, (by decide : (compressing .groestl384 .rounds).bufLen.toNat = blockBytes (compressing .groestl384 .rounds).alg),
    fun _ _ => by decide,
    by decide, by decide, by decide, by decide, by decide, by decide⟩

theorem inv_finalizing_sha1_55 : (finalizing .sha1 55).Inv :=
  ⟨zeros_wf 55, zeros_range (n := 55) (by decide), fun _ h => zeros_held h, by decide, by decide, by decide, ⟨by decide, by decide⟩,
    fun _ _ => by decide,
    by decide, by decide, by decide, by decide, by decide, by decide⟩

theorem inv_finalizing_sha1_56 : (finalizing .sha1 56).Inv :=
  ⟨zeros_wf 56, zeros_range (n := 56) (by decide), fun _ h => zeros_held h, by decide, by decide, by decide, ⟨by decide, by decide⟩,
    fun _ _ => by decide,
    by decide, by decide, by decide, by decide, by decide, by decide⟩

theorem inv_finalizing_groestl512_119 : (finalizing .groestl512 119).Inv :=
  ⟨zeros_wf 119, zeros_range (n := 119) (by decide), fun _ h => zeros_held h, by decide, by decide, by decide, ⟨by decide, by decide⟩,
    fun _ _ => by decide,
    by decide, by decide, by decide, by decide, by decide, by decide⟩

theorem inv_finalizing_groestl384_120 : (finalizing .groestl384 120).Inv :=
  ⟨zeros_wf 120, zeros_range (n := 120) (by decide), fun _ h => zeros_held h, by decide, by decide, by decide, ⟨by decide, by decide⟩,
    fun _ _ => by decide,
    by decide, by decide, by decide, by decide, by decide, by decide⟩

theorem inv_midBlock : (midBlock).Inv :=
  ⟨zeros_wf 64, zeros_range (n := 64) (by decide), fun _ h => zeros_held h, by decide, by decide, by decide, ⟨by decide, by decide, .inr rfl⟩,
    fun _ hm => absurd hm id,
    by decide, by decide, by decide, by decide, by decide, by decide⟩

theorem inv_reading : (transformed.issue (encode .readStatus)).Inv :=
  ⟨rfl, fun _ h => (nomatch h), fun _ h => absurd h (Nat.not_lt_zero _), by decide, by decide, by decide, ⟨by decide, by decide, by decide⟩,
    fun _ hm => absurd hm id,
    by decide, by decide, by decide, by decide, by decide, by decide⟩

theorem inv_lastBlock : (lastBlock).Inv :=
  ⟨zeros_wf 128, zeros_range (n := 128) (by decide), fun _ h => zeros_held h, by decide, by decide, by decide, ⟨by decide, by decide, .inl rfl⟩,
    fun _ hm => absurd hm id,
    by decide, by decide, by decide, by decide, by decide, by decide⟩

theorem inv_firstBlock : (firstBlock).Inv :=
  ⟨zeros_wf 64, zeros_range (n := 64) (by decide), fun _ h => zeros_held h, by decide, by decide, by decide, ⟨by decide, by decide, .inr rfl⟩,
    fun _ hm => absurd hm id,
    by decide, by decide, by decide, by decide, by decide, by decide⟩

theorem inv_transforming : (transforming).Inv :=
  ⟨rfl, fun _ h => (nomatch h), fun _ h => absurd h (Nat.not_lt_zero _), by decide, by decide, by decide, ⟨by decide, by decide, by decide⟩,
    fun _ hm => absurd hm id,
    by decide, by decide, by decide, by decide, by decide, by decide⟩

/-! ### Witnesses: each statement's hypotheses, met together -/

theorem next_of_after {r : Result} (h : (after r).isSome = true) : ∃ t, r = .next t := by
  cases r with
  | next t => exact ⟨t, rfl⟩
  | fault f => cases h
  | refused f => cases h

theorem next_with {α : Type} {f : State → α} {v : α} {r : Result} (h : (after r).map f = some v) :
    ∃ t, r = .next t ∧ f t = v := by
  cases r with
  | next t => exact ⟨t, rfl, Option.some.inj h⟩
  | fault f => cases h
  | refused f => cases h

theorem test_witness_DecodeEncodeIsIdentity :
    (Instr.readWo .cmd).wellFormed = true ∧ (Instr.writeRo .dout).wellFormed = true
      ∧ (Instr.add 0xFFFFFF).wellFormed = true :=
  by decide

theorem test_witness_CommandHasOneWord :
    decode (cmd 0xFFFFFF02) = .instr (.add 0xFFFFFF) ∧ decode (cmd 0x02) = .instr (.add 0) :=
  by decide

/-- Each command word of R93 with a state for each of the three outcomes; the words stand in test_decode_illegal. -/
theorem test_witness_IllegalWordsFault :
    let s := final .sha1 20
    let b := compressing .sha1 .load
    decode (cmd 0x31) = .illegal
      ∧ ((s.issue (cmd 0x31)).pending = .access (cmd 0x31) :: [] ∧ s.busy = false ∧ s.phase ≠ .fault)
      ∧ ((b.issue (cmd 0x31)).pending = .access (cmd 0x31) :: [] ∧ b.busy = true)
      ∧ ((faulted.issue (cmd 0x31)).pending = .access (cmd 0x31) :: [] ∧ faulted.busy = false
        ∧ faulted.phase = .fault) :=
  ⟨by decide, ⟨rfl, by decide, by decide⟩, ⟨rfl, by decide⟩, ⟨rfl, by decide, by decide⟩⟩

/-- Every direction with every offset, and accesses just past them. -/
theorem test_witness_DecoderIsTotal :
    (∀ d ∈ [Dir.write, .read], ∀ o ∈ [0x0, 0x4, 0x8, 0xC],
        (Access.mk d .bits32 o 0x00000011).width = .bits32)
      ∧ (Access.mk .read .bits16 0x4 0).width ≠ .bits32
      ∧ (0x1 ∉ [0x0, 0x4, 0x8, 0xC] ∧ 0xD ∉ [0x0, 0x4, 0x8, 0xC])
      ∧ (State.reset.issue ⟨.read, .bits32, 0xD, 0⟩).pending = .access ⟨.read, .bits32, 0xD, 0⟩ :: [] :=
  ⟨by decide, by decide, by decide, rfl⟩

theorem test_witness_StepRunsDecodedInstruction :
    (State.reset.issue (cmd 0x01)).pending = .access (cmd 0x01) :: []
      ∧ decode (cmd 0x01) = .instr (.init .sha1) :=
  ⟨rfl, by decide⟩

theorem test_witness_QuietStepRunsTheJob :
    let b := compressing .sha1 .load
    (b.pending = [] ∧ b.busy = true) ∧ (faulted.pending = [] ∧ faulted.busy = false)
      ∧ ({ b with pending := [.idle] } : State).pending = .idle :: []
      ∧ ({ faulted with pending := [.idle] } : State).pending = .idle :: [] :=
  ⟨⟨rfl, rfl⟩, ⟨rfl, rfl⟩, rfl, rfl⟩

theorem test_witness_ResetSetsControlState :
    ({ compressing .sha1 .rounds with pending := [.reset, .idle] } : State).pending = .reset :: [.idle]
      ∧ ({ faulted with pending := [.reset] } : State).pending = .reset :: [] :=
  ⟨rfl, rfl⟩

theorem test_witness_InitLoadsContext :
    [State.reset, absorbing .sha1, holding .groestl512 127, final .groestl384 48].all
      (fun s => !s.busy && s.phase != .fault && s.addRemain == 0) = true :=
  by decide

/-- TOTAL at its bound: ADD 0 keeps to it, ADD 1 does not. -/
theorem test_witness_AddAnnouncesBytes :
    let s := { absorbing .sha1 with total := 0x1FFFFFFFFFFFFFFF }
    (s.busy = false ∧ s.phase = .absorb ∧ s.addRemain = 0)
      ∧ s.total.toNat + (0 : BitVec 24).toNat ≤ 2 ^ 61 - 1 ∧ 2 ^ 61 - 1 < s.total.toNat + (1 : BitVec 24).toNat :=
  by decide

theorem test_witness_FinalizeStartsJob :
    let s := holding .sha1 63
    s.busy = false ∧ s.phase = .absorb ∧ s.addRemain = 0 :=
  by decide

theorem test_witness_GetDigestArmsOutput :
    [final .sha1 0, final .sha1 20, final .groestl512 1, final .groestl384 48].all
      (fun s => !s.busy && s.phase == .final && s.addRemain == 0) = true :=
  by decide

theorem test_witness_LegalityTable :
    (1 : BitVec 24) ≠ 0 ∧ (0xFFFFFF : BitVec 24) ≠ 0
      ∧ (let s := final .sha1 0;
        s.busy = false ∧ s.phase ≠ .fault ∧ s.fcode ≠ .sequence ∧ legal .finalize s.phase s.addRemain = false
          ∧ legal (.add 1) s.phase s.addRemain = false ∧ legal .getDigest s.phase s.addRemain = true
          ∧ legal (.init .sha1) s.phase s.addRemain = true)
      ∧ (let s := owing .sha1 1 1;
        s.busy = false ∧ s.phase ≠ .fault ∧ legal (.init .sha1) s.phase s.addRemain = false)
      ∧ (let s := absorbing .sha1;
        s.busy = false ∧ s.phase ≠ .fault ∧ s.fcode ≠ .sequence ∧ legal .finalize s.phase s.addRemain = true
          ∧ legal (.add 1) s.phase s.addRemain = true ∧ legal .getDigest s.phase s.addRemain = false) :=
  by decide

theorem test_witness_CommandFrame :
    (∃ t, exec (.init .groestl512) State.reset = .next t) ∧ (∃ t, exec (.add 7) (absorbing .sha1) = .next t)
      ∧ (∃ t, exec .finalize (holding .sha1 63) = .next t) ∧ (∃ t, exec .getDigest (final .sha1 20) = .next t)
      ∧ (∃ t, exec .getDigest faulted = .next t)
      ∧ [State.reset, absorbing .sha1, holding .sha1 63, final .sha1 20, faulted].all (fun s => !s.busy) = true :=
  ⟨next_of_after (by decide), next_of_after (by decide), next_of_after (by decide), next_of_after (by decide),
    next_of_after (by decide), by decide⟩

/-- The last byte of a block and the one before it. -/
theorem test_witness_WriteDinStoresByte :
    [owing .sha1 0 1, owing .sha1 62 1, owing .sha1 63 2, owing .groestl512 126 1, owing .groestl384 127 1].map
      (fun s => (!s.busy && s.phase != .fault && s.addRemain != 0 && decide (s.bufLen.toNat < 128),
        s.bufLen.toNat + 1 == blockBytes s.alg))
      = [(true, false), (true, false), (true, true), (true, false), (true, true)] :=
  by decide

theorem test_witness_UnexpectedByteFaults :
    [State.reset, absorbing .sha1, final .sha1 0].all
      (fun s => !s.busy && s.phase != .fault && s.addRemain == 0) = true :=
  by decide

theorem test_witness_WriteDinFrame :
    (∃ t, exec (.writeDin 9) (owing .sha1 63 1) = .next t) ∧ (∃ t, exec (.writeDin 9) faulted = .next t)
      ∧ (∃ t, exec (.writeDin 9) State.reset = .next t) ∧ (owing .sha1 63 1).busy = false
      ∧ (faulted.busy = false ∧ faulted.phase = .fault) ∧ (State.reset.busy = false ∧ State.reset.addRemain = 0) :=
  ⟨next_of_after (by decide +kernel), next_of_after (by decide), next_of_after (by decide), by decide, by decide,
    by decide⟩

theorem test_witness_ReadDoutReturnsNextByte :
    [final .sha1 1, final .sha1 20, final .groestl512 64, final .groestl384 48, absorbing .sha1].map
      (fun s => !s.busy && s.phase != .fault && s.doutRemain != 0 && decide (s.doutRemain.toNat ≤ digestBytes s.alg))
      = [true, true, true, true, false] :=
  by decide

theorem test_witness_EmptyReadFaults :
    [State.reset, absorbing .sha1, final .groestl384 0].all
      (fun s => !s.busy && s.phase != .fault && s.doutRemain == 0) = true :=
  by decide

theorem test_witness_ReadFrame :
    (∃ t, exec .readStatus (compressing .sha1 .load) = .next t) ∧ (∃ t, exec .readDout (final .sha1 1) = .next t)
      ∧ (∃ t, exec .readDout (final .sha1 0) = .next t) ∧ (∃ t, exec (.readWo .din) faulted = .next t)
      ∧ (∃ t, exec (.writeRo .dout) State.reset = .next t)
      ∧ (final .sha1 1).busy = false ∧ (final .sha1 0).busy = false :=
  ⟨next_of_after (by decide +kernel), next_of_after (by decide), next_of_after (by decide), next_of_after (by decide),
    next_of_after (by decide), by decide, by decide⟩

theorem test_witness_IllFormedOperandsAreRefused :
    (Instr.readWo .status).wellFormed = false ∧ (Instr.writeRo .din).wellFormed = false :=
  by decide

theorem test_witness_ModelStopsByName :
    (let s := owing .sha1 128 1;
      s.busy = false ∧ s.phase ≠ .fault ∧ s.addRemain ≠ 0 ∧ 128 ≤ s.bufLen.toNat)
      ∧ (let s := final .sha1 21;
        s.busy = false ∧ s.phase ≠ .fault ∧ s.doutRemain ≠ 0 ∧ digestBytes s.alg < s.doutRemain.toNat)
      ∧ (let s := finalizing .groestl512 128;
        s.seq = .finalize .pad ∧ 128 ≤ s.bufLen.toNat)
      ∧ (let s := { compressing .sha1 .load with buf := zeros 63 };
        s.seq = .compress .load ∧ 63 < blockBytes s.alg ∧ s.buf.read 63 = none) :=
  by decide +kernel

theorem test_witness_DigestReadsInOrder :
    ((final .sha1 20).Inv ∧ (final .sha1 20).phase = .final ∧ 20 ≤ digestBytes (final .sha1 20).alg)
      ∧ ((final .groestl512 64).Inv ∧ (final .groestl512 64).phase = .final
        ∧ 64 ≤ digestBytes (final .groestl512 64).alg) :=
  ⟨⟨inv_final_sha1, by decide, by decide⟩, inv_final_groestl512, by decide, by decide⟩

theorem test_witness_FaultEntryIsPrecise :
    (∃ t, exec .finalize (final .sha1 0) = .next t ∧ t.phase = .fault)
      ∧ (∃ t, exec .readDout (absorbing .sha1) = .next t ∧ t.phase = .fault)
      ∧ (∃ t, illegalCommand (absorbing .sha1) = .next t ∧ t.phase = .fault)
      ∧ (final .sha1 0).phase ≠ .fault ∧ (absorbing .sha1).phase ≠ .fault
      ∧ (∃ t, exec (.writeDin 1) faulted = .next t ∧ t.phase = .fault) ∧ faulted.phase = .fault
      ∧ faulted.busy = false :=
  ⟨next_with (by decide), next_with (by decide), next_with (by decide), by decide, by decide, next_with (by decide),
    by decide, by decide⟩

theorem test_witness_FaultIsSticky :
    faulted.phase = .fault ∧ faulted.busy = false ∧ (∃ t, step faulted = .next t) ∧ faulted.fetch ≠ .reset :=
  ⟨by decide, by decide, next_of_after (by decide), by decide⟩

theorem test_witness_FcodeKeepsFirstFault :
    (∃ t, step { faulted with pending := [.reset] } = .next t) ∧ (∃ t, step State.reset = .next t)
      ∧ (∃ t, step (State.reset.issue (cmd 0)) = .next t) :=
  ⟨next_of_after (by decide), next_of_after (by decide), next_of_after (by decide)⟩

theorem test_witness_PhaseChangesOnlyByItsRules :
    (∃ t, step { faulted with pending := [.reset] } = .next t ∧ t.phase ≠ faulted.phase)
      ∧ (∃ t, step (State.reset.issue (cmd 0x01)) = .next t ∧ t.phase ≠ State.reset.phase)
      ∧ (∃ t, step transformed = .next t ∧ t.phase ≠ transformed.phase)
      ∧ (∃ t, step (State.reset.issue (cmd 0x00)) = .next t ∧ t.phase ≠ State.reset.phase) :=
  ⟨(next_with (f := State.phase) (v := .idle) (by decide)).imp fun _ h => ⟨h.1, by rw [h.2]; decide⟩,
    (next_with (f := State.phase) (v := .absorb) (by decide)).imp fun _ h => ⟨h.1, by rw [h.2]; decide⟩,
    (next_with (f := State.phase) (v := .final) (by decide +kernel)).imp fun _ h => ⟨h.1, by rw [h.2]; decide⟩,
    (next_with (f := State.phase) (v := .fault) (by decide)).imp fun _ h => ⟨h.1, by rw [h.2]; decide⟩⟩

/-- A fault in ABSORB, a padding step, a round, and a STATUS read where the job's next step is its last. -/
theorem test_witness_HashStateHasFewWriters :
    let reading := (transformed.issue (encode .readStatus))
    [absorbing .sha1, (absorbing .sha1).issue (cmd 0), finalizing .sha1 55, midBlock, reading].all
        (fun s => (after (step s)).isSome && s.fetch != .reset) = true
      ∧ ((absorbing .sha1).Inv ∧ ¬ jobMoves (absorbing .sha1)
        ∧ ¬ ∃ alg, (absorbing .sha1).fetch = .instr (.init alg))
      ∧ ((finalizing .sha1 55).Inv ∧ (finalizing .sha1 55).busy = true ∧ ¬ atLastStep (finalizing .sha1 55))
      ∧ (midBlock.Inv ∧ midBlock.busy = true ∧ midBlock.alg = .sha1 ∧ ¬ atLastStep midBlock)
      ∧ (reading.Inv ∧ reading.busy = true ∧ reading.alg ≠ .sha1 ∧ atLastStep reading ∧ ¬ jobMoves reading) := by
  refine ⟨by decide +kernel, ⟨inv_sha1, fun h => absurd h.1 (by decide), fun ⟨alg, h⟩ => nomatch h⟩,
    ⟨inv_finalizing_sha1_55, by decide, id⟩,
    ⟨inv_midBlock, by decide, by decide, show ¬ midBlock.t = 80 by decide⟩,
    inv_reading, by decide, by decide, rfl, fun h => absurd (show neverHeld .readStatus = false from h.2) (by decide)⟩

theorem test_witness_HeldAccessStaysPending :
    let s := compressing .sha1 .rounds
    s.busy = true ∧ neverHeld (.writeDin 1) = false ∧ neverHeld .readDout = false
      ∧ neverHeld (.init .sha1) = false ∧ ∃ t, s.engineStep = .next t :=
  ⟨by decide, by decide, by decide, by decide, next_of_after (by decide +kernel)⟩

/-- A state at each position of the sequencer; `firstBlock` and `midBlock`, in its last round, owe a block of
padding, `lastBlock` none. -/
theorem test_witness_JobStepFrame :
    ((compressing .sha1 .rounds).Inv ∧ ∃ t, (compressing .sha1 .rounds).engineStep = .next t)
      ∧ ((finalizing .sha1 55).Inv ∧ ∃ t, (finalizing .sha1 55).engineStep = .next t)
      ∧ (firstBlock.Inv ∧ ∃ t, firstBlock.engineStep = .next t)
      ∧ (midBlock.Inv ∧ ¬ atLastStep midBlock ∧ ∃ t, midBlock.engineStep = .next t)
      ∧ (lastBlock.Inv ∧ atLastStep lastBlock ∧ ∃ t, lastBlock.engineStep = .next t)
      ∧ (transforming.Inv ∧ ∃ t, transforming.engineStep = .next t) :=
  ⟨⟨inv_compressing_sha1, next_of_after (by decide +kernel)⟩,
    ⟨inv_finalizing_sha1_55, next_of_after (by decide +kernel)⟩,
    ⟨inv_firstBlock, next_of_after (by decide +kernel)⟩,
    ⟨inv_midBlock, show ¬ midBlock.t = 80 by decide, next_of_after (by decide +kernel)⟩,
    ⟨inv_lastBlock, rfl, next_of_after (by decide +kernel)⟩,
    inv_transforming, next_of_after (by decide +kernel)⟩

theorem test_witness_StatusDuringJob :
    (compressing .sha1 .rounds).Inv ∧ (compressing .sha1 .rounds).busy = true :=
  ⟨inv_compressing_sha1, by decide⟩

theorem test_witness_JobsEnd :
    ((finalizing .sha1 56).Inv ∧ (finalizing .sha1 56).busy = true)
      ∧ (transforming.Inv ∧ transforming.busy = true) :=
  ⟨⟨inv_finalizing_sha1_56, by decide⟩, inv_transforming, by decide⟩

theorem test_witness_Sha1CompressJob :
    let s := compressing .sha1 .load
    s.alg = .sha1 ∧ s.seq = .compress .load ∧ ∃ blk, s.readBlock 64 = some blk :=
  ⟨by decide, by decide, (readBlock_some (s := compressing .sha1 .load) (n := 64) fun _ h => zeros_held h).imp fun _ h => h.1⟩

theorem test_witness_GroestlCompressJob :
    let s := compressing .groestl512 .load
    s.alg ≠ .sha1 ∧ s.seq = .compress .load ∧ ∃ blk, s.readBlock 128 = some blk :=
  ⟨by decide, by decide, (readBlock_some (s := compressing .groestl512 .load) (n := 128) fun _ h => zeros_held h).imp fun _ h => h.1⟩

/-- The last length with one padding block and the first with two. -/
theorem test_witness_Sha1FinalizeJob :
    ((finalizing .sha1 55).Inv ∧ (finalizing .sha1 55).alg = .sha1 ∧ (finalizing .sha1 55).seq = .finalize .pad)
      ∧ ((finalizing .sha1 56).Inv ∧ (finalizing .sha1 56).alg = .sha1
        ∧ (finalizing .sha1 56).seq = .finalize .pad) :=
  ⟨⟨inv_finalizing_sha1_55, rfl, rfl⟩, inv_finalizing_sha1_56, rfl, rfl⟩

/-- The last length with one padding block and the first with two. -/
theorem test_witness_GroestlFinalizeJob :
    ((finalizing .groestl512 119).Inv ∧ (finalizing .groestl512 119).alg ≠ .sha1
        ∧ (finalizing .groestl512 119).seq = .finalize .pad)
      ∧ ((finalizing .groestl384 120).Inv ∧ (finalizing .groestl384 120).alg ≠ .sha1
        ∧ (finalizing .groestl384 120).seq = .finalize .pad) :=
  ⟨⟨inv_finalizing_groestl512_119, by decide, rfl⟩, inv_finalizing_groestl384_120, by decide, rfl⟩

theorem test_witness_ChunkInvariance :
    let s := holding .sha1 63
    let xs : List (List Byte) := [[0x61], [], [0x62, 0x63]]
    let ys : List (List Byte) := [[0x61, 0x62, 0x63]]
    s.Inv ∧ s.phase = .absorb ∧ s.busy = false ∧ s.addRemain = 0 ∧ xs.flatten = ys.flatten
      ∧ (∀ x ∈ xs, x.length < 2 ^ 24) ∧ (∀ y ∈ ys, y.length < 2 ^ 24)
      ∧ s.total.toNat + xs.flatten.length ≤ 2 ^ 61 - 1 :=
  ⟨inv_holding_sha1, by decide, by decide, by decide, by decide, by decide, by decide, by decide⟩

theorem test_witness_StepKeepsMemoryForm :
    (owing .sha1 63 1).buf.wf = true ∧ ∃ t, step ((owing .sha1 63 1).issue (encode (.writeDin 1))) = .next t :=
  ⟨by decide +kernel, next_of_after (by decide +kernel)⟩

theorem test_witness_StepKeepsInvariant :
    ((compressing .sha1 .rounds).Inv ∧ ∃ t, step (compressing .sha1 .rounds) = .next t)
      ∧ (State.Inv { State.reset with t := 80 } ∧ ∃ t, step { State.reset with t := 80 } = .next t)
      ∧ (faulted.Inv ∧ ∃ t, step faulted = .next t) :=
  ⟨⟨inv_compressing_sha1, next_of_after (by decide +kernel)⟩, ⟨inv_idle, next_of_after (by decide)⟩, inv_faulted,
    next_of_after (by decide)⟩

/-- One run for each of the two phases: INIT, and the empty message through its one padding block. -/
theorem test_witness_CountersAgreeInEveryRun :
    (∃ s, run 1 { State.reset with pending := [.access (cmd 0x01)] } = .next s ∧ (s.busy, s.phase) = (false, .absorb))
      ∧ ∃ s, run 85 { State.reset with pending := [.access (cmd 0x01), .access (cmd 0x03)] } = .next s
        ∧ (s.busy, s.phase) = (false, .final) :=
  ⟨next_with (f := fun s => (s.busy, s.phase)) (by decide +kernel),
    next_with (f := fun s => (s.busy, s.phase)) (by decide +kernel)⟩

theorem test_witness_DefinedAccessesNeverStop :
    (owing .groestl512 127 1).Inv
      ∧ ((owing .groestl512 127 1).issue (encode (.writeDin 1))).pending = .access (encode (.writeDin 1)) :: []
      ∧ (encode (.writeDin 1)).defined = true :=
  ⟨inv_owing_groestl512, rfl, by decide⟩

theorem test_witness_UnselectedRegisterIsNotRead :
    ((final .sha1 20).Inv ∧ (final .sha1 20).alg = .sha1)
      ∧ ((compressing .groestl384 .rounds).Inv ∧ (compressing .groestl384 .rounds).alg ≠ .sha1) :=
  ⟨⟨inv_final_sha1, by decide⟩, inv_compressing_groestl384, by decide⟩

theorem test_witness_NothingIsReadBeforeInit :
    State.Inv { State.reset with t := 80 } ∧ ({ State.reset with t := 80 } : State).phase = .idle :=
  ⟨inv_idle, by decide⟩

theorem test_witness_EnginesAreIndependent :
    (∃ q, platformStep 1 [faulted, State.reset] = some (.next q))
      ∧ ([faulted, State.reset] : Platform)[1]? = ([State.reset, State.reset] : Platform)[1]?
      ∧ (0 : Nat) ≠ 1 ∧ ∃ s, platformAtReset[0]? = some s :=
  ⟨⟨_, rfl⟩, rfl, by decide, _, List.getElem?_eq_getElem (by
    have := Config.nInstances.property
    simp only [platformAtReset, List.length_map, List.length_range]
    omega)⟩

/-- Blocks at 0x100 and 0x110: a STATUS access of engine 1; the last byte of block 0 and the one before it; a wide
access in both blocks; and an unaligned one from below. -/
theorem test_witness_HostReachesOneEngine :
    let base := fun k => 0x100 + 16 * k
    let p : Platform := [State.reset, faulted]
    let issued := fun w addr => (hostIssueAt base .read w addr 0 p).map (·.pending)
    (p[1]? = some faulted ∧ 0x114 ∈ [base 1, base 1 + 4, base 1 + 8, base 1 + 12] ∧ base 0 + 16 ≤ base 1)
      ∧ issued .bits32 0x114 = [[], [.access ⟨.read, .bits32, 4, 0⟩]]
      ∧ issued .bits8 0x10F = [[.access ⟨.read, .bits8, 15, 0⟩], []] ∧ issued .bits8 0xFF = [[], []]
      ∧ issued .bits64 0x10C = [[.access ⟨.read, .bits64, 12, 0⟩], [.access ⟨.read, .bits64, -4, 0⟩]]
      ∧ (0xFE ∉ [base 0, base 0 + 4, base 0 + 8, base 0 + 12]
        ∧ issued .bits32 0xFE = [[.access ⟨.read, .bits32, -2, 0⟩], []])
      ∧ (State.reset.issue ⟨.read, .bits32, -2, 0⟩).pending = .access ⟨.read, .bits32, -2, 0⟩ :: []
      ∧ (State.reset.issue ⟨.read, .bits32, -2, 0⟩).fetch = .undefined := by decide

theorem test_witness_PaddingFillsBlocks :
    (0 < blockBytes .sha1 ∧ 55 ≤ blockBytes .sha1 - 9 ∧ blockBytes .sha1 - 9 < 56 ∧ 63 < blockBytes .sha1)
      ∧ (119 ≤ blockBytes .groestl512 - 9 ∧ blockBytes .groestl512 - 9 < 120 ∧ 127 < blockBytes .groestl384) :=
  by decide

theorem test_witness_LengthFieldCountsMessage :
    let s := finalizing .groestl384 120
    ((finalizing .sha1 56).Inv ∧ (finalizing .sha1 56).phase = .absorb ∧ (finalizing .sha1 56).alg = .sha1
        ∧ (finalizing .sha1 56).seq = .finalize .pad)
      ∧ (s.Inv ∧ s.phase = .absorb ∧ s.alg ≠ .sha1 ∧ s.seq = .finalize .pad) :=
  ⟨⟨inv_finalizing_sha1_56, by decide, by decide, rfl⟩, inv_finalizing_groestl384_120, by decide, by decide, rfl⟩

/-- The ends of both ranges; test_schedule has the words of a block there. -/
theorem test_witness_ScheduleRecurrence :
    (0 < 16 ∧ 15 < 16) ∧ (16 < 80 ∧ 16 ≤ 16) ∧ (79 < 80 ∧ 16 ≤ 79) :=
  by decide

/-- The ends of the range, with two values of SHA1-ROT. -/
theorem test_witness_WordPrimitives :
    (0 < 1 ∧ 1 < 32) ∧ (0 < 31 ∧ 31 < 32)
      ∧ rotl 0x80000001 1 = 0x00000003 ∧ rotl 0x67452301 30 = 0x59d148c0 :=
  by decide

/-- The ends of the four phases. -/
theorem test_witness_Sha1RoundFollowsPhases :
    [0, 19, 20, 39, 40, 59, 60, 79].all (· < 80) = true
      ∧ [0, 19, 20, 39, 40, 59, 60, 79].map sha1K
        = [0x5A827999, 0x5A827999, 0x6ED9EBA1, 0x6ED9EBA1, 0x8F1BBCDC, 0x8F1BBCDC, 0xCA62C1D6, 0xCA62C1D6] :=
  by decide

/-- The ends of the ranges, with W16 of SHA1-SCHED. -/
theorem test_witness_WindowEqualsSchedule :
    (16 < 80 ∧ 16 ≤ 16 ∧ 1 ≤ 1 ∧ 1 ≤ 16) ∧ (79 < 80 ∧ 16 ≤ 79 ∧ 1 ≤ 16 ∧ 16 ≤ 16)
      ∧ (let blk : Vector Byte 64 := Vector.ofFn fun i => BitVec.ofNat 8 i.val;
        windowWord 16 (windowAt blk 16) = 0x38383838) :=
  by decide +kernel

theorem test_witness_GroestlStagesByEntry :
    0 < 14 ∧ 13 < 14 ∧ ([1, 3, 5, 11, 0, 2, 4, 6] : List Nat)[7]? = some 6 :=
  by decide

/-- Two matrices that agree in column 3 alone. -/
theorem test_witness_MixBytesIsLinear :
    let x := matrixOf fun r c => if c = 3 then BitVec.ofNat 8 r.val else 0
    let y := matrixOf fun r c => if c = 3 then BitVec.ofNat 8 r.val else 0xFF
    (∀ r : Fin 8, x[r][3] = y[r][3]) ∧ x ≠ y :=
  by decide +kernel

/-- The ends of the ranges, with the last byte of the empty message's SHA-1 digest. -/
theorem test_witness_DigestProjections :
    (0 < 20 ∧ 19 < 20) ∧ 2 ≤ (2 : Fin 8).val ∧ 2 ≤ (7 : Fin 8).val
      ∧ (sha1Digest #v[0xda39a3ee, 0x5e6b4b0d, 0x3255bfef, 0x95601890, 0xafd80709])[19]? = some 0x09 :=
  by decide

/-- The two clauses at 0 and at 0x53, whose inverse gives S[0x53] = 0xed of G-SBOX. -/
theorem test_witness_SboxIsAffineInverse :
    (0 : Byte) = 0 ∧ (0x53 : Byte) ≠ 0 ∧ gmul 0x53 0xCA = 1 :=
  by decide

/-- The lengths R133 names: B - 9, B - 8, B and B + 1. -/
theorem test_witness_CompressionCount :
    ((finalizing .sha1 55).Inv ∧ (finalizing .sha1 55).seq = .finalize .pad)
      ∧ ((finalizing .sha1 56).Inv ∧ (finalizing .sha1 56).seq = .finalize .pad)
      ∧ ((finalizing .groestl384 120).Inv ∧ (finalizing .groestl384 120).seq = .finalize .pad)
      ∧ [55, 56, 64, 65].map (fun n => (n + 9 + (blockBytes .sha1 - 1)) / blockBytes .sha1) = [1, 2, 2, 2] :=
  ⟨⟨inv_finalizing_sha1_55, rfl⟩, ⟨inv_finalizing_sha1_56, rfl⟩, ⟨inv_finalizing_groestl384_120, rfl⟩, by decide⟩

/-- G-MIX: the column 01 00 … 00 gives column 0 of the matrix. -/
theorem test_mixBytes_matrix :
    let m := mixBytes (matrixOf fun r _ => if r = 0 then 1 else 0)
    (List.finRange 8).map (fun r => m[r][0]) = [0x02, 0x07, 0x05, 0x03, 0x05, 0x04, 0x03, 0x02] := by decide +kernel

/-- After reset a byte of BUF holds the free value of that reset, a byte stored since holds that. -/
theorem test_bufByte :
    State.reset.bufByte 127 = Config.freeByte 0 0 127 ∧ (holding .sha1 63).bufByte 62 = 0 := ⟨rfl, rfl⟩

end Sys2Proof.Tests
end

section
/-! The command words and the decoder (30_encoding.md R93, R95), and the step that meets them. -/

namespace Sys2Proof.Machine

/-! ### The decoder at the registers -/

/-- A 32-bit write at a register's offset is decoded as a write of that register. -/
theorem decode_write (reg : Reg) (v : Word) :
    decode ⟨.write, .bits32, reg.offset, v⟩ = decodeWrite reg v := by
  cases reg <;> rfl

/-- A 32-bit read at a register's offset is decoded as a read of that register, whatever the data. -/
theorem decode_read (reg : Reg) (v : Word) :
    decode ⟨.read, .bits32, reg.offset, v⟩ = decodeRead reg := by
  cases reg <;> rfl

theorem ofOffset_eq_none {o : Int} (h : o ∉ [0x0, 0x4, 0x8, 0xC]) : Reg.ofOffset o = none := by
  unfold Reg.ofOffset
  split
  case h_5 => rfl
  all_goals exact absurd (by decide) h

/-- An access that is not 32 bits wide, or at none of the four offsets, has no decoding. -/
theorem decode_eq_undefined {a : Access} (h : a.width ≠ .bits32 ∨ a.offset ∉ [0x0, 0x4, 0x8, 0xC]) :
    decode a = .undefined := by
  by_cases hw : a.width = .bits32
  · have ho := ofOffset_eq_none (h.resolve_left (not_not_intro hw))
    simp [decode, hw, ho]
  · exact if_pos hw

/-! ### Command words -/

/-- The ALG codes but the reserved one, as R92 lists them. -/
theorem ofCode_of_ne_three {c : BitVec 2} (h : c ≠ 3) :
    Alg.ofCode c = some (if c = 0 then .sha1 else if c = 1 then .groestl512 else .groestl384) := by
  revert c
  decide

/-- The decoder's block for CMD in R95. The model tests ALG = 3 inside INIT's branch, R95 in its guard: a word
with OPC 1 that fails the guard meets none of the later ones either. -/
theorem decode_write_cmd (v : Word) :
    decode ⟨.write, .bits32, 0x0, v⟩ =
      if Cmd.rsv v ≠ 0 then .illegal
      else if Cmd.opc v = 1 ∧ Cmd.alg v ≠ 3 ∧ Cmd.len v = 0 then
        .instr (.init (if Cmd.alg v = 0 then .sha1 else if Cmd.alg v = 1 then .groestl512 else .groestl384))
      else if Cmd.opc v = 2 ∧ Cmd.alg v = 0 then .instr (.add (Cmd.len v))
      else if Cmd.opc v = 3 ∧ Cmd.alg v = 0 ∧ Cmd.len v = 0 then .instr .finalize
      else if Cmd.opc v = 4 ∧ Cmd.alg v = 0 ∧ Cmd.len v = 0 then .instr .getDigest
      else .illegal := by
  refine (decode_write .cmd v).trans ?_
  simp only [decodeWrite, decodeCmd]
  by_cases hr : Cmd.rsv v ≠ 0
  · rw [if_pos hr, if_pos hr]
  rw [if_neg hr, if_neg hr]
  by_cases hi : Cmd.opc v = 1 ∧ Cmd.len v = 0
  · obtain ⟨ho, hl⟩ := hi
    by_cases ha : Cmd.alg v = 3
    · simp [ho, hl, ha, Alg.ofCode]
    · rw [if_pos ⟨ho, hl⟩, if_pos ⟨ho, ha, hl⟩, ofCode_of_ne_three ha]
      rfl
  · have hi' : ¬(Cmd.opc v = 1 ∧ Cmd.alg v ≠ 3 ∧ Cmd.len v = 0) := fun h => hi ⟨h.1, h.2.2⟩
    rw [if_neg hi, if_neg hi']
    split_ifs <;> rfl

/-- The opcodes: the four of R92, and the reserved ones of R93. -/
theorem opcode_cases (c : BitVec 4) : c = 1 ∨ c = 2 ∨ c = 3 ∨ c = 4 ∨ c = 0 ∨ 5 ≤ c.toNat := by
  revert c
  decide

/-- The illegal command words of R93. -/
theorem decode_write_cmd_eq_illegal_iff (v : Word) :
    decode ⟨.write, .bits32, 0x0, v⟩ = .illegal ↔
      Cmd.opc v = 0 ∨ 5 ≤ (Cmd.opc v).toNat ∨ Cmd.rsv v ≠ 0 ∨ (Cmd.opc v = 1 ∧ Cmd.alg v = 3)
        ∨ (Cmd.opc v ≠ 1 ∧ Cmd.alg v ≠ 0) ∨ (Cmd.opc v ≠ 2 ∧ Cmd.len v ≠ 0) := by
  rw [decode_write_cmd]
  by_cases hr : Cmd.rsv v ≠ 0
  · rw [if_pos hr]
    exact iff_of_true rfl (.inr (.inr (.inl hr)))
  rw [if_neg hr]
  rcases opcode_cases (Cmd.opc v) with ho | ho | ho | ho | ho | ho
  · simp [ho, not_not.mp hr, or_iff_not_imp_left]
  · simp [ho, not_not.mp hr]
  · simp [ho, not_not.mp hr, imp_iff_not_or]
  · simp [ho, not_not.mp hr, imp_iff_not_or]
  · simp [ho]
  · have h1 : ∀ c : BitVec 4, c.toNat < 5 → Cmd.opc v ≠ c := by rintro c h rfl; omega
    simp [ho, h1]

/-! ### The step -/

theorem step_of_decode_illegal {s : State} {a : Access} {rest : List HostEvent}
    (hp : s.pending = .access a :: rest) (hd : decode a = .illegal) : step s = illegalCommand s := by
  simp [step, State.fetch, hp, hd]

theorem step_of_decode_undefined {s : State} {a : Access} {rest : List HostEvent}
    (hp : s.pending = .access a :: rest) (hd : decode a = .undefined) :
    step s = .refused .undefinedAccess := by
  simp [step, State.fetch, hp, hd]

theorem retire_of_pending_cons {s : State} {e : HostEvent} {rest : List HostEvent}
    (hp : s.pending = e :: rest) : s.retire = { s with pending := rest } := by
  simp [State.retire, hp]

/-! ### The obligations -/

/-- Settles O4: the set is where R95's block for CMD answers ILLEGAL, and a step at such a word is held, ignored
or a fault as `illegalCommand_cases` says. -/
theorem illegalWordsFault : Obligations.IllegalWordsFault := by
  unfold Obligations.IllegalWordsFault
  intro v opc alg rsv len illegal
  have hiff : decode ⟨.write, .bits32, 0x0, v⟩ = .illegal ↔ illegal := decode_write_cmd_eq_illegal_iff v
  refine ⟨hiff, fun hill s rest hp => ?_⟩
  have hstep := step_of_decode_illegal hp (hiff.mpr hill)
  have hret := retire_of_pending_cons hp
  rcases illegalCommand_cases s with ⟨hb, he⟩ | ⟨hb, hf, he⟩ | ⟨hb, hf, he⟩
  · simp [hb, hstep, he]
  · simp [hb, hf, hstep, he, hret]
  · simp [hb, hf, hstep, he, hret, raise_of_ne]

/-- Settles O5, clause by clause of R95. -/
theorem decoderIsTotal : Obligations.DecoderIsTotal := by
  unfold Obligations.DecoderIsTotal
  rintro ⟨dir, width, offset, v⟩
  refine ⟨?_, ?_, ?_, ?_, ?_, ?_, ?_, ?_, fun hundef s rest hp =>
    step_of_decode_undefined hp (decode_eq_undefined hundef)⟩
  all_goals rintro rfl rfl rfl
  · exact decode_write_cmd v
  · exact decode_write .din v
  · exact decode_read .dout v
  · exact decode_read .status v
  · exact decode_read .cmd v
  · exact decode_read .din v
  · exact decode_write .status v
  · exact decode_write .dout v

end Sys2Proof.Machine
end

section
/-! The SHA-1 engine (41_sha1.md R162 to R170): its schedule by entry, and its rounds as a fold. -/

namespace Sys2Proof.Machine

/-! ### The rotation (00_scope.md R7) -/

theorem rotl_eq_rotateLeft (w : Word) {n : Nat} (h : n < 32) : rotl w n = w.rotateLeft n := by
  rw [BitVec.rotateLeft_def, Nat.mod_eq_of_lt h]
  rfl

/-! ### The schedule -/

/-- One more expansion step writes word n + 16 only. -/
theorem expandTo_succ_getElem_of_ne (w0 : Vector Word 80) {n i : Nat} (hi : i < 80) (hne : i ≠ n + 16) :
    (expandTo w0 (n + 1))[i] = (expandTo w0 n)[i] := by
  rw [expandTo]
  split
  · exact Vector.getElem_set_ne _ _ hne.symm
  · rfl

/-- The expansion step that writes word n + 16 (R163). -/
theorem expandTo_succ_getElem_self (w0 : Vector Word 80) {n : Nat} (h : n + 16 < 80) :
    (expandTo w0 (n + 1))[n + 16] =
      rotl ((expandTo w0 n)[n + 13] ^^^ (expandTo w0 n)[n + 8] ^^^ (expandTo w0 n)[n + 2] ^^^ (expandTo w0 n)[n]) 1 := by
  simp only [expandTo, dif_pos h, Vector.getElem_set_self]

/-- Word i is final after n steps once i < n + 16: each later step writes above it. -/
theorem expandTo_getElem_of_le (w0 : Vector Word 80) {n m i : Nat} (hnm : n ≤ m) (hi : i < 80) (hin : i < n + 16) :
    (expandTo w0 m)[i] = (expandTo w0 n)[i] := by
  induction m, hnm using Nat.le_induction with
  | base => rfl
  | succ m hnm ih => rw [expandTo_succ_getElem_of_ne w0 hi (by omega), ih]

/-- The expanded words meet the recurrence among themselves: the words a step reads are final when it reads them. -/
theorem expandTo_recurrence (w0 : Vector Word 80) {n m : Nat} (h : n + 16 < 80) (hnm : n < m) :
    (expandTo w0 m)[n + 16] =
      rotl ((expandTo w0 m)[n + 13] ^^^ (expandTo w0 m)[n + 8] ^^^ (expandTo w0 m)[n + 2] ^^^ (expandTo w0 m)[n]) 1 := by
  have stays : ∀ i (hi : i < n + 16), (expandTo w0 m)[i] = (expandTo w0 n)[i] :=
    fun i hi => expandTo_getElem_of_le w0 hnm.le (hi.trans h) hi
  rw [expandTo_getElem_of_le w0 hnm h (by omega), expandTo_succ_getElem_self w0 h,
    stays (n + 13) (by omega), stays (n + 8) (by omega), stays (n + 2) (by omega), stays n (by omega)]

/-- Words 0 to 15 of the schedule are the block's words (R162). -/
theorem sha1Schedule_getElem_of_lt (blk : Vector Byte 64) {t : Nat} (h : t < 16) :
    (sha1Schedule blk)[t] = (sha1Words blk)[t] := by
  rw [sha1Schedule, expandTo_getElem_of_le _ (Nat.zero_le 64) (by omega) (by omega), expandTo,
    Vector.getElem_ofFn, dif_pos h]

/-- The recurrence of the schedule (R163), counted from the oldest of the words it reads. -/
theorem sha1Schedule_recurrence (blk : Vector Byte 64) {n : Nat} (h : n + 16 < 80) :
    (sha1Schedule blk)[n + 16] =
      rotl ((sha1Schedule blk)[n + 13] ^^^ (sha1Schedule blk)[n + 8]
        ^^^ (sha1Schedule blk)[n + 2] ^^^ (sha1Schedule blk)[n]) 1 :=
  expandTo_recurrence _ h (by omega)

/-! ### The rounds -/

/-- The mixing function by the last round of each phase (R165). -/
theorem sha1F_eq (t : Nat) (b c d : Word) :
    sha1F t b c d =
      if t ≤ 19 then (b &&& c) ||| (~~~b &&& d)
      else if t ≤ 39 then b ^^^ c ^^^ d
      else if t ≤ 59 then (b &&& c) ||| (b &&& d) ||| (c &&& d)
      else b ^^^ c ^^^ d := by
  simp only [sha1F, ← Nat.lt_succ_iff]

/-- The round constant by the last round of each phase (R166). -/
theorem sha1K_eq (t : Nat) :
    sha1K t =
      if t ≤ 19 then 0x5A827999
      else if t ≤ 39 then 0x6ED9EBA1
      else if t ≤ 59 then 0x8F1BBCDC
      else 0xCA62C1D6 := by
  simp only [sha1K, ← Nat.lt_succ_iff]

/-- The round's register shift with the library's rotation (R167). -/
theorem sha1Round_eq (t : Nat) (w a b c d e : Word) :
    sha1Round t w ⟨a, b, c, d, e⟩ =
      ⟨a.rotateLeft 5 + sha1F t b c d + e + sha1K t + w, a, b.rotateLeft 30, c, d⟩ := by
  rw [← rotl_eq_rotateLeft a (by decide), ← rotl_eq_rotateLeft b (by decide)]
  rfl

/-- The first n rounds are the fold of the round over the round numbers below n. -/
theorem sha1Rounds_eq_foldl (w : Vector Word 80) (x : RoundRegs) {n : Nat} (h : n ≤ 80) :
    sha1Rounds w x n = (List.finRange n).foldl (fun x t => sha1Round t.val (w[t.val]'(t.isLt.trans_le h)) x) x := by
  induction n with
  | zero => rfl
  | succ n ih =>
    rw [sha1Rounds, dif_pos (Nat.lt_of_succ_le h), ih (Nat.le_of_succ_le h), List.finRange_succ_last,
      List.foldl_append, List.foldl_map]
    rfl

/-! ### The obligations -/

/-- Settles O52: the words of the block, then the recurrence at t = n + 16. -/
theorem scheduleRecurrence : Obligations.ScheduleRecurrence := by
  unfold Obligations.ScheduleRecurrence
  intro blk
  refine ⟨fun t h => ?_, fun t h h16 => ?_⟩
  · rw [sha1Schedule_getElem_of_lt blk h, sha1Words, Vector.getElem_ofFn]
  · obtain ⟨n, rfl⟩ := Nat.exists_eq_add_of_le' h16
    exact sha1Schedule_recurrence blk h

/-- Settles O54: the round from its mixing function, constant and rotations; load and feed-forward as defined; the
compression from the rounds as a fold. -/
theorem sha1RoundFollowsPhases : Obligations.Sha1RoundFollowsPhases := by
  unfold Obligations.Sha1RoundFollowsPhases
  refine ⟨fun t w a b c d e _ => ?_, fun h => rfl, fun h a b c d e => rfl, fun h blk => ?_⟩
  · rw [sha1Round_eq, sha1F_eq, sha1K_eq]
  · rw [sha1Compress, sha1Rounds_eq_foldl _ _ le_rfl]
    rfl

end Sys2Proof.Machine
end

section
/-! The Groestl round stages and the block mapping (42_groestl.md R200, R205 to R211), entry by entry. -/

namespace Sys2Proof.Machine

/-! ### Matrices by entry -/

theorem getElem_matrixOf (f : Fin 8 → Fin 16 → Byte) (r : Fin 8) (c : Fin 16) :
    (matrixOf f)[r][c] = f r c := by
  simp [matrixOf]

theorem getElem_xorMatrix (x y : ByteMatrix) (r : Fin 8) (c : Fin 16) :
    (xorMatrix x y)[r][c] = x[r][c] ^^^ y[r][c] :=
  getElem_matrixOf _ r c

/-! ### The block mapping (R200) -/

theorem getElem_msgOf (blk : Vector Byte 128) (r : Fin 8) (c : Fin 16) :
    (msgOf blk)[r][c] = blk[c.val * 8 + r.val] :=
  getElem_matrixOf _ r c

theorem getElem_serialise (m : ByteMatrix) (r : Fin 8) (c : Fin 16) :
    (serialise m)[c.val * 8 + r.val] = m[r][c] := by
  have hrow : (c.val * 8 + r.val) % 8 = r.val := by omega
  have hcol : (c.val * 8 + r.val) / 8 = c.val := by omega
  simp only [serialise, Vector.getElem_ofFn, hrow, hcol, Fin.getElem_fin]

/-- Byte k of a block stands in row k mod 8 of column k / 8. -/
theorem exists_eq_column_mul_add_row {k : Nat} (h : k < 128) :
    ∃ (r : Fin 8) (c : Fin 16), k = c.val * 8 + r.val :=
  ⟨⟨k % 8, Nat.mod_lt k (by decide)⟩, ⟨k / 8, Nat.div_lt_of_lt_mul h⟩, (Nat.div_add_mod' k 8).symm⟩

theorem serialise_msgOf (blk : Vector Byte 128) : serialise (msgOf blk) = blk := by
  ext k hk : 1
  obtain ⟨r, c, rfl⟩ := exists_eq_column_mul_add_row hk
  exact (getElem_serialise (msgOf blk) r c).trans (getElem_msgOf blk r c)

/-! ### The round constants -/

/-- A round index below 16 fills the low nibble that i << 4 leaves free (R205). -/
theorem roundByte_xor_columnByte : ∀ {rnd : Nat}, rnd < 16 → ∀ c : Fin 16,
    roundByte rnd ^^^ columnByte c = BitVec.ofNat 8 (16 * c.val + rnd) := by
  decide

/-- ((15 − i) << 4) | 0x0F is the complement of i << 4 (R206). -/
theorem columnByte_rev_or : ∀ c : Fin 16,
    columnByte (15 - c) ||| 0x0F = 0xFF ^^^ BitVec.ofNat 8 (16 * c.val) := by
  decide

/-! ### The stages by entry -/

theorem getElem_arcP (m : ByteMatrix) {rnd : Nat} (h : rnd < 16) (r : Fin 8) (c : Fin 16) :
    (arcP m rnd)[r][c] = if r.val = 0 then m[r][c] ^^^ BitVec.ofNat 8 (16 * c.val + rnd) else m[r][c] := by
  rw [arcP, getElem_matrixOf, roundByte_xor_columnByte h]
  exact if_congr Fin.ext_iff rfl rfl

theorem getElem_arcQ (m : ByteMatrix) (rnd : Nat) (r : Fin 8) (c : Fin 16) :
    (arcQ m rnd)[r][c] =
      if r.val = 7 then m[r][c] ^^^ BitVec.ofNat 8 rnd ^^^ 0xFF ^^^ BitVec.ofNat 8 (16 * c.val)
      else m[r][c] ^^^ 0xFF := by
  rw [arcQ, getElem_matrixOf, columnByte_rev_or, ← BitVec.xor_assoc, ← BitVec.xor_assoc]
  exact if_congr Fin.ext_iff rfl rfl

theorem getElem_subBytes (m : ByteMatrix) (r : Fin 8) (c : Fin 16) : (subBytes m)[r][c] = sbox m[r][c] :=
  getElem_matrixOf _ r c

theorem getElem_shiftBytes (sigma : Vector Nat 8) (m : ByteMatrix) (r : Fin 8) (c : Fin 16) :
    (shiftBytes sigma m)[r][c] = m[r][(c.val + sigma[r]) % 16] :=
  getElem_matrixOf _ r c

/-- σP moves row r by r, but row 7 by 11 (R207). -/
theorem getElem_sigmaP : ∀ r : Fin 8, sigmaP[r] = if r.val = 7 then 11 else r.val := by
  decide

/-! ### The permutations -/

/-- The first n rounds are the fold of the round over the round numbers below n. -/
theorem permRounds_eq_foldl (round : ByteMatrix → Nat → ByteMatrix) (m : ByteMatrix) (n : Nat) :
    permRounds round m n = (List.range n).foldl round m := by
  induction n with
  | zero => rfl
  | succ n ih => rw [permRounds, ih, List.range_succ, List.foldl_append, List.foldl_cons, List.foldl_nil]

/-! ### The obligation -/

/-- Settles O58: each stage by its entries, a round as defined, the permutations from their rounds as a fold, and
the block mapping with its inverse. -/
theorem groestlStagesByEntry : Obligations.GroestlStagesByEntry := by
  unfold Obligations.GroestlStagesByEntry
  refine ⟨fun m rnd h r c => ⟨getElem_arcP m (by omega) r c, getElem_arcQ m rnd r c, getElem_subBytes m r c, ?_, ?_⟩,
    fun m rnd => ⟨rfl, rfl⟩, fun m => ⟨permRounds_eq_foldl roundP m 14, permRounds_eq_foldl roundQ m 14⟩,
    getElem_xorMatrix, getElem_msgOf, getElem_serialise, serialise_msgOf⟩
  · simp only [getElem_shiftBytes, getElem_sigmaP]
  · intro k hk
    have hsigma : sigmaQ[r] = k := by simpa [sigmaQ] using hk
    simp only [getElem_shiftBytes, hsigma]

end Sys2Proof.Machine
end

section
/-! Faults: the legality of the commands, fault entry and the fault state (60_exceptions.md R260 to R264). -/

namespace Sys2Proof.Machine

/-! ### The four commands -/

/-- A row of the table of R261. -/
def IsCommand (i : Instr) : Prop :=
  (∃ alg, i = .init alg) ∨ (∃ len, i = .add len) ∨ i = .finalize ∨ i = .getDigest

/-- While bytes are owed no command is legal (10_state.md R37). -/
theorem legal_of_owed {i : Instr} (hi : IsCommand i) (phase : Phase) {n : BitVec 24} (hn : n ≠ 0) :
    legal i phase n = false := by
  have hn' : (n == 0) = false := beq_false_of_ne hn
  rcases hi with ⟨alg, rfl⟩ | ⟨len, rfl⟩ | rfl | rfl <;> simp only [legal, hn', Bool.false_and]

/-- Outside FAULT the effect either raises no fault, or is LENGTH_OVERFLOW's fault entry. -/
def NoFaultOrOverflow (perform : State → State) : Prop :=
  ∀ s : State, s.phase ≠ .fault →
    ((perform s).phase ≠ .fault ∧ (perform s).fcode = s.fcode) ∨ perform s = s.raise .lengthOverflow

theorem initContext_fcode (alg : Alg) (s : State) : (initContext alg s).fcode = s.fcode := by
  cases alg <;> rfl

theorem initContext_noFaultOrOverflow (alg : Alg) : NoFaultOrOverflow (initContext alg) :=
  fun s _ => .inl ⟨nofun, initContext_fcode alg s⟩

theorem announce_noFaultOrOverflow (len : BitVec 24) : NoFaultOrOverflow (announce len) := by
  intro s hp
  by_cases hover : s.total.toNat + len.toNat > maxMsgBytes
  · exact .inr (if_pos hover)
  · rw [announce, if_neg hover]
    exact .inl ⟨hp, rfl⟩

/-- The four commands are one shape: `command`, around an effect that raises LENGTH_OVERFLOW at most (R263). -/
theorem exec_of_isCommand {i : Instr} (hi : IsCommand i) :
    ∃ perform, NoFaultOrOverflow perform ∧ ∀ s, exec i s = command i perform s := by
  rcases hi with ⟨alg, rfl⟩ | ⟨len, rfl⟩ | rfl | rfl
  · exact ⟨initContext alg, initContext_noFaultOrOverflow alg, fun _ => rfl⟩
  · exact ⟨announce len, announce_noFaultOrOverflow len, fun _ => rfl⟩
  · exact ⟨State.startJob (.finalize .pad), fun _ hp => .inl ⟨hp, rfl⟩, fun _ => rfl⟩
  · exact ⟨armDigest, fun _ hp => .inl ⟨hp, rfl⟩, fun _ => rfl⟩

/-! ### The steps of a job -/

theorem outputStep_running_phase {stage : Stage} {s t : State} (h : outputStep stage s = .running t) :
    t.phase = s.phase := by
  rcases outputStep_cases stage s with ⟨-, e⟩ | ⟨-, -, e⟩ | ⟨-, -, e⟩ <;> cases e.symm.trans h <;> rfl

theorem blockStep_running_phase {stage : Stage} {s t : State} (h : blockStep stage s = .running t) :
    t.phase = s.phase := by
  rw [blockStep_running h]

theorem blockStep_finished_phase {stage : Stage} {s t : State} (h : blockStep stage s = .finished t) :
    t.phase = s.phase := by
  rcases blockStep_finished h with ⟨-, rfl⟩ | ⟨-, rfl⟩ <;> rfl

theorem afterPadding_phase (s : State) : (afterPadding s).phase = s.phase ∨ (afterPadding s).phase = .final := by
  unfold afterPadding
  split
  · exact .inr rfl
  · exact .inl rfl
  · exact .inl rfl

theorem padStep_phase {l : List Byte} {s t : State} (h : padStep l s = .next t) :
    t.phase = s.phase ∨ t.phase = .final := by
  obtain ⟨u, rest, hfill, hnext⟩ := padStep_next h
  have hu : u.phase = s.phase := by rw [(fillBlock_some hfill).1]
  rcases hnext with ⟨-, rfl⟩ | ⟨-, rfl⟩
  · exact .inl hu
  · exact hu ▸ afterPadding_phase u

/-- A step of a job keeps PHASE or, at the end of a FINALIZE job, enters FINAL: no job raises a fault (R260). -/
theorem engineStep_phase {s t : State} (h : s.engineStep = .next t) :
    t.phase = s.phase ∨ t.phase = .final := by
  rcases engineStep_next h with ⟨-, rfl⟩ | ⟨_, u, -, hu, rfl⟩ | ⟨_, u, -, hu, rfl⟩ | ⟨-, hpad⟩
    | ⟨_, _, u, -, hu, rfl⟩ | ⟨_, _, u, -, hu, hpad⟩ | ⟨_, u, -, hu, rfl⟩ | ⟨_, u, -, -, rfl⟩
  · exact .inl rfl
  · exact .inl (blockStep_running_phase (t := u) hu)
  · exact .inl (blockStep_finished_phase (t := u) hu)
  · exact padStep_phase hpad
  · exact .inl (blockStep_running_phase (t := u) hu)
  · have hend : u.endBlock.phase = s.phase := blockStep_finished_phase (t := u) hu
    exact hend ▸ padStep_phase hpad
  · exact .inl (outputStep_running_phase (t := u) hu)
  · exact .inr rfl

theorem engineStep_ne_fault {s t : State} (h : s.engineStep = .next t) (hp : s.phase ≠ .fault) :
    t.phase ≠ .fault := by
  rcases engineStep_phase h with e | e <;> rw [e]
  · exact hp
  · nofun

/-! ### What an instruction can do to PHASE and FCODE -/

/-- The ways an instruction takes s to t, as far as faults go: it is held, it raises no fault, or it raises one, the
host having gone on and, for a DOUT read, received 0. -/
inductive FaultEffect (i : Instr) (s t : State) : Prop
  | held (busy : s.busy = true) (job : s.engineStep = .next t)
  | noFault (phase : t.phase = .fault ↔ s.phase = .fault) (fcode : t.fcode = s.fcode)
  | entry (u : State) (code : FCode) (busy : s.busy = false) (phase : s.phase ≠ .fault) (ne : code ≠ .none)
    (taken : u = s.retire ∨ i = .readDout ∧ u = s.retire.respond 0) (raised : t = u.raise code)

theorem command_faultEffect {i : Instr} {perform : State → State} (hperform : NoFaultOrOverflow perform)
    {s t : State} (h : command i perform s = .next t) : FaultEffect i s t := by
  rcases command_cases i perform s with ⟨hb, e⟩ | ⟨-, -, e⟩ | ⟨hb, hp, -, e⟩ | ⟨hb, hp, -, e⟩ <;> rw [e] at h
  · exact .held hb h
  · cases h
    exact .noFault .rfl rfl
  · cases h
    rcases hperform s.retire hp with ⟨hp', hf⟩ | hover
    · exact .noFault (iff_of_false hp' hp) hf
    · exact .entry s.retire .lengthOverflow hb hp nofun (.inl rfl) hover
  · cases h
    exact .entry s.retire .sequence hb hp nofun (.inl rfl) rfl

theorem countByte_phase (s : State) : (countByte s).phase = s.phase := by
  unfold countByte
  dsimp only
  split <;> rfl

theorem countByte_fcode (s : State) : (countByte s).fcode = s.fcode := by
  unfold countByte
  dsimp only
  split <;> rfl

theorem execWriteDin_faultEffect {b : Byte} {s t : State} (h : execWriteDin b s = .next t) :
    FaultEffect (.writeDin b) s t := by
  rcases execWriteDin_cases b s with ⟨hb, e⟩ | ⟨-, -, e⟩ | ⟨hb, hp, -, e⟩ | ⟨-, -, -, -, e⟩ | ⟨-, -, -, -, e⟩ <;>
    rw [e] at h
  · exact .held hb h
  · cases h
    exact .noFault .rfl rfl
  · cases h
    exact .entry s.retire .dinUnexpected hb hp nofun (.inl rfl) rfl
  · cases h
    exact .noFault (by rw [countByte_phase]; rfl) (countByte_fcode _)
  · cases h

theorem execReadDout_faultEffect {s t : State} (h : execReadDout s = .next t) : FaultEffect .readDout s t := by
  rcases execReadDout_cases s with ⟨hb, e⟩ | ⟨-, -, e⟩ | ⟨hb, hp, -, e⟩ | ⟨_, -, -, -, -, e⟩ | ⟨-, -, -, -, e⟩ <;>
    rw [e] at h
  · exact .held hb h
  · cases h
    exact .noFault .rfl rfl
  · cases h
    exact .entry (s.retire.respond 0) .doutEmpty hb hp nofun (.inr ⟨rfl, rfl⟩) rfl
  · cases h
    exact .noFault .rfl rfl
  · cases h

theorem execReadWo_next {reg : Reg} {s t : State} (h : execReadWo reg s = .next t) : t = s.retire.respond 0 := by
  unfold execReadWo at h
  split at h <;> cases h
  rfl

theorem execWriteRo_next {reg : Reg} {s t : State} (h : execWriteRo reg s = .next t) : t = s.retire := by
  unfold execWriteRo at h
  split at h <;> cases h
  rfl

theorem exec_faultEffect {i : Instr} {s t : State} (h : exec i s = .next t) : FaultEffect i s t := by
  have hcommand : IsCommand i → FaultEffect i s t := fun hi => by
    obtain ⟨perform, hperform, he⟩ := exec_of_isCommand hi
    exact command_faultEffect hperform (he s ▸ h)
  cases i with
  | init alg => exact hcommand (.inl ⟨alg, rfl⟩)
  | add len => exact hcommand (.inr (.inl ⟨len, rfl⟩))
  | finalize => exact hcommand (.inr (.inr (.inl rfl)))
  | getDigest => exact hcommand (.inr (.inr (.inr rfl)))
  | writeDin b => exact execWriteDin_faultEffect h
  | readStatus =>
    cases h
    exact .noFault .rfl rfl
  | readDout => exact execReadDout_faultEffect h
  | readWo reg =>
    cases execReadWo_next h
    exact .noFault .rfl rfl
  | writeRo reg =>
    cases execWriteRo_next h
    exact .noFault .rfl rfl

/-! ### The fault state -/

/-- In FAULT an instruction taken raises nothing: PHASE and FCODE keep their values (R264). -/
theorem exec_keeps_fault {i : Instr} {s t : State} (h : exec i s = .next t) (hp : s.phase = .fault)
    (hb : s.busy = false) : t.phase = .fault ∧ t.fcode = s.fcode := by
  cases exec_faultEffect h with
  | held hb' => exact absurd hb' (by simp [hb])
  | noFault hphase hf => exact ⟨hphase.mpr hp, hf⟩
  | entry _ _ _ hp' => exact absurd hp hp'

theorem illegalCommand_of_fault {s : State} (hp : s.phase = .fault) (hb : s.busy = false) :
    illegalCommand s = .next s.retire := by
  simp [illegalCommand, hp, hb]

theorem exec_command_of_fault {i : Instr} (hi : IsCommand i) {s : State} (hp : s.phase = .fault)
    (hb : s.busy = false) : exec i s = .next s.retire := by
  obtain ⟨perform, -, he⟩ := exec_of_isCommand hi
  simp [he, command, hp, hb]

theorem execWriteDin_of_fault (b : Byte) {s : State} (hp : s.phase = .fault) (hb : s.busy = false) :
    execWriteDin b s = .next s.retire := by
  simp [execWriteDin, hp, hb]

theorem execReadDout_of_fault {s : State} (hp : s.phase = .fault) (hb : s.busy = false) :
    execReadDout s = .next (s.retire.respond 0) := by
  simp [execReadDout, hp, hb]

/-- Every step of an engine in FAULT but a reset keeps it there, with its first code. -/
theorem step_keeps_fault {s t : State} (h : step s = .next t) (hreset : s.fetch ≠ .reset) (hp : s.phase = .fault)
    (hb : s.busy = false) : t.phase = .fault ∧ t.fcode = s.fcode := by
  unfold step at h
  cases hfetch : s.fetch <;> simp only [hfetch] at h
  case nothing =>
    have hquiet : s.quietStep = .next s.retire := by simp [State.quietStep, hb]
    cases hquiet.symm.trans h
    exact ⟨hp, rfl⟩
  case reset => exact absurd hfetch hreset
  case instr i => exact exec_keeps_fault h hp hb
  case illegal =>
    cases (illegalCommand_of_fault hp hb).symm.trans h
    exact ⟨hp, rfl⟩
  case undefined => cases h

/-! ### The STATUS word's fault fields (10_state.md R44) -/

theorem status_phase_field (s : State) : s.status.extractLsb' 1 2 = s.phase.code := by
  ext i hi
  interval_cases i <;> simp [State.status, flagAt]

theorem status_fcode_field (s : State) : s.status.extractLsb' 8 4 = s.fcode.code := by
  ext i hi
  interval_cases i <;> simp [State.status, flagAt]

/-! ### The obligations -/

/-- Settles O13: the table's entries by `legal`'s cases, and the two outcomes by `command_cases`. -/
theorem legalityTable : Obligations.LegalityTable := by
  unfold Obligations.LegalityTable
  refine ⟨fun alg n hn => ⟨rfl, rfl, legal_of_owed (.inl ⟨alg, rfl⟩) _ hn, rfl⟩,
    fun len n hn => ⟨rfl, rfl, legal_of_owed (.inr (.inl ⟨len, rfl⟩)) _ hn, rfl⟩,
    fun n hn => ⟨rfl, rfl, legal_of_owed (.inr (.inr (.inl rfl))) _ hn, rfl⟩,
    fun n hn => ⟨rfl, rfl, legal_of_owed (.inr (.inr (.inr rfl))) _ hn, rfl⟩,
    fun i s hi hb hp => ?_⟩
  obtain ⟨perform, hperform, he⟩ := exec_of_isCommand hi
  have hret : s.retire.phase ≠ .fault := hp
  refine ⟨fun hl => ?_, fun hl hf => ⟨perform s.retire, by simp [he, command, hb, hp, hl], ?_⟩⟩
  · have hfault : command i perform s = .next (s.retire.raise .sequence) := by simp [command, hb, hp, hl]
    rw [he, hfault, raise_of_ne _ _ hret]
    rfl
  · rcases hperform s.retire hret with ⟨-, hsame⟩ | hover
    · exact hsame ▸ hf
    · simp [hover, raise_of_ne _ _ hret]

/-- Settles O26: a held access's step of the job raises nothing, and what is left of `exec_faultEffect` is the
entry. -/
theorem faultEntryIsPrecise : Obligations.FaultEntryIsPrecise := by
  unfold Obligations.FaultEntryIsPrecise
  refine fun s t => ⟨fun i h hp ht => ?_, fun h hp ht => ?_, fun i h hp hb => exec_keeps_fault h hp hb⟩
  · cases exec_faultEffect h with
    | held _ hstep => exact absurd ht (engineStep_ne_fault hstep hp)
    | noFault hphase => exact absurd (hphase.mp ht) hp
    | entry u code hb _ hcode htaken hraised =>
      rcases htaken with rfl | ⟨hi, rfl⟩
      · obtain rfl := hraised.trans (raise_of_ne s.retire code hp)
        exact ⟨hb, hcode, rfl, .inl rfl⟩
      · obtain rfl := hraised.trans (raise_of_ne (s.retire.respond 0) code hp)
        exact ⟨hb, hcode, rfl, .inr ⟨hi, rfl⟩⟩
  · rcases illegalCommand_cases s with ⟨-, e⟩ | ⟨-, hp', -⟩ | ⟨hb, -, e⟩
    · exact absurd ht (engineStep_ne_fault (e.symm.trans h) hp)
    · exact absurd hp' hp
    · cases e.symm.trans h
      exact ⟨hb, raise_of_ne s.retire _ hp⟩

/-- Settles O27, clause by clause of R264; `step_keeps_fault` is its last line. -/
theorem faultIsSticky : Obligations.FaultIsSticky := by
  unfold Obligations.FaultIsSticky
  refine fun s hp hb => ⟨fun i hi => ?_, illegalCommand_of_fault hp hb, execReadDout_of_fault hp hb,
    ⟨s.status, rfl, ?_, status_fcode_field s⟩, fun t h hreset => step_keeps_fault h hreset hp hb⟩
  · rcases hi with hi | hi | hi | hi | ⟨b, rfl⟩
    · exact exec_command_of_fault (.inl hi) hp hb
    · exact exec_command_of_fault (.inr (.inl hi)) hp hb
    · exact exec_command_of_fault (.inr (.inr (.inl hi))) hp hb
    · exact exec_command_of_fault (.inr (.inr (.inr hi))) hp hb
    · exact execWriteDin_of_fault b hp hb
  · rw [status_phase_field, hp]
    rfl

end Sys2Proof.Machine
end

section
/-! The encoder and the decoder (30_encoding.md R91 to R96): the fields of a command word, and that each of the
two undoes the other. -/

namespace Sys2Proof.Machine

/-! ### The fields of a packed word (R91) -/

section

variable (len : BitVec 24) (rsv alg : BitVec 2) (opc : BitVec 4)

/-- A bit of a packed word lies in the field whose bits reach over it. -/
theorem getLsbD_pack (i : Nat) :
    (Cmd.pack len rsv alg opc).getLsbD i =
      if i < 4 then opc.getLsbD i else if i < 6 then alg.getLsbD (i - 4)
      else if i < 8 then rsv.getLsbD (i - 6) else len.getLsbD (i - 8) := by
  simp only [Cmd.pack, BitVec.getLsbD_append]
  grind

@[simp] theorem opc_pack : Cmd.opc (Cmd.pack len rsv alg opc) = opc := by
  refine BitVec.eq_of_getLsbD_eq fun i hi => ?_
  simp [Cmd.opc, getLsbD_pack, hi]

@[simp] theorem alg_pack : Cmd.alg (Cmd.pack len rsv alg opc) = alg := by
  refine BitVec.eq_of_getLsbD_eq fun i hi => ?_
  simp [Cmd.alg, getLsbD_pack, hi, show 4 + i < 6 by omega]

@[simp] theorem rsv_pack : Cmd.rsv (Cmd.pack len rsv alg opc) = rsv := by
  refine BitVec.eq_of_getLsbD_eq fun i hi => ?_
  simp [Cmd.rsv, getLsbD_pack, hi, show 6 + i < 8 by omega, show ¬6 + i < 4 by omega]

@[simp] theorem len_pack : Cmd.len (Cmd.pack len rsv alg opc) = len := by
  refine BitVec.eq_of_getLsbD_eq fun i hi => ?_
  simp [Cmd.len, getLsbD_pack, hi, show ¬8 + i < 4 by omega, show ¬8 + i < 6 by omega]

end

/-- The four fields are the whole word. -/
theorem pack_fields (v : Word) : Cmd.pack (Cmd.len v) (Cmd.rsv v) (Cmd.alg v) (Cmd.opc v) = v := by
  refine BitVec.eq_of_getLsbD_eq fun i hi => ?_
  simp only [getLsbD_pack, Cmd.opc, Cmd.alg, Cmd.rsv, Cmd.len, BitVec.getLsbD_extractLsb']
  split_ifs with h4 h6 h8
  · simp [h4]
  · simp [show i - 4 < 2 by omega, show 4 + (i - 4) = i by omega]
  · simp [show i - 6 < 2 by omega, show 6 + (i - 6) = i by omega]
  · simp [show i - 8 < 24 by omega, show 8 + (i - 8) = i by omega]

/-- The algorithm of a code that is not the reserved one has that code (R92). -/
theorem code_of_ne_three {c : BitVec 2} (h : c ≠ 3) :
    (if c = 0 then Alg.sha1 else if c = 1 then .groestl512 else .groestl384).code = c := by
  revert c
  decide

/-! ### The obligations -/

/-- Settles O1: the words are closed. -/
theorem decodeReadsSpecWords : Obligations.DecodeReadsSpecWords := by
  unfold Obligations.DecodeReadsSpecWords
  decide

/-- Settles O2: a command word by its fields, the other accesses by their register. -/
theorem decodeEncodeIsIdentity : Obligations.DecodeEncodeIsIdentity := by
  unfold Obligations.DecodeEncodeIsIdentity
  intro i hi
  cases i with
  | init alg =>
    refine (decode_write_cmd _).trans ?_
    cases alg <;> simp [Alg.code]
  | add len =>
    refine (decode_write_cmd _).trans ?_
    simp
  | finalize => rfl
  | getDigest => rfl
  | writeDin b =>
    have hbyte : Din.byte (b.setWidth 32) = b := by
      rw [Din.byte, BitVec.extractLsb'_setWidth_of_le (by decide), BitVec.extractLsb'_eq_self]
    exact (decode_write .din _).trans (by rw [decodeWrite, hbyte])
  | readStatus => rfl
  | readDout => rfl
  | readWo reg =>
    cases reg with
    | cmd | din => rfl
    | dout | status => cases hi
  | writeRo reg =>
    cases reg with
    | dout | status => rfl
    | cmd | din => cases hi

/-- Settles O3: in each branch of R95's block for CMD the guard names every field of the word, and `pack_fields`
puts them together again. -/
theorem commandHasOneWord : Obligations.CommandHasOneWord := by
  unfold Obligations.CommandHasOneWord
  intro v i h
  have hv := pack_fields v
  rw [decode_write_cmd] at h
  split at h
  · cases h
  rename_i hr
  rw [not_not.mp hr] at hv
  split at h
  · rename_i hfields
    obtain ⟨ho, ha, hl⟩ := hfields
    cases h
    rw [ho, hl, ← code_of_ne_three ha] at hv
    exact congrArg (writeAccess .cmd) hv
  split at h
  · rename_i hfields
    obtain ⟨ho, ha⟩ := hfields
    cases h
    rw [ho, ha] at hv
    exact congrArg (writeAccess .cmd) hv
  split at h
  · rename_i hfields
    obtain ⟨ho, ha, hl⟩ := hfields
    cases h
    rw [ho, ha, hl] at hv
    exact congrArg (writeAccess .cmd) hv
  split at h
  · rename_i hfields
    obtain ⟨ho, ha, hl⟩ := hfields
    cases h
    rw [ho, ha, hl] at hv
    exact congrArg (writeAccess .cmd) hv
  · cases h

end Sys2Proof.Machine
end

section
/-! One step of the machine at each head of the host's list, and what the commands and accesses do and leave
unchanged (40_block_engine.md R110 to R120, 70_reset_and_hazards.md R290). -/

namespace Sys2Proof.Machine

/-! ### The step at each head of the list -/

theorem step_of_pending_nil {s : State} (hp : s.pending = []) : step s = s.quietStep := by
  simp [step, State.fetch, hp]

theorem step_of_pending_idle {s : State} {rest : List HostEvent} (hp : s.pending = .idle :: rest) :
    step s = s.quietStep := by
  simp [step, State.fetch, hp]

theorem step_of_pending_reset {s : State} {rest : List HostEvent} (hp : s.pending = .reset :: rest) :
    step s = .next s.platformReset := by
  simp [step, State.fetch, hp]

theorem step_of_decode_instr {s : State} {a : Access} {rest : List HostEvent} {i : Instr}
    (hp : s.pending = .access a :: rest) (hd : decode a = .instr i) : step s = exec i s := by
  simp [step, State.fetch, hp, hd]

theorem step_of_encode {s : State} {i : Instr} {rest : List HostEvent} (hi : i.wellFormed = true)
    (hp : s.pending = .access (encode i) :: rest) : step s = exec i s :=
  step_of_decode_instr hp (decodeEncodeIsIdentity i hi)

theorem retire_of_pending_nil {s : State} (hp : s.pending = []) : s.retire = s := by
  have htail : s.pending.tail = s.pending := by rw [hp]; rfl
  rw [State.retire, htail]

theorem quietStep_of_busy {s : State} (hb : s.busy = true) : s.quietStep = s.retire.engineStep := if_pos hb

theorem quietStep_of_not_busy {s : State} (hb : s.busy = false) : s.quietStep = .next s.retire := by
  simp [State.quietStep, hb]

/-! ### The commands taken -/

/-- A legal command is performed when it is taken. -/
theorem command_of_legal {ins : Instr} (perform : State → State) {s : State} (hb : s.busy = false)
    (hp : s.phase ≠ .fault) (hl : legal ins s.phase s.addRemain = true) :
    command ins perform s = .next (perform s.retire) := by
  simp [command, hb, hp, hl]

/-- INIT is legal outside FAULT with no byte owed (R261). -/
theorem legal_init {alg : Alg} {phase : Phase} (hp : phase ≠ .fault) : legal (.init alg) phase 0 = true := by
  cases phase
  case fault => exact absurd rfl hp
  all_goals rfl

/-- An initial Groestl matrix by entry (R214). -/
theorem getElem_ivMatrix (b6 b7 : Byte) (r : Fin 8) (c : Fin 16) :
    (ivMatrix b6 b7)[r][c] = if r = 6 ∧ c = 15 then b6 else if r = 7 ∧ c = 15 then b7 else 0 := by
  rw [ivMatrix, getElem_matrixOf]
  by_cases hc : c = 15 <;> simp [hc]

/-- Settles O9: the effect of INIT on a state that has gone on. -/
theorem initLoadsContext : Obligations.InitLoadsContext := by
  unfold Obligations.InitLoadsContext
  intro alg s hb hp ha
  have hexec : exec (.init alg) s = .next (initContext alg s.retire) :=
    command_of_legal _ hb hp (ha ▸ legal_init hp)
  refine ⟨_, hexec, ?_, ?_, ?_, ?_⟩
  · cases alg <;> rfl
  · rintro rfl
    exact ⟨rfl, rfl⟩
  · rintro rfl
    refine ⟨rfl, fun r c => (getElem_ivMatrix 0x02 0x00 r c).trans ?_⟩
    simp
  · rintro rfl
    exact ⟨rfl, getElem_ivMatrix 0x01 0x80⟩

theorem announce_of_le {len : BitVec 24} {s : State} (h : s.total.toNat + len.toNat ≤ maxMsgBytes) :
    announce len s = { s with addRemain := len } :=
  if_neg (not_lt.mpr h)

theorem announce_of_lt {len : BitVec 24} {s : State} (h : maxMsgBytes < s.total.toNat + len.toNat) :
    announce len s = s.raise .lengthOverflow :=
  if_pos h

/-- Settles O10: `announce` on the two sides of the bound. -/
theorem addAnnouncesBytes : Obligations.AddAnnouncesBytes := by
  unfold Obligations.AddAnnouncesBytes
  intro n s hb hp ha
  have hexec : exec (.add n) s = .next (announce n s.retire) :=
    command_of_legal _ hb (by simp [hp]) (by simp [legal, hp, ha])
  rw [hexec]
  refine ⟨fun hle => ?_, fun hlt => ?_⟩
  · exact congrArg _ (announce_of_le (s := s.retire) hle)
  · rw [announce_of_lt (s := s.retire) hlt, raise_of_ne _ _ (by simp [hp])]
    rfl

/-- Settles O11. -/
theorem finalizeStartsJob : Obligations.FinalizeStartsJob := by
  unfold Obligations.FinalizeStartsJob
  intro s hb hp ha
  exact command_of_legal _ hb (by simp [hp]) (by simp [legal, hp, ha])

/-- Settles O12. -/
theorem getDigestArmsOutput : Obligations.GetDigestArmsOutput := by
  unfold Obligations.GetDigestArmsOutput
  intro s hb hp ha
  have hexec : exec .getDigest s = .next (armDigest s.retire) :=
    command_of_legal _ hb (by simp [hp]) (by simp [legal, hp, ha])
  rw [hexec]
  cases halg : s.alg <;> simp [armDigest, State.retire, halg, digestBytes]

/-! ### What the commands leave unchanged -/

/-- What the frame of a command says of the state t it leaves. -/
structure CommandFrameAt (i : Instr) (s t : State) : Prop where
  buf : t.buf = s.buf
  working : t.regs = s.regs ∧ t.win = s.win ∧ t.t = s.t ∧ t.pm = s.pm ∧ t.qm = s.qm ∧ t.r = s.r
  host : t.reads = s.reads ∧ t.pending = s.pending.tail ∧ t.bufDraw = s.bufDraw ∧ t.engine = s.engine
  init : (∀ alg, i ≠ .init alg) → t.alg = s.alg ∧ t.h = s.h ∧ t.g = s.g ∧ t.bufLen = s.bufLen
    ∧ t.total = s.total ∧ t.blocks = s.blocks ∧ t.draws = s.draws ∧ (t.phase = s.phase ∨ t.phase = .fault)
  add : (∀ alg, i ≠ .init alg) → (∀ len, i ≠ .add len) → t.addRemain = s.addRemain
  getDigest : (∀ alg, i ≠ .init alg) → i ≠ .getDigest → t.doutRemain = s.doutRemain
  finalize : i ≠ .finalize → t.busy = s.busy ∧ t.seq = s.seq
  fcode : t.phase ≠ .fault ∨ s.phase = .fault → t.fcode = s.fcode

/-- An ignored command. -/
theorem commandFrameAt_retire (i : Instr) (s : State) : CommandFrameAt i s s.retire where
  buf := rfl
  working := ⟨rfl, rfl, rfl, rfl, rfl, rfl⟩
  host := ⟨rfl, rfl, rfl, rfl⟩
  init _ := ⟨rfl, rfl, rfl, rfl, rfl, rfl, rfl, .inl rfl⟩
  add _ _ := rfl
  getDigest _ _ := rfl
  finalize _ := ⟨rfl, rfl⟩
  fcode _ := rfl

/-- A command that raises a fault. -/
theorem commandFrameAt_raise (i : Instr) {s : State} (code : FCode) (hp : s.phase ≠ .fault) :
    CommandFrameAt i s (s.retire.raise code) where
  buf := raise_buf _ _
  working := by simp
  host := by simp
  init _ := by simp
  add _ _ := by simp
  getDigest _ _ := by simp
  finalize _ := by simp
  fcode h := absurd h (by simp [hp])

theorem commandFrameAt_initContext (alg : Alg) (s : State) :
    CommandFrameAt (.init alg) s (initContext alg s.retire) := by
  have hinit : initContext alg s.retire =
      { s.retire with
        h := (initContext alg s.retire).h, g := (initContext alg s.retire).g, draws := s.draws + 1
        alg := alg, bufLen := 0, total := 0, blocks := 0, addRemain := 0, doutRemain := 0, phase := .absorb } := by
    cases alg <;> rfl
  rw [hinit]
  exact ⟨rfl, ⟨rfl, rfl, rfl, rfl, rfl, rfl⟩, ⟨rfl, rfl, rfl, rfl⟩, fun h => absurd rfl (h alg),
    fun h => absurd rfl (h alg), fun h => absurd rfl (h alg), fun _ => ⟨rfl, rfl⟩, fun _ => rfl⟩

theorem commandFrameAt_announce (len : BitVec 24) {s : State} (hp : s.phase ≠ .fault) :
    CommandFrameAt (.add len) s (announce len s.retire) := by
  unfold announce
  split
  · exact commandFrameAt_raise _ _ hp
  · exact ⟨rfl, ⟨rfl, rfl, rfl, rfl, rfl, rfl⟩, ⟨rfl, rfl, rfl, rfl⟩,
      fun _ => ⟨rfl, rfl, rfl, rfl, rfl, rfl, rfl, .inl rfl⟩, fun _ h => absurd rfl (h len), fun _ _ => rfl,
      fun _ => ⟨rfl, rfl⟩, fun _ => rfl⟩

theorem commandFrameAt_startFinalize (s : State) :
    CommandFrameAt .finalize s (s.retire.startJob (.finalize .pad)) :=
  ⟨rfl, ⟨rfl, rfl, rfl, rfl, rfl, rfl⟩, ⟨rfl, rfl, rfl, rfl⟩,
    fun _ => ⟨rfl, rfl, rfl, rfl, rfl, rfl, rfl, .inl rfl⟩, fun _ _ => rfl, fun _ _ => rfl,
    fun h => absurd rfl h, fun _ => rfl⟩

theorem commandFrameAt_armDigest (s : State) : CommandFrameAt .getDigest s (armDigest s.retire) :=
  ⟨rfl, ⟨rfl, rfl, rfl, rfl, rfl, rfl⟩, ⟨rfl, rfl, rfl, rfl⟩,
    fun _ => ⟨rfl, rfl, rfl, rfl, rfl, rfl, rfl, .inl rfl⟩, fun _ _ => rfl, fun _ h => absurd rfl h,
    fun _ => ⟨rfl, rfl⟩, fun _ => rfl⟩

/-- A command taken has its frame where its effect has it. -/
theorem command_frame {i : Instr} {perform : State → State} {s t : State} (hb : s.busy = false)
    (hperform : s.phase ≠ .fault → CommandFrameAt i s (perform s.retire)) (h : command i perform s = .next t) :
    CommandFrameAt i s t := by
  rcases command_cases i perform s with ⟨hb', -⟩ | ⟨-, -, e⟩ | ⟨-, hp, -, e⟩ | ⟨-, hp, -, e⟩
  · simp [hb] at hb'
  · cases e.symm.trans h
    exact commandFrameAt_retire i s
  · cases e.symm.trans h
    exact hperform hp
  · cases e.symm.trans h
    exact commandFrameAt_raise i _ hp

theorem exec_command_frame {i : Instr} {s t : State} (hi : IsCommand i) (hb : s.busy = false)
    (h : exec i s = .next t) : CommandFrameAt i s t := by
  rcases hi with ⟨alg, rfl⟩ | ⟨len, rfl⟩ | rfl | rfl
  · exact command_frame hb (fun _ => commandFrameAt_initContext alg s) h
  · exact command_frame hb (fun hp => commandFrameAt_announce len hp) h
  · exact command_frame hb (fun _ => commandFrameAt_startFinalize s) h
  · exact command_frame hb (fun _ => commandFrameAt_armDigest s) h

/-- Settles O14: the frame of each command's effect, of an ignored command and of a fault. -/
theorem commandFrame : Obligations.CommandFrame := by
  unfold Obligations.CommandFrame
  intro i s t hi hb h
  obtain ⟨hbuf, ⟨hregs, hwin, ht, hpm, hqm, hr⟩, ⟨hreads, hpending, hdraw, hengine⟩, hinit, hadd, hget, hfin, hf⟩ :=
    exec_command_frame hi hb h
  exact ⟨fun a => by rw [hbuf], hregs, hwin, ht, hpm, hqm, hr, hreads, hpending, hdraw, hengine, hinit, hadd, hget,
    hfin, hf⟩

end Sys2Proof.Machine
end

section
/-! The register accesses (40_block_engine.md R115 to R120), reset and the idle step, and the model's own stops. -/

namespace Sys2Proof.Machine

/-! ### Storing a message byte (R120) -/

/-- BUF_LEN does not wrap where BUF has the index. -/
theorem bufLen_succ_toNat {s : State} (h : s.bufLen.toNat < bufBytes) :
    (s.bufLen + 1).toNat = s.bufLen.toNat + 1 := by
  have h128 : s.bufLen.toNat < 128 := h
  rw [BitVec.toNat_add_of_lt] <;> simp; omega

/-- The state with b stored and counted (R120), before a full block starts its job. -/
def storeByte (b : Byte) (s : State) : State :=
  { s with
    buf := s.buf.write s.bufLen.toNat b, bufLen := s.bufLen + 1, total := s.total + 1
    addRemain := s.addRemain - 1, pending := s.pending.tail }

/-- WRITE_DIN with a byte owed and room for it: a full block starts its job. -/
theorem execWriteDin_of_owed (b : Byte) {s : State} (hb : s.busy = false) (hp : s.phase ≠ .fault)
    (ha : s.addRemain ≠ 0) (hl : s.bufLen.toNat < bufBytes) :
    execWriteDin b s = .next (if s.bufLen.toNat + 1 = blockBytes s.alg
      then (storeByte b s).startJob (.compress .load) else storeByte b s) := by
  rcases execWriteDin_cases b s with ⟨hb', -⟩ | ⟨-, hp', -⟩ | ⟨-, -, ha', -⟩ | ⟨-, -, -, -, e⟩ | ⟨-, -, -, hl', -⟩
  · simp [hb] at hb'
  · exact absurd hp' hp
  · exact absurd ha' ha
  · rw [e, ← bufLen_succ_toNat hl]
    rfl
  · omega

/-- Settles O15: `storeByte`, with the job where the block is full. -/
theorem writeDinStoresByte : Obligations.WriteDinStoresByte := by
  unfold Obligations.WriteDinStoresByte
  intro b s hb hp ha hl
  have hother : ∀ a, a ≠ s.bufLen.toNat → (storeByte b s).buf.read a = s.buf.read a :=
    fun a h => read_write_other _ _ h.symm
  refine ⟨_, execWriteDin_of_owed b hb hp ha hl, ?_⟩
  by_cases hfull : s.bufLen.toNat + 1 = blockBytes s.alg
  · rw [if_pos hfull]
    exact ⟨rfl, read_write_same _ _ _, hother, fun _ => ⟨rfl, rfl⟩, fun h => absurd hfull h⟩
  · rw [if_neg hfull]
    exact ⟨rfl, read_write_same _ _ _, hother, fun h => absurd h hfull, fun _ => ⟨hb, rfl⟩⟩

/-- Settles O16. -/
theorem unexpectedByteFaults : Obligations.UnexpectedByteFaults := by
  unfold Obligations.UnexpectedByteFaults
  intro b s hb hp ha
  have hexec : exec (.writeDin b) s = .next (s.retire.raise .dinUnexpected) := by
    simp [exec, execWriteDin, hb, hp, ha]
  rw [hexec, raise_of_ne _ _ (by simpa using hp)]
  rfl

/-- Settles O17: what is taken is ignored, a fault, or `storeByte`. -/
theorem writeDinFrame : Obligations.WriteDinFrame := by
  unfold Obligations.WriteDinFrame
  intro b s t hb h
  have h : execWriteDin b s = .next t := h
  rcases execWriteDin_cases b s with ⟨hb', -⟩ | ⟨-, -, e⟩ | ⟨-, hp, -, e⟩ | ⟨-, hp, ha, hl, -⟩ | ⟨-, -, -, -, e⟩
  · simp [hb] at hb'
  · cases e.symm.trans h
    simp
  · cases e.symm.trans h
    simp [hp]
  · cases (execWriteDin_of_owed b hb hp ha hl).symm.trans h
    have hother : ∀ a, a ≠ s.bufLen.toNat → (storeByte b s).buf.read a = s.buf.read a :=
      fun a h => read_write_other _ _ h.symm
    split
    · simp_all [storeByte]
    · simp_all [storeByte]
  · cases e.symm.trans h

/-! ### STATUS (10_state.md R44) -/

theorem status_busy_bit (s : State) : s.status.getLsbD 0 = s.busy := by
  simp [State.status, flagAt]

theorem status_alg_field (s : State) : s.status.extractLsb' 4 2 = s.alg.code := by
  ext i hi
  interval_cases i <;> simp [State.status, flagAt]

theorem status_owed_bit (s : State) : s.status.getLsbD 6 = decide (s.addRemain ≠ 0) := by
  simp [State.status, flagAt, bne, beq_eq_decide]

theorem status_armed_bit (s : State) : s.status.getLsbD 7 = decide (s.doutRemain ≠ 0) := by
  simp [State.status, flagAt, bne, beq_eq_decide]

theorem status_reserved_bit (s : State) : s.status.getLsbD 3 = false := by
  simp [State.status, flagAt]

theorem status_reserved_field (s : State) : s.status.extractLsb' 12 20 = 0 := by
  ext i hi
  interval_cases i <;> simp [State.status, flagAt]

/-- After reset STATUS is 0 (70_reset_and_hazards.md R290). -/
theorem status_reset : State.reset.status = 0 := by decide

/-- Settles O18, field by field. -/
theorem statusRegister : Obligations.StatusRegister := by
  unfold Obligations.StatusRegister
  refine ⟨fun s => ⟨s.status, rfl, status_busy_bit s, status_phase_field s, status_reserved_bit s,
    status_alg_field s, status_owed_bit s, status_armed_bit s, status_fcode_field s, status_reserved_field s⟩,
    fun s => rfl, status_reset⟩

/-! ### The other accesses -/

theorem length_digest (s : State) : s.digest.length = digestBytes s.alg := by
  unfold State.digest
  split <;> rename_i halg
  · rw [halg]
    rfl
  · rw [halg, groestlDigest512, Vector.length_toList]
    rfl
  · rw [halg, groestlDigest384, Vector.length_toList]
    rfl

/-- An armed digest byte is there (R116, R117). -/
theorem nextDigestByte_of_armed {s : State} (h0 : s.doutRemain ≠ 0) (hle : s.doutRemain.toNat ≤ digestBytes s.alg) :
    ∃ b, s.digest[digestBytes s.alg - s.doutRemain.toNat]? = some b ∧ s.nextDigestByte = some b := by
  have hpos : 0 < s.doutRemain.toNat := by
    rw [Nat.pos_iff_ne_zero]
    exact fun h => h0 (BitVec.eq_of_toNat_eq h)
  have hlt : digestBytes s.alg - s.doutRemain.toNat < s.digest.length := by rw [length_digest]; omega
  exact ⟨_, List.getElem?_eq_getElem hlt, by rw [State.nextDigestByte, if_pos hle, List.getElem?_eq_getElem hlt]⟩

/-- READ_DOUT with a byte armed (R116). -/
theorem execReadDout_of_armed {s : State} {b : Byte} (hb : s.busy = false) (hp : s.phase ≠ .fault)
    (h0 : s.doutRemain ≠ 0) (hn : s.nextDigestByte = some b) :
    execReadDout s = .next { s.retire.respond (zext32 b) with doutRemain := s.doutRemain - 1 } := by
  rw [execReadDout, if_neg (by simp [hb]), if_neg hp, if_neg h0, hn]

/-- Settles O19. -/
theorem readDoutReturnsNextByte : Obligations.ReadDoutReturnsNextByte := by
  unfold Obligations.ReadDoutReturnsNextByte
  intro s hb hp h0 hle
  obtain ⟨b, hget, hnext⟩ := nextDigestByte_of_armed h0 hle
  exact ⟨b, hget, execReadDout_of_armed hb hp h0 hnext⟩

/-- Settles O20. -/
theorem emptyReadFaults : Obligations.EmptyReadFaults := by
  unfold Obligations.EmptyReadFaults
  intro s hb hp h0
  have hexec : exec .readDout s = .next ((s.retire.respond 0).raise .doutEmpty) := by
    simp [exec, execReadDout, hb, hp, h0]
  rw [hexec, raise_of_ne _ _ (by simpa using hp)]
  rfl

/-- Settles O21. -/
theorem plainAccessesCompleteAlways : Obligations.PlainAccessesCompleteAlways := by
  unfold Obligations.PlainAccessesCompleteAlways
  exact fun s => ⟨rfl, rfl, rfl, rfl⟩

/-- Settles O22: the four ill-formed instructions, none of which `decode_wellFormed` allows. -/
theorem illFormedOperandsAreRefused : Obligations.IllFormedOperandsAreRefused := by
  unfold Obligations.IllFormedOperandsAreRefused
  intro i hi
  refine ⟨fun s => ?_, fun a ha => by simp [decode_wellFormed ha] at hi⟩
  cases i with
  | readWo reg => exact if_neg (by simpa [Instr.wellFormed] using hi)
  | writeRo reg => exact if_pos (by simpa [Instr.wellFormed] using hi)
  | _ => cases hi

/-- What READ_DOUT leaves when it is taken: its answer, and either one armed byte less or a fault. -/
theorem execReadDout_frame {s t : State} (hb : s.busy = false) (h : execReadDout s = .next t) :
    t = { s with
      doutRemain := t.doutRemain, phase := t.phase, fcode := t.fcode, reads := t.reads
      pending := s.pending.tail } := by
  rcases execReadDout_cases s with ⟨hb', -⟩ | ⟨-, -, e⟩ | ⟨-, hp, -, e⟩ | ⟨_, -, -, -, -, e⟩ | ⟨-, -, -, -, e⟩
  · simp [hb] at hb'
  · cases e.symm.trans h
    rfl
  · cases e.symm.trans h
    rw [raise_of_ne _ _ (by simpa using hp)]
    rfl
  · cases e.symm.trans h
    rfl
  · cases e.symm.trans h

/-- Settles O24, access by access. -/
theorem readFrame : Obligations.ReadFrame := by
  unfold Obligations.ReadFrame
  rintro i s t (rfl | rfl | ⟨reg, rfl⟩ | ⟨reg, rfl⟩) hb h
  · cases h
    exact ⟨fun _ => rfl, rfl, fun _ => ⟨rfl, rfl, rfl⟩⟩
  · have hframe := execReadDout_frame (hb.resolve_right (not_not_intro rfl)) h
    exact ⟨fun a => by rw [hframe], hframe, fun h => absurd rfl h⟩
  · cases execReadWo_next h
    exact ⟨fun _ => rfl, rfl, fun _ => ⟨rfl, rfl, rfl⟩⟩
  · cases execWriteRo_next h
    exact ⟨fun _ => rfl, rfl, fun _ => ⟨rfl, rfl, rfl⟩⟩

/-! ### The model's own stops -/

/-- Both Groestl algorithms have 128-byte blocks (00_scope.md R3). -/
theorem blockBytes_of_ne_sha1 {alg : Alg} (h : alg ≠ .sha1) : blockBytes alg = 128 := by
  cases alg
  · exact absurd rfl h
  · rfl
  · rfl

/-- A datapath step at a load whose block is not all there stops (70_reset_and_hazards.md R291). -/
theorem blockStep_load_none {s : State} (h : s.readBlock (blockBytes s.alg) = none) :
    blockStep .load s = .stopped .unspecifiedRead := by
  rcases blockStep_cases .load s with ⟨ha, e⟩ | ⟨ha, e⟩
  · rw [ha] at h
    exact e.trans (sha1LoadStep_none h)
  · rw [blockBytes_of_ne_sha1 ha] at h
    exact e.trans (groestlLoadStep_none h)

theorem padStep_cons_of_full {x : Byte} {l : List Byte} {s : State} (h : bufBytes ≤ s.bufLen.toNat) :
    padStep (x :: l) s = .fault .bufferIndex := by
  have hpush : s.bufPush x = none := if_neg (not_lt.mpr h)
  simp [padStep, fillBlock, hpush]

/-- Settles O23, stop by stop. -/
theorem modelStopsByName : Obligations.ModelStopsByName := by
  unfold Obligations.ModelStopsByName
  refine fun s => ⟨fun b hb hp ha hl => ?_, fun hb hp h0 hlt => ?_, fun hseq hl => ?_, fun hseq ⟨a, ha, hnone⟩ => ?_⟩
  · have hpush : s.retire.bufPush b = none := if_neg (not_lt.mpr hl)
    exact (show execWriteDin b s = _ by rw [execWriteDin, if_neg (by simp [hb]), if_neg hp, if_neg ha, hpush])
  · have hnext : s.nextDigestByte = none := if_neg (not_le.mpr hlt)
    exact (show execReadDout s = _ by rw [execReadDout, if_neg (by simp [hb]), if_neg hp, if_neg h0, hnext])
  · simp only [State.engineStep, hseq, finalizeJobStep]
    exact padStep_cons_of_full hl
  · have hstop := blockStep_load_none (readBlock_none ha hnone)
    rcases hseq with hseq | ⟨rest, hseq⟩
    · simp [State.engineStep, hseq, compressJobStep, hstop]
    · simp [State.engineStep, hseq, finalizeJobStep, hstop]

/-! ### The step: instructions, idle steps and reset -/

/-- Settles O6. -/
theorem stepRunsDecodedInstruction : Obligations.StepRunsDecodedInstruction := by
  unfold Obligations.StepRunsDecodedInstruction
  exact fun s a rest i hp hd => ⟨step_of_decode_instr hp hd, decode_wellFormed hd⟩

/-- Settles O7: the quiet step, of a list at its end or of an idle entry. -/
theorem quietStepRunsTheJob : Obligations.QuietStepRunsTheJob := by
  unfold Obligations.QuietStepRunsTheJob
  refine fun s => ⟨fun hp hb => ?_, fun hp hb => ?_, fun rest hp hb => ?_, fun rest hp hb => ?_⟩
  · rw [step_of_pending_nil hp, quietStep_of_busy hb, retire_of_pending_nil hp]
  · rw [step_of_pending_nil hp, quietStep_of_not_busy hb, retire_of_pending_nil hp]
  · rw [step_of_pending_idle hp, quietStep_of_busy hb, retire_of_pending_cons hp]
  · rw [step_of_pending_idle hp, quietStep_of_not_busy hb, retire_of_pending_cons hp]

/-- Settles O8: nothing is stored in BUF right after a reset, so each byte is the free value of its draw. -/
theorem resetSetsControlState : Obligations.ResetSetsControlState := by
  unfold Obligations.ResetSetsControlState
  intro s rest hp
  exact ⟨s.platformReset, step_of_pending_reset hp, rfl, rfl, rfl, rfl, rfl, rfl, rfl, rfl, rfl, rfl, status_reset,
    by simp [State.platformReset, hp], rfl, fun a => bufByte_of_none rfl⟩

end Sys2Proof.Machine
end

section
/-! The word primitives (00_scope.md R7, R11), the window scheduler (41_sha1.md R164) and the digests (41_sha1.md
R171, 42_groestl.md R215, R216). -/

namespace Sys2Proof.Machine

/-! ### Words and their bytes -/

/-- A bit of a word lies in the byte whose bits reach over it. -/
theorem getLsbD_be32 (b0 b1 b2 b3 : Byte) (i : Nat) :
    (be32 b0 b1 b2 b3).getLsbD i =
      if i < 8 then b3.getLsbD i else if i < 16 then b2.getLsbD (i - 8)
      else if i < 24 then b1.getLsbD (i - 16) else b0.getLsbD (i - 24) := by
  simp only [be32, BitVec.getLsbD_append]
  grind

theorem be32_toNat (b0 b1 b2 b3 : Byte) :
    (be32 b0 b1 b2 b3).toNat = b0.toNat * 2 ^ 24 + b1.toNat * 2 ^ 16 + b2.toNat * 2 ^ 8 + b3.toNat := by
  have happend : ∀ {n : Nat} (x : BitVec n) (y : Byte), (x ++ y).toNat = x.toNat * 2 ^ 8 + y.toNat := fun x y => by
    rw [BitVec.toNat_append, Nat.shiftLeft_eq, mul_comm, ← Nat.two_pow_add_eq_or_of_lt y.isLt]
  rw [be32, happend, happend, happend]
  ring

/-- The byte of a word at bit n is what its bits n to n + 7 are. -/
theorem extractLsb'_eq_of_getLsbD {w : Word} {b : Byte} {n : Nat} (h : ∀ i < 8, w.getLsbD (n + i) = b.getLsbD i) :
    w.extractLsb' n 8 = b := by
  refine BitVec.eq_of_getLsbD_eq fun i hi => ?_
  rw [BitVec.getLsbD_extractLsb', decide_eq_true hi, Bool.true_and, h i hi]

theorem be32bytes_be32 (b0 b1 b2 b3 : Byte) : be32bytes (be32 b0 b1 b2 b3) = [b0, b1, b2, b3] := by
  rw [be32bytes, extractLsb'_eq_of_getLsbD (b := b0), extractLsb'_eq_of_getLsbD (b := b1),
    extractLsb'_eq_of_getLsbD (b := b2), extractLsb'_eq_of_getLsbD (b := b3)]
  all_goals
    intro i hi
    rw [getLsbD_be32]
    simp (disch := omega) only [if_pos, if_neg, Nat.add_sub_cancel_left, Nat.zero_add]

/-- Settles O53. -/
theorem wordPrimitives : Obligations.WordPrimitives := by
  unfold Obligations.WordPrimitives
  exact ⟨fun b0 b1 b2 b3 => ⟨be32_toNat b0 b1 b2 b3, be32bytes_be32 b0 b1 b2 b3⟩,
    fun w n _ h => rotl_eq_rotateLeft w h⟩

/-! ### The window -/

/-- Up to round 16 the window is the block. -/
theorem windowAt_of_le (blk : Vector Byte 64) {t : Nat} (h : t ≤ 16) : windowAt blk t = sha1Words blk := by
  induction t with
  | zero => rfl
  | succ t ih => rw [windowAt, ih (by omega), windowNext, if_pos (by omega)]

/-- The window at round t holds the 16 words of the schedule before it (R164). -/
def WindowHolds (blk : Vector Byte 64) (t : Nat) : Prop :=
  ∀ (k : Nat) (_ : t ≤ k + 16) (hk : k < t) (ht : t ≤ 80),
    (windowAt blk t)[k % 16]'(Nat.mod_lt k (by decide)) = (sha1Schedule blk)[k]

/-- From round 16 on the round's word is the schedule's, where the window holds the words before it. -/
theorem windowWord_of_holds (blk : Vector Byte 64) {t : Nat} (hw : WindowHolds blk t) (h16 : 16 ≤ t) (h : t < 80) :
    windowWord t (windowAt blk t) = (sha1Schedule blk)[t] := by
  obtain ⟨n, rfl⟩ := Nat.exists_eq_add_of_le' h16
  have h0 := hw n (by omega) (by omega) (by omega)
  have h2 := hw (n + 2) (by omega) (by omega) (by omega)
  have h8 := hw (n + 8) (by omega) (by omega) (by omega)
  have h13 := hw (n + 13) (by omega) (by omega) (by omega)
  rw [sha1Schedule_recurrence blk h, windowWord, if_neg (by omega), ← h0, ← h2, ← h8, ← h13]
  simp only [Nat.add_mod_right, Nat.mod_add_mod]

/-- A round replaces the oldest word of the window by its own, so the window goes on to hold the last 16. -/
theorem windowHolds (blk : Vector Byte 64) {t : Nat} (h16 : 16 ≤ t) : WindowHolds blk t := by
  induction t, h16 using Nat.le_induction with
  | base =>
    intro k _ hk _
    simp only [windowAt_of_le blk le_rfl, Nat.mod_eq_of_lt hk]
    exact (sha1Schedule_getElem_of_lt blk hk).symm
  | succ t h16 ih =>
    intro k hk hkt ht
    have hnext : windowAt blk (t + 1) = (windowAt blk t).set (t % 16) (windowWord t (windowAt blk t)) := by
      rw [windowAt, windowNext, if_neg (by omega)]
    by_cases hkt' : k = t
    · subst hkt'
      simp only [hnext, Vector.getElem_set_self]
      exact windowWord_of_holds blk ih h16 ht
    · simp only [hnext]
      rw [Vector.getElem_set_ne _ _ (by omega)]
      exact ih k (by omega) (by omega) (by omega)

theorem windowWord_windowAt (blk : Vector Byte 64) {t : Nat} (h : t < 80) :
    windowWord t (windowAt blk t) = (sha1Schedule blk)[t] := by
  by_cases h16 : t < 16
  · simp only [windowAt_of_le blk h16.le, windowWord, if_pos h16, Nat.mod_eq_of_lt h16]
    exact (sha1Schedule_getElem_of_lt blk h16).symm
  · exact windowWord_of_holds blk (windowHolds blk (not_lt.mp h16)) (not_lt.mp h16) h

/-- Settles O55: by induction on t the window holds the last 16 words of the schedule. -/
theorem windowEqualsSchedule : Obligations.WindowEqualsSchedule := by
  unfold Obligations.WindowEqualsSchedule
  exact fun blk => ⟨fun t h => windowWord_windowAt blk h,
    fun t k h h16 hk hk16 => windowHolds blk h16 (t - k) (by omega) (by omega) h.le⟩

/-! ### The digests -/

/-- The five words of H, byte by byte (R171). -/
theorem getElem?_sha1Digest (h : Vector Word 5) {k : Nat} (hk : k < 20) :
    (sha1Digest h)[k]? = some (h[k / 4].extractLsb' (24 - 8 * (k % 4)) 8) := by
  interval_cases k <;> rfl

/-- A Groestl digest of n columns is the last 8·n bytes of G's serialisation: its byte k is the serialisation's
byte 8·(16 − n) + k. -/
theorem serialise_drop (g : ByteMatrix) {n : Nat} (hn : n ≤ 16) (f : Fin (8 * n) → Byte)
    (hf : ∀ k : Fin (8 * n), f k = g[k.val % 8][k.val / 8 + (16 - n)]) :
    (Vector.ofFn f).toList = (serialise g).toList.drop (128 - 8 * n) := by
  refine List.ext_getElem (by simp; omega) fun k hk hk' => ?_
  have hk : k < 8 * n := by simpa using hk
  have hmod : (128 - 8 * n + k) % 8 = k % 8 := by omega
  have hdiv : (128 - 8 * n + k) / 8 = k / 8 + (16 - n) := by omega
  simp [serialise, hf, hmod, hdiv]

/-- Settles O60: SHA-1's bytes by their place, Groestl's as the end of the serialisation. -/
theorem digestProjections : Obligations.DigestProjections := by
  unfold Obligations.DigestProjections
  refine ⟨fun h => ⟨rfl, fun k hk => getElem?_sha1Digest h hk⟩, fun g => ⟨Vector.length_toList, fun r c => ?_,
    serialise_drop g (n := 8) (by decide) _ fun k => rfl⟩, fun g => ⟨Vector.length_toList, fun r c hc => ?_,
    serialise_drop g (n := 6) (by decide) _ fun k => rfl⟩⟩
  · have hk : c.val * 8 + r.val < 64 := by omega
    have hmod : (c.val * 8 + r.val) % 8 = r.val := by omega
    have hdiv : (c.val * 8 + r.val) / 8 = c.val := by omega
    simp [groestlDigest512, hk, hmod, hdiv]
  · have hk : (c.val - 2) * 8 + r.val < 48 := by omega
    have hmod : ((c.val - 2) * 8 + r.val) % 8 = r.val := by omega
    have hdiv : ((c.val - 2) * 8 + r.val) / 8 + 2 = c.val := by omega
    simp [groestlDigest384, hk, hmod, hdiv]

end Sys2Proof.Machine
end

section
/-! The field of the Groestl engine (42_groestl.md R202 to R204) and MixBytes (R209). -/

namespace Sys2Proof.Machine

/-! ### xtime and gmul (R203) -/

theorem xtime_xor : ∀ x y : Byte, xtime (x ^^^ y) = xtime x ^^^ xtime y := by
  intro x y
  have hshift : (x ^^^ y) <<< 1 = x <<< 1 ^^^ y <<< 1 := BitVec.shiftLeft_xor_distrib x y 1
  rw [xtime, xtime, xtime, hshift, BitVec.getLsbD_xor]
  cases x.getLsbD 7 <;> cases y.getLsbD 7 <;> simp [BitVec.xor_assoc, BitVec.xor_comm]
  ac_rfl

theorem iterate_xtime_xor (k : Nat) (x y : Byte) : xtime^[k] (x ^^^ y) = xtime^[k] x ^^^ xtime^[k] y := by
  induction k generalizing x y with
  | zero => rfl
  | succ k ih => rw [Function.iterate_succ_apply, xtime_xor, ih]; rfl

/-- The sum (XOR) of f over a list. -/
def xorSum {α : Type} (l : List α) (f : α → Byte) : Byte := (l.map f).foldl (· ^^^ ·) 0

theorem xorSum_nil {α : Type} (f : α → Byte) : xorSum [] f = 0 := rfl

theorem xorSum_cons {α : Type} (a : α) (l : List α) (f : α → Byte) : xorSum (a :: l) f = f a ^^^ xorSum l f := by
  rw [xorSum, xorSum, List.map_cons, List.foldl_cons, BitVec.xor_comm 0, List.foldl_assoc]

theorem xorSum_map {α β : Type} (g : α → β) (l : List α) (f : β → Byte) :
    xorSum (l.map g) f = xorSum l fun k => f (g k) := by
  simp [xorSum, Function.comp_def]

theorem xorSum_xor {α : Type} (l : List α) (f g : α → Byte) :
    xorSum l (fun k => f k ^^^ g k) = xorSum l f ^^^ xorSum l g := by
  induction l with
  | nil => simp [xorSum_nil]
  | cons a l ih =>
    rw [xorSum_cons, xorSum_cons, xorSum_cons, ih]
    ac_rfl

/-- The part of a product that bit k of the second factor gives. -/
def gmulTerm (x y : Byte) (k : Nat) : Byte := if y.getLsbD k = true then xtime^[k] x else 0

/-- The loop adds one term in each turn. -/
theorem gmulLoop_eq (n : Nat) (acc x y : Byte) :
    gmulLoop n acc x y = acc ^^^ xorSum (List.range n) (gmulTerm x y) := by
  induction n generalizing acc x y with
  | zero => simp [gmulLoop, xorSum_nil]
  | succ n ih =>
    have hterms : (fun k => gmulTerm x y (k + 1)) = gmulTerm (xtime x) (y >>> 1) := by
      funext k
      simp [gmulTerm, Nat.add_comm 1 k]
    have hfirst : (if y.getLsbD 0 = true then acc ^^^ x else acc) = acc ^^^ gmulTerm x y 0 := by
      unfold gmulTerm
      split
      · rfl
      · exact BitVec.xor_zero.symm
    rw [gmulLoop, ih, List.range_succ_eq_map, xorSum_cons, xorSum_map, hterms, ← BitVec.xor_assoc, hfirst]

theorem gmul_eq_xorSum (x y : Byte) : gmul x y = xorSum (List.range 8) (gmulTerm x y) := by
  rw [gmul, gmulLoop_eq]
  exact BitVec.zero_xor

theorem gmulTerm_xor_left (x y z : Byte) (k : Nat) :
    gmulTerm (x ^^^ y) z k = gmulTerm x z k ^^^ gmulTerm y z k := by
  unfold gmulTerm
  split
  · exact iterate_xtime_xor k x y
  · rfl

theorem gmulTerm_xor_right (x y z : Byte) (k : Nat) :
    gmulTerm x (y ^^^ z) k = gmulTerm x y k ^^^ gmulTerm x z k := by
  rw [gmulTerm, gmulTerm, gmulTerm, BitVec.getLsbD_xor]
  cases y.getLsbD k <;> cases z.getLsbD k <;> simp

theorem gmul_xor_left (x y z : Byte) : gmul (x ^^^ y) z = gmul x z ^^^ gmul y z := by
  simp only [gmul_eq_xorSum, ← xorSum_xor, ← gmulTerm_xor_left]

theorem gmul_xor_right (x y z : Byte) : gmul x (y ^^^ z) = gmul x y ^^^ gmul x z := by
  simp only [gmul_eq_xorSum, ← xorSum_xor, ← gmulTerm_xor_right]

/-- A byte is the sum of its bits. -/
theorem eq_xorSum_bits : ∀ x : Byte,
    x = xorSum (List.finRange 8) fun k => if x.getLsbD k = true then BitVec.twoPow 8 k else 0 := by
  decide +kernel

/-- What holds of 0 and of the single bits, and is kept by XOR, holds of every byte. -/
theorem byte_induction {p : Byte → Prop} (zero : p 0) (bit : ∀ k : Fin 8, p (BitVec.twoPow 8 k))
    (xor : ∀ x y, p x → p y → p (x ^^^ y)) (x : Byte) : p x := by
  have key : ∀ l : List (Fin 8), p (xorSum l fun k => if x.getLsbD k = true then BitVec.twoPow 8 k else 0) := by
    intro l
    induction l with
    | nil => exact zero
    | cons k l ih =>
      rw [xorSum_cons]
      refine xor _ _ ?_ ih
      split
      · exact bit k
      · exact zero
  rw [eq_xorSum_bits x]
  exact key _

/-- The product commutes on single bits. -/
theorem gmul_twoPow_comm : ∀ i j : Fin 8,
    gmul (BitVec.twoPow 8 i) (BitVec.twoPow 8 j) = gmul (BitVec.twoPow 8 j) (BitVec.twoPow 8 i) := by
  decide

theorem gmul_zero_left : ∀ x : Byte, gmul 0 x = 0 := by decide

theorem gmul_zero_right : ∀ x : Byte, gmul x 0 = 0 := by decide

/-- Both sides are linear in both factors, so the single bits decide. -/
theorem gmul_comm (x y : Byte) : gmul x y = gmul y x := by
  induction x using byte_induction with
  | zero => rw [gmul_zero_left, gmul_zero_right]
  | xor x x' hx hx' => rw [gmul_xor_left, gmul_xor_right, hx, hx']
  | bit i =>
    induction y using byte_induction with
    | zero => rw [gmul_zero_left, gmul_zero_right]
    | xor y y' hy hy' => rw [gmul_xor_left, gmul_xor_right, hy, hy']
    | bit j => exact gmul_twoPow_comm i j

theorem gmul_small : ∀ x : Byte, gmul x 1 = x ∧ gmul x 0 = 0 ∧ gmul x 2 = xtime x ∧ gmul x 3 = xtime x ^^^ x := by
  decide

/-- Settles O57. -/
theorem gmulLaws : Obligations.GmulLaws := by
  unfold Obligations.GmulLaws
  exact ⟨fun x => rfl, gmul_eq_xorSum, gmul_small, gmul_comm, gmul_xor_right⟩

/-! ### The substitution table (R202) -/

/-- R202's affine map undone. -/
def affineInverse (y : Byte) : Byte := y.rotateLeft 1 ^^^ y.rotateLeft 3 ^^^ y.rotateLeft 6 ^^^ 0x05

/-- The inverse in the field, and 0 for 0, read off the table. -/
def gfInverse (x : Byte) : Byte := affineInverse (sbox x)

/-- Each entry is the affine map of the inverse of its index. -/
theorem sbox_affine : ∀ x : Byte, (x = 0 → gfInverse x = 0) ∧ (x ≠ 0 → gmul x (gfInverse x) = 1)
    ∧ sbox x = gfInverse x ^^^ (gfInverse x).rotateLeft 1 ^^^ (gfInverse x).rotateLeft 2
      ^^^ (gfInverse x).rotateLeft 3 ^^^ (gfInverse x).rotateLeft 4 ^^^ 0x63 := by
  decide +kernel

/-- The index of an entry: the affine map and then the field inverse undone. -/
def sboxIndex (y : Byte) : Byte := gfInverse (affineInverse y)

theorem sboxIndex_sbox : Function.LeftInverse sboxIndex sbox :=
  show ∀ x : Byte, sboxIndex (sbox x) = x by decide +kernel

theorem sbox_sboxIndex : Function.RightInverse sboxIndex sbox :=
  show ∀ y : Byte, sbox (sboxIndex y) = y by decide +kernel

theorem sbox_ne_self : ∀ x : Byte, sbox x ≠ x := by decide +kernel

/-- Settles O56: the inverse table, and the inverse in the field as the witness of each entry. -/
theorem sboxIsAffineInverse : Obligations.SboxIsAffineInverse := by
  unfold Obligations.SboxIsAffineInverse
  exact ⟨Function.bijective_iff_has_inverse.mpr ⟨sboxIndex, sboxIndex_sbox, sbox_sboxIndex⟩, sbox_ne_self,
    fun x => ⟨gfInverse x, sbox_affine x⟩⟩

/-! ### MixBytes (R204, R209) -/

/-- An entry of MixBytes is the sum over its column of the products with the matrix's row. -/
theorem getElem_mixBytes (m : ByteMatrix) (i : Fin 8) (c : Fin 16) :
    (mixBytes m)[i][c] = xorSum (List.finRange 8) fun k => gmul (mixEntry i k) m[k][c] := by
  rw [mixBytes, getElem_matrixOf]
  simp [xorSum, List.finRange]

theorem matrix_ext {x y : ByteMatrix} (h : ∀ (r : Fin 8) (c : Fin 16), x[r][c] = y[r][c]) : x = y := by
  ext r hr c hc : 2
  exact h ⟨r, hr⟩ ⟨c, hc⟩

theorem mixBytes_xorMatrix (x y : ByteMatrix) :
    mixBytes (xorMatrix x y) = xorMatrix (mixBytes x) (mixBytes y) := by
  refine matrix_ext fun i c => ?_
  simp only [getElem_xorMatrix, getElem_mixBytes, gmul_xor_right, xorSum_xor]

/-- Settles O59. -/
theorem mixBytesIsLinear : Obligations.MixBytesIsLinear := by
  unfold Obligations.MixBytesIsLinear
  refine ⟨getElem_mixBytes, mixBytes_xorMatrix, fun x y c h r => ?_⟩
  simp only [getElem_mixBytes, h]

end Sys2Proof.Machine
end

section
/-! Padding (40_block_engine.md R130 to R132): the string fills whole blocks, and the step that stores it fills
one. -/

namespace Sys2Proof.Machine

/-! ### The padding string (R130) -/

theorem npad_of_le {size r : Nat} (h : r + 9 ≤ size) : npad size r = 1 := if_pos h

theorem npad_of_lt {size r : Nat} (h : size < r + 9) : npad size r = 2 := if_neg (not_le.mpr h)

theorem padZeros_add (alg : Alg) {r : Nat} (h : r < blockBytes alg) :
    padZeros (blockBytes alg) r + r + 9 = npad (blockBytes alg) r * blockBytes alg := by
  unfold padZeros
  rcases le_or_gt (r + 9) (blockBytes alg) with hr | hr
  · rw [npad_of_le hr]
    cases alg <;> simp only [blockBytes] at h hr ⊢ <;> omega
  · rw [npad_of_lt hr]
    cases alg <;> simp only [blockBytes] at h hr ⊢ <;> omega

theorem length_be64bytes (v : DWord) : (be64bytes v).length = 8 := rfl

theorem length_padding_eq (size r : Nat) (len : DWord) : (padding size r len).length = padZeros size r + 9 := by
  simp [padding, length_be64bytes]

/-- The buffered bytes with the padding fill npad blocks. -/
theorem add_length_padding (alg : Alg) {r : Nat} (len : DWord) (h : r < blockBytes alg) :
    r + (padding (blockBytes alg) r len).length = npad (blockBytes alg) r * blockBytes alg := by
  rw [length_padding_eq, ← padZeros_add alg h]
  ring

/-- A field of a field is a field. -/
theorem extractLsb'_extractLsb'_of_add_le {w m n i j : Nat} (v : BitVec w) (h : j + n ≤ m) :
    (v.extractLsb' i m).extractLsb' j n = v.extractLsb' (i + j) n := by
  refine BitVec.eq_of_getLsbD_eq fun k hk => ?_
  have hm : j + k < m := by omega
  simp [hk, hm, Nat.add_assoc]

theorem getElem?_be64bytes (v : DWord) {k : Nat} (hk : k < 8) :
    (be64bytes v)[k]? = some (v.extractLsb' (56 - 8 * k) 8) := by
  interval_cases k <;> exact congrArg some (extractLsb'_extractLsb'_of_add_le v (by decide))

/-- What the first step of a FINALIZE job stores (R131, R132). -/
def State.padBytes (s : State) : List Byte :=
  padding (blockBytes s.alg) s.bufLen.toNat (lengthValue Config.groestlLenMode s)

/-- The padding reaches the end of the block, and what goes into a second one fills it. -/
theorem length_padBytes (s : State) (h : s.bufLen.toNat < blockBytes s.alg) :
    s.bufLen.toNat + s.padBytes.length = blockBytes s.alg
      ∨ s.bufLen.toNat + s.padBytes.length = 2 * blockBytes s.alg := by
  have hfill := add_length_padding s.alg (lengthValue Config.groestlLenMode s) h
  rcases le_or_gt (s.bufLen.toNat + 9) (blockBytes s.alg) with hr | hr
  · exact .inl (by rwa [npad_of_le hr, one_mul] at hfill)
  · exact .inr (by rwa [npad_of_lt hr] at hfill)

/-- Settles O49: `add_length_padding` with one block and with two. -/
theorem paddingFillsBlocks : Obligations.PaddingFillsBlocks := by
  unfold Obligations.PaddingFillsBlocks
  intro alg r len h size z
  have hfill := add_length_padding alg len h
  have hpos : 9 ≤ size := by cases alg <;> decide
  have hsize : (0 : Int) < size := by omega
  refine ⟨Int.emod_nonneg _ hsize.ne', Int.emod_lt_of_pos _ hsize, rfl, fun hr => ?_, fun hr => ?_,
    length_be64bytes len, fun k => getElem?_be64bytes len⟩
  · rwa [npad_of_le (show r + 9 ≤ size by omega), one_mul] at hfill
  · rwa [npad_of_lt (show size < r + 9 by omega)] at hfill

/-! ### The step that stores padding (R132) -/

/-- BUF of t is BUF of s with the bytes l from BUF_LEN on, up to the end of the block. -/
structure Filled (l : List Byte) (s t : State) : Prop where
  frame : t = { s with buf := t.buf, bufLen := t.bufLen }
  full : t.bufLen.toNat = blockBytes s.alg
  stored : ∀ j, j < blockBytes s.alg - s.bufLen.toNat → t.buf.read (s.bufLen.toNat + j) = l[j]?
  kept : ∀ a, a < s.bufLen.toNat ∨ blockBytes s.alg ≤ a → t.buf.read a = s.buf.read a
  range : ∀ x ∈ t.buf, x ∈ s.buf ∨ x.1 < blockBytes s.alg
  wf : s.buf.wf = true → t.buf.wf = true

/-- Padding that reaches the end of the block fills it, and the block is compressed next. -/
theorem padStep_fills (l : List Byte) (s : State) (hlt : s.bufLen.toNat < blockBytes s.alg)
    (hl : blockBytes s.alg - s.bufLen.toNat ≤ l.length) :
    ∃ t, Filled l s t ∧ padStep l s = .next { t with
      seq := .finalize (.block .load (l.drop (blockBytes s.alg - s.bufLen.toNat))) } := by
  obtain ⟨t, hfill, hframe, hfull, hstored, hkept, hrange⟩ := fillBlock_fills l s hlt hl
  have hfull' : t.bufLen.toNat = blockBytes t.alg := by rw [hfull, hframe]
  exact ⟨t, ⟨hframe, hfull, hstored, hkept, hrange, (fillBlock_some hfill).2.1⟩, by simp [padStep, hfill, hfull']⟩

/-- With no padding left the job goes on to its end. -/
theorem padStep_nil {s : State} (h : s.bufLen.toNat ≠ blockBytes s.alg) : padStep [] s = .next (afterPadding s) := by
  simp [padStep, fillBlock, h]

/-- The filled block is specified. -/
theorem Filled.held {l : List Byte} {s t : State} (h : Filled l s t)
    (hs : ∀ a, a < s.bufLen.toNat → (s.buf.read a).isSome = true)
    (hl : blockBytes s.alg - s.bufLen.toNat ≤ l.length) (a : Nat) (ha : a < blockBytes s.alg) :
    (t.buf.read a).isSome = true := by
  rcases lt_or_ge a s.bufLen.toNat with hlt | hge
  · rw [h.kept a (.inl hlt)]
    exact hs a hlt
  · obtain ⟨j, rfl⟩ := Nat.exists_eq_add_of_le hge
    rw [h.stored j (by omega)]
    simp
    omega

end Sys2Proof.Machine
end

section
/-! What a step of a job can do from a state with the invariant, said once: `JobStep`, one constructor for each
position of the sequencer (40_block_engine.md R121, R132). -/

namespace Sys2Proof.Machine

/-! ### Datapath steps -/

/-- The two round counters keep to their ranges (10_state.md R40, R41). -/
def RoundsInRange (s : State) : Prop := s.t ≤ 80 ∧ s.r ≤ 14

theorem blockStep_running_rounds {stage : Stage} {s u : State} (hs : RoundsInRange s)
    (h : blockStep stage s = .running u) : RoundsInRange u := by
  obtain ⟨ht, hr⟩ := hs
  obtain ⟨-, hb⟩ | ⟨-, hb⟩ := blockStep_cases stage s
  · rcases sha1Step_cases stage s with ⟨-, _, -, e⟩ | ⟨-, -, e⟩ | ⟨-, hlt, e⟩ | ⟨-, -, e⟩ <;>
      cases (hb.trans e).symm.trans h
    · exact ⟨Nat.zero_le 80, hr⟩
    · exact ⟨hlt, hr⟩
  · rcases groestlStep_cases stage s with ⟨-, _, -, e⟩ | ⟨-, -, e⟩ | ⟨-, hlt, e⟩ | ⟨-, -, e⟩ <;>
      cases (hb.trans e).symm.trans h
    · exact ⟨ht, Nat.zero_le 14⟩
    · exact ⟨ht, hlt⟩

/-- A compression's last step writes the hash state alone. -/
theorem blockStep_finished_frame {stage : Stage} {s u : State} (h : blockStep stage s = .finished u) :
    u = { s with h := u.h, g := u.g } := by
  rcases blockStep_finished h with ⟨-, rfl⟩ | ⟨-, rfl⟩ <;> rfl

theorem outputStep_running_frame {stage : Stage} {s u : State} (h : outputStep stage s = .running u) :
    u = { s with pm := u.pm, r := u.r } := by
  rcases outputStep_cases stage s with ⟨-, e⟩ | ⟨-, -, e⟩ | ⟨-, -, e⟩ <;> cases e.symm.trans h <;> rfl

theorem outputStep_running_rounds {stage : Stage} {s u : State} (hs : RoundsInRange s)
    (h : outputStep stage s = .running u) : RoundsInRange u := by
  obtain ⟨ht, hr⟩ := hs
  rcases outputStep_cases stage s with ⟨-, e⟩ | ⟨-, hlt, e⟩ | ⟨-, -, e⟩ <;> cases e.symm.trans h
  · exact ⟨ht, Nat.zero_le 14⟩
  · exact ⟨ht, hlt⟩

theorem outputStep_finished {stage : Stage} {s u : State} (h : outputStep stage s = .finished u) :
    u = { s with g := xorMatrix s.g s.pm } := by
  rcases outputStep_cases stage s with ⟨-, e⟩ | ⟨-, -, e⟩ | ⟨-, -, e⟩ <;> cases e.symm.trans h
  rfl

/-- A compression's step stops only where the block to load is not all there. -/
theorem blockStep_ne_stopped {stage : Stage} {s : State}
    (h : ∀ a, a < blockBytes s.alg → (s.buf.read a).isSome = true) (f : Fault) : blockStep stage s ≠ .stopped f := by
  intro hstop
  obtain ⟨blk, hblk, -⟩ := readBlock_some h
  simp [(blockStep_stopped hstop).2.1] at hblk

/-! ### The steps of a job -/

/-- The step of a job, at each position of the sequencer (R121, R132). -/
inductive JobStep (s : State) : State → Prop
  | idle (hseq : s.seq = .none) : JobStep s s
  | compressRuns {stage : Stage} {u : State} (hseq : s.seq = .compress stage) (hu : blockStep stage s = .running u) :
      JobStep s { u with seq := .compress .rounds }
  | compressEnds {stage : Stage} {u : State} (hseq : s.seq = .compress stage) (hu : blockStep stage s = .finished u) :
      JobStep s u.endBlock.endJob
  | pads {u : State} (hseq : s.seq = .finalize .pad) (hu : Filled s.padBytes s u) :
      JobStep s { u with
        seq := .finalize (.block .load (s.padBytes.drop (blockBytes s.alg - s.bufLen.toNat))) }
  | blockRuns {stage : Stage} {rest : List Byte} {u : State} (hseq : s.seq = .finalize (.block stage rest))
      (hu : blockStep stage s = .running u) : JobStep s { u with seq := .finalize (.block .rounds rest) }
  | blockRefills {stage : Stage} {rest : List Byte} {u v : State} (hseq : s.seq = .finalize (.block stage rest))
      (hu : blockStep stage s = .finished u) (hrest : rest.length = blockBytes s.alg)
      (hv : Filled rest u.endBlock v) : JobStep s { v with seq := .finalize (.block .load []) }
  | blocksEnd {stage : Stage} {u : State} (hseq : s.seq = .finalize (.block stage []))
      (hu : blockStep stage s = .finished u) : JobStep s (afterPadding u.endBlock)
  | outputRuns {stage : Stage} {u : State} (hseq : s.seq = .finalize (.output stage))
      (hu : outputStep stage s = .running u) : JobStep s { u with seq := .finalize (.output .rounds) }
  | outputEnds {stage : Stage} {u : State} (hseq : s.seq = .finalize (.output stage))
      (hu : outputStep stage s = .finished u) : JobStep s u.endFinalize

/-! ### The invariant at a position -/

theorem jobInv_none {s : State} (h : s.seq = .none) : jobInv s ↔ s.bufLen.toNat < blockBytes s.alg := by
  simp [jobInv, h]

theorem jobInv_of_none {s : State} (h : s.seq = .none) (hl : s.bufLen.toNat < blockBytes s.alg) : jobInv s :=
  (jobInv_none h).mpr hl

theorem jobInv_compress {s : State} {stage : Stage} (h : s.seq = .compress stage) :
    jobInv s ↔ s.bufLen.toNat = blockBytes s.alg := by
  simp [jobInv, h]

theorem jobInv_pad {s : State} (h : s.seq = .finalize .pad) :
    jobInv s ↔ s.bufLen.toNat < blockBytes s.alg ∧ s.addRemain = 0 := by
  simp [jobInv, h]

theorem jobInv_block {s : State} {stage : Stage} {rest : List Byte} (h : s.seq = .finalize (.block stage rest)) :
    jobInv s ↔ s.bufLen.toNat = blockBytes s.alg ∧ s.addRemain = 0
      ∧ (rest.length = 0 ∨ rest.length = blockBytes s.alg) := by
  simp [jobInv, h]

theorem jobInv_output {s : State} {stage : Stage} (h : s.seq = .finalize (.output stage)) :
    jobInv s ↔ s.bufLen.toNat = 0 ∧ s.addRemain = 0 ∧ s.alg ≠ .sha1 := by
  simp [jobInv, h]

/-- Under the invariant a block that a job compresses is all there. -/
theorem State.Inv.blockHeld {s : State} (h : s.Inv) (hfull : s.bufLen.toNat = blockBytes s.alg) (a : Nat)
    (ha : a < blockBytes s.alg) : (s.buf.read a).isSome = true :=
  h.bufHeld a (hfull ▸ ha)

/-- Under the invariant the sequencer never stops, and its step is one of the nine. -/
theorem State.Inv.jobStep {s : State} (h : s.Inv) : ∃ t, s.engineStep = .next t ∧ JobStep s t := by
  unfold State.engineStep
  split
  case h_1 hseq => exact ⟨s, rfl, .idle hseq⟩
  case h_2 stage hseq =>
    have hheld := blockStep_ne_stopped (stage := stage) (h.blockHeld ((jobInv_compress hseq).mp h.job))
    unfold compressJobStep
    split
    case h_1 u hu => exact ⟨_, rfl, .compressRuns hseq hu⟩
    case h_2 u hu => exact ⟨_, rfl, .compressEnds hseq hu⟩
    case h_3 f hf => exact absurd hf (hheld f)
  case h_3 step hseq =>
    unfold finalizeJobStep
    split
    case h_1 =>
      obtain ⟨hlt, -⟩ := (jobInv_pad hseq).mp h.job
      have hlen := length_padBytes s hlt
      obtain ⟨u, hu, e⟩ := padStep_fills s.padBytes s hlt (by omega)
      exact ⟨_, e, .pads hseq hu⟩
    case h_2 stage rest =>
      obtain ⟨hfull, -, hrest⟩ := (jobInv_block hseq).mp h.job
      split
      case h_1 u hu => exact ⟨_, rfl, .blockRuns hseq hu⟩
      case h_2 u hu =>
        have halg : u.endBlock.alg = s.alg := by rw [blockStep_finished_frame hu]; rfl
        have hpos : 0 < blockBytes s.alg := blockBytes_pos s.alg
        rcases hrest with hrest | hrest
        · rw [List.length_eq_zero_iff] at hrest
          subst hrest
          exact ⟨_, padStep_nil (by rw [halg]; exact hpos.ne), .blocksEnd hseq hu⟩
        · have hlt : u.endBlock.bufLen.toNat < blockBytes u.endBlock.alg := by rw [halg]; exact hpos
          obtain ⟨v, hv, e⟩ := padStep_fills rest u.endBlock hlt (by rw [halg, hrest]; omega)
          have hdrop : rest.drop (blockBytes u.endBlock.alg - u.endBlock.bufLen.toNat) = [] :=
            List.drop_eq_nil_of_le (by rw [halg, hrest]; exact le_rfl)
          exact ⟨_, hdrop ▸ e, .blockRefills hseq hu hrest hv⟩
      case h_3 f hf => exact absurd hf (blockStep_ne_stopped (h.blockHeld hfull) f)
    case h_3 stage =>
      rcases outputStep_cases stage s with ⟨-, e⟩ | ⟨-, -, e⟩ | ⟨-, -, e⟩ <;> simp only [e]
      · exact ⟨_, rfl, .outputRuns hseq e⟩
      · exact ⟨_, rfl, .outputRuns hseq e⟩
      · exact ⟨_, rfl, .outputEnds hseq e⟩

theorem State.Inv.jobStep_of_engineStep {s t : State} (h : s.Inv) (hstep : s.engineStep = .next t) : JobStep s t := by
  obtain ⟨t', e, hjob⟩ := h.jobStep
  cases e.symm.trans hstep
  exact hjob

/-! ### A job's step keeps the invariant -/

/-- In a job the engine is busy. -/
theorem State.Inv.busy_of_seq {s : State} (h : s.Inv) (hseq : s.seq ≠ .none) : s.busy = true := h.busyIff.mpr hseq

/-- In a job PHASE is ABSORB (70_reset_and_hazards.md R302). -/
theorem State.Inv.phase_of_seq {s : State} (h : s.Inv) (hseq : s.seq ≠ .none) : s.phase = .absorb :=
  h.busyPhase (h.busy_of_seq hseq)

/-- The invariant does not look at the hash state, the working registers, the host's fields or the draws. -/
theorem State.Inv.withData {s : State} (hs : s.Inv) (h : Vector Word 5) (g : ByteMatrix) (regs : RoundRegs)
    (win : Vector Word 16) (pm qm : ByteMatrix) (pending : List HostEvent) (reads : List Word) (draws : Nat) :
    State.Inv { s with
      h := h, g := g, regs := regs, win := win, pm := pm, qm := qm, pending := pending, reads := reads
      draws := draws } :=
  { hs with }

/-- From one position in a block or in the output transform to another, the counters in range. -/
theorem State.Inv.withStage {s : State} {q : Seq} {t r : Nat} (hs : s.Inv) (hseq : s.seq ≠ .none) (hq : q ≠ .none)
    (hjob : jobInv { s with seq := q }) (hcounts : countsMessage { s with seq := q } → countsMessage s)
    (hrounds : t ≤ 80 ∧ r ≤ 14) : State.Inv { s with seq := q, t := t, r := r } :=
  { hs with
    busyIff := iff_of_true (hs.busy_of_seq hseq) hq
    job := hjob
    total := fun hp hc => hs.total hp (hcounts hc)
    rounds := hrounds }

/-- A COMPRESS job that ends has counted its block. -/
theorem State.Inv.endCompress {s : State} {stage : Stage} (hs : s.Inv) (hseq : s.seq = .compress stage) :
    s.endBlock.endJob.Inv := by
  have hp : s.phase = .absorb := hs.phase_of_seq (by simp [hseq])
  have hfull := (jobInv_compress hseq).mp hs.job
  have htotal := hs.total hp (by simp [countsMessage, hseq])
  have hbound := hs.bound
  have hpos := blockBytes_pos s.alg
  have hblocks : (s.blocks + 1).toNat = s.blocks.toNat + 1 := by
    have hle : s.blocks.toNat ≤ s.blocks.toNat * blockBytes s.alg := Nat.le_mul_of_pos_right _ hpos
    have hmax : maxMsgBytes = 2 ^ 61 - 1 := rfl
    rw [BitVec.toNat_add_of_lt] <;> simp; omega
  exact
    { hs with
      bufHeld := fun a ha => absurd ha (Nat.not_lt_zero a)
      busyIff := iff_of_false Bool.false_ne_true (fun h => h rfl)
      busyPhase := fun h => absurd h Bool.false_ne_true
      job := hpos
      total := fun _ _ => by
        show s.total.toNat = (s.blocks + 1).toNat * blockBytes s.alg + 0
        rw [htotal, hblocks, hfull, Nat.add_mul, one_mul, Nat.add_zero]
      idleZero := fun h => absurd (hp.symm.trans h) nofun
      finalEmpty := fun h => absurd (hp.symm.trans h) nofun }

/-- Padding that fills a block starts its compression; what is left of it is nothing or one more block. -/
theorem State.Inv.enterBlock {s : State} (hs : s.Inv) (hseq : s.seq ≠ .none) (ha : s.addRemain = 0) {l : List Byte}
    {base u : State} (hbase : base = { s with h := base.h, g := base.g, blocks := base.blocks, bufLen := base.bufLen })
    (hheld : ∀ a, a < base.bufLen.toNat → (s.buf.read a).isSome = true)
    (hl : blockBytes s.alg - base.bufLen.toNat ≤ l.length) (hu : Filled l base u) {rest : List Byte}
    (hrest : rest.length = 0 ∨ rest.length = blockBytes s.alg) :
    State.Inv { u with seq := .finalize (.block .load rest) } := by
  have hp := hs.phase_of_seq hseq
  have hheld' := hu.held (by rw [hbase]; exact hheld) (by rw [hbase]; exact hl)
  obtain ⟨hframe, hfull, -, -, hrange, hwf⟩ := hu
  rw [hbase] at hframe hfull hrange hwf hheld'
  rw [hframe]
  exact
    { hs with
      bufWf := hwf hs.bufWf
      bufRange := fun x hx => (hrange x hx).elim (hs.bufRange x) fun hlt => hlt.trans_le (blockBytes_le s.alg)
      bufHeld := fun a ha => hheld' a (hfull ▸ ha)
      busyIff := iff_of_true (hs.busy_of_seq hseq) nofun
      job := ⟨hfull, ha, hrest⟩
      total := fun _ hc => hc.elim
      idleZero := fun h => absurd (hp.symm.trans h) nofun
      finalEmpty := fun h => absurd (hp.symm.trans h) nofun }

/-- A FINALIZE job that ends leaves the engine in FINAL with an empty buffer. -/
theorem State.Inv.endFinalize {s : State} (hs : s.Inv) (hseq : s.seq ≠ .none) (ha : s.addRemain = 0)
    {n : BitVec 8} (hn : n = 0) (blocks : DWord) :
    State.Inv (State.endFinalize { s with blocks := blocks, bufLen := n }) := by
  subst hn
  have hp := hs.phase_of_seq hseq
  have hf : s.fcode = .none := not_not.mp fun h => absurd (hp.symm.trans (hs.faultIff.mpr h)) nofun
  exact
    { hs with
      bufHeld := fun a ha => absurd ha (Nat.not_lt_zero a)
      busyIff := iff_of_false Bool.false_ne_true (fun h => h rfl)
      busyPhase := fun h => absurd h Bool.false_ne_true
      faultIff := iff_of_false nofun (fun h => h hf)
      job := blockBytes_pos s.alg
      total := nofun
      idleZero := nofun
      finalEmpty := fun _ => ⟨rfl, ha⟩
      noDigest := fun _ => rfl
      digestBound := Nat.zero_le _ }

/-- Groestl's output transform starts from an empty buffer. -/
theorem State.Inv.enterOutput {s : State} (hs : s.Inv) (hseq : s.seq ≠ .none) (ha : s.addRemain = 0)
    (halg : s.alg ≠ .sha1) (blocks : DWord) :
    State.Inv { s with blocks := blocks, bufLen := 0, seq := .finalize (.output .load) } := by
  have hp := hs.phase_of_seq hseq
  exact
    { hs with
      bufHeld := fun a ha => absurd ha (Nat.not_lt_zero a)
      busyIff := iff_of_true (hs.busy_of_seq hseq) nofun
      job := ⟨rfl, ha, halg⟩
      total := fun _ hc => hc.elim
      idleZero := fun h => absurd (hp.symm.trans h) nofun
      finalEmpty := fun h => absurd (hp.symm.trans h) nofun }

theorem State.Inv.afterPadding {s : State} (hs : s.Inv) (hseq : s.seq ≠ .none) (ha : s.addRemain = 0) :
    (afterPadding s.endBlock).Inv := by
  unfold Machine.afterPadding
  split <;> rename_i halg
  · exact hs.endFinalize hseq ha rfl (s.blocks + 1)
  · exact hs.enterOutput hseq ha (fun h => nomatch halg.symm.trans h) (s.blocks + 1)
  · exact hs.enterOutput hseq ha (fun h => nomatch halg.symm.trans h) (s.blocks + 1)

/-- Each of the nine steps keeps the invariant. -/
theorem JobStep.inv {s t : State} (hstep : JobStep s t) (hs : s.Inv) : t.Inv := by
  cases hstep with
  | idle => exact hs
  | @compressRuns stage u hseq hu =>
    have hrounds := blockStep_running_rounds hs.rounds hu
    rw [blockStep_running hu]
    refine (hs.withStage (q := .compress .rounds) (by simp [hseq]) nofun ?_ ?_ hrounds).withData ..
    · exact (jobInv_compress hseq).mp hs.job
    · exact fun _ => by simp [countsMessage, hseq]
  | @compressEnds stage u hseq hu =>
    rw [blockStep_finished_frame hu]
    exact (hs.endCompress hseq).withData ..
  | @pads u hseq hu =>
    obtain ⟨hlt, ha⟩ := (jobInv_pad hseq).mp hs.job
    have hlen := length_padBytes s hlt
    exact hs.enterBlock (by simp [hseq]) ha rfl hs.bufHeld (by omega) hu
      (by rw [List.length_drop]; omega)
  | @blockRuns stage rest u hseq hu =>
    have hrounds := blockStep_running_rounds hs.rounds hu
    rw [blockStep_running hu]
    refine (hs.withStage (q := .finalize (.block .rounds rest)) (by simp [hseq]) nofun ?_ ?_ hrounds).withData ..
    · exact (jobInv_block hseq).mp hs.job
    · exact fun hc => hc.elim
  | @blockRefills stage rest u v hseq hu hrest hv =>
    obtain ⟨-, ha, -⟩ := (jobInv_block hseq).mp hs.job
    refine hs.enterBlock (base := u.endBlock) (by simp [hseq]) ha ?_ (fun a h => absurd h (Nat.not_lt_zero a))
      (by rw [hrest]; exact Nat.sub_le _ _) hv (.inl rfl)
    rw [blockStep_finished_frame hu]
    rfl
  | @blocksEnd stage u hseq hu =>
    obtain ⟨-, ha, -⟩ := (jobInv_block hseq).mp hs.job
    rw [blockStep_finished_frame hu]
    exact (hs.withData ..).afterPadding (by simp [hseq]) ha
  | @outputRuns stage u hseq hu =>
    obtain ⟨pm, r, rfl⟩ : ∃ pm r, u = { s with pm := pm, r := r } := ⟨_, _, outputStep_running_frame hu⟩
    have hrounds := outputStep_running_rounds hs.rounds hu
    refine (hs.withStage (q := .finalize (.output .rounds)) (by simp [hseq]) nofun ?_ ?_ hrounds).withData ..
    · exact (jobInv_output hseq).mp hs.job
    · exact fun hc => hc.elim
  | @outputEnds stage u hseq hu =>
    obtain ⟨hl, ha, -⟩ := (jobInv_output hseq).mp hs.job
    have hend : s.endFinalize.Inv := hs.endFinalize (by simp [hseq]) ha (BitVec.eq_of_toNat_eq hl) s.blocks
    rw [outputStep_finished hu]
    exact hend.withData ..

end Sys2Proof.Machine
end

section
/-! The invariant (10_state.md R34 to R47): every step keeps it, none stops at a defined access, and it holds in
every run from reset. -/

namespace Sys2Proof.Machine

section

variable {s : State}

/-! ### The host side, faults and reset -/

theorem State.Inv.retire (hs : s.Inv) : s.retire.Inv := hs.withData ..

theorem State.Inv.respond (hs : s.Inv) (w : Word) : (s.respond w).Inv := hs.withData ..

theorem State.Inv.seq_of_not_busy (hs : s.Inv) (hb : s.busy = false) : s.seq = .none :=
  not_not.mp fun h => by simp [hs.busy_of_seq h] at hb

theorem State.Inv.bufLen_lt_of_not_busy (hs : s.Inv) (hb : s.busy = false) : s.bufLen.toNat < blockBytes s.alg :=
  (jobInv_none (hs.seq_of_not_busy hb)).mp hs.job

theorem State.Inv.fcode_of_ne_fault (hs : s.Inv) (hp : s.phase ≠ .fault) : s.fcode = .none :=
  not_not.mp fun h => hp (hs.faultIff.mpr h)

/-- Fault entry at BUSY = 0 (60_exceptions.md R262). -/
theorem State.Inv.raise (hs : s.Inv) (hb : s.busy = false) (hp : s.phase ≠ .fault) {code : FCode}
    (hc : code ≠ .none) : (s.raise code).Inv := by
  rw [raise_of_ne s code hp]
  exact
    { hs with
      busyPhase := fun h => absurd (hb.symm.trans h) Bool.false_ne_true
      faultIff := iff_of_true rfl hc
      total := nofun
      idleZero := nofun
      finalEmpty := nofun
      noDigest := nofun }

/-- An engine with nothing counted, no job and no fault. -/
theorem State.Inv.ofReset {pending : List HostEvent} {reads : List Word} {draws bufDraw engine : Nat} :
    State.Inv { State.reset with
      pending := pending, reads := reads, draws := draws, bufDraw := bufDraw, engine := engine } where
  bufWf := rfl
  bufRange _ h := nomatch h
  bufHeld _ h := absurd h (Nat.not_lt_zero _)
  busyIff := iff_of_false Bool.false_ne_true fun h => h rfl
  busyPhase h := absurd h Bool.false_ne_true
  faultIff := iff_of_false nofun fun h => h rfl
  job := blockBytes_pos .sha1
  total := nofun
  bound := Nat.zero_le _
  idleZero _ := ⟨rfl, rfl, rfl, rfl, rfl⟩
  finalEmpty := nofun
  noDigest _ := rfl
  digestBound := Nat.zero_le _
  rounds := ⟨Nat.zero_le _, Nat.zero_le _⟩

/-! ### The commands -/

theorem State.Inv.initContext (hs : s.Inv) (hb : s.busy = false) (hp : s.phase ≠ .fault) (alg : Alg) :
    (initContext alg s).Inv := by
  have hload : ∃ h g draws, loadIv alg s = { s with h := h, g := g, draws := draws } := by
    cases alg <;> exact ⟨_, _, _, rfl⟩
  obtain ⟨h, g, draws, hload⟩ := hload
  rw [Machine.initContext, hload]
  exact
    { hs with
      bufHeld := fun a ha => absurd ha (Nat.not_lt_zero a)
      busyPhase := fun _ => rfl
      faultIff := iff_of_false nofun fun h => h (hs.fcode_of_ne_fault hp)
      job := jobInv_of_none (hs.seq_of_not_busy hb) (blockBytes_pos alg)
      total := fun _ _ => (Nat.zero_mul _).symm
      bound := Nat.zero_le _
      idleZero := nofun
      finalEmpty := nofun
      noDigest := fun _ => rfl
      digestBound := Nat.zero_le _ }

theorem State.Inv.announce (hs : s.Inv) (hb : s.busy = false) (hp : s.phase = .absorb) (len : BitVec 24) :
    (announce len s).Inv := by
  rcases le_or_gt (s.total.toNat + len.toNat) maxMsgBytes with hle | hlt
  · rw [announce_of_le hle]
    exact
      { hs with
        job := jobInv_of_none (hs.seq_of_not_busy hb) (hs.bufLen_lt_of_not_busy hb)
        bound := hle
        idleZero := fun h => absurd (hp.symm.trans h) nofun
        finalEmpty := fun h => absurd (hp.symm.trans h) nofun }
  · rw [announce_of_lt hlt]
    exact hs.raise hb (by simp [hp]) nofun

theorem State.Inv.startFinalize (hs : s.Inv) (hb : s.busy = false) (hp : s.phase = .absorb) (ha : s.addRemain = 0) :
    (s.startJob (.finalize .pad)).Inv :=
  { hs with
    busyIff := iff_of_true rfl nofun
    busyPhase := fun _ => hp
    job := ⟨hs.bufLen_lt_of_not_busy hb, ha⟩
    total := fun h _ => hs.total h (by simp [countsMessage, hs.seq_of_not_busy hb]) }

theorem State.Inv.armDigest (hs : s.Inv) (hp : s.phase = .final) : (armDigest s).Inv :=
  { hs with
    noDigest := fun h => by
      have h : s.phase = .idle ∨ s.phase = .absorb := h
      simp [hp] at h
    digestBound := by
      show (BitVec.ofNat 7 (digestBytes s.alg)).toNat ≤ digestBytes s.alg
      exact Nat.mod_le _ _ }

/-- A command goes on and keeps the invariant where its effect does. -/
theorem State.Inv.command_next (hs : s.Inv) {ins : Instr} {perform : State → State}
    (hperform : s.busy = false → s.phase ≠ .fault → legal ins s.phase s.addRemain = true → (perform s.retire).Inv) :
    ∃ t, command ins perform s = .next t ∧ t.Inv := by
  rcases command_cases ins perform s with ⟨-, e⟩ | ⟨-, -, e⟩ | ⟨hb, hp, hl, e⟩ | ⟨hb, hp, -, e⟩ <;> rw [e]
  · obtain ⟨t, ht, hjob⟩ := hs.jobStep
    exact ⟨t, ht, hjob.inv hs⟩
  · exact ⟨_, rfl, hs.retire⟩
  · exact ⟨_, rfl, hperform hb hp hl⟩
  · exact ⟨_, rfl, hs.retire.raise hb hp nofun⟩

/-! ### The register accesses -/

/-- A byte is owed only while the message is absorbed. -/
theorem State.Inv.absorb_of_owed (hs : s.Inv) (hp : s.phase ≠ .fault) (ha : s.addRemain ≠ 0) :
    s.phase = .absorb := by
  cases hphase : s.phase with
  | idle => exact absurd (hs.idleZero hphase).2.2.2.2 ha
  | absorb => rfl
  | final => exact absurd (hs.finalEmpty hphase).2 ha
  | fault => exact absurd hphase hp

/-- The stored byte is counted: it goes from ADD_REMAIN to TOTAL and to BUF_LEN. -/
theorem toNat_storeByte (hs : s.Inv) (hb : s.busy = false) (ha : s.addRemain ≠ 0) :
    (s.bufLen + 1).toNat = s.bufLen.toNat + 1 ∧ (s.total + 1).toNat = s.total.toNat + 1
      ∧ (s.addRemain - 1).toNat + 1 = s.addRemain.toNat := by
  have hlt := hs.bufLen_lt_of_not_busy hb
  have hbound := hs.bound
  have hmax : maxMsgBytes = 2 ^ 61 - 1 := rfl
  have hpos : s.addRemain.toNat ≠ 0 := fun h => ha (BitVec.eq_of_toNat_eq h)
  refine ⟨bufLen_succ_toNat (hlt.trans_le (blockBytes_le s.alg)), ?_, ?_⟩
  · rw [BitVec.toNat_add_of_lt] <;> simp; omega
  · have hone : (1 : BitVec 24).toNat = 1 := rfl
    rw [BitVec.toNat_sub_of_le (by rw [BitVec.le_def]; omega)]
    omega

/-- The invariant after a stored byte, at the position of the sequencer that BUF_LEN calls for. -/
theorem State.Inv.storeByte (hs : s.Inv) (hb : s.busy = false) (hp : s.phase ≠ .fault) (ha : s.addRemain ≠ 0)
    (b : Byte) {busy : Bool} {q : Seq} (hbusy : busy = true ↔ q ≠ .none)
    (hjob : jobInv { storeByte b s with busy := busy, seq := q }) :
    State.Inv { storeByte b s with busy := busy, seq := q } := by
  have habsorb := hs.absorb_of_owed hp ha
  have hlt := hs.bufLen_lt_of_not_busy hb
  obtain ⟨hlen, htotal, howed⟩ := toNat_storeByte hs hb ha
  exact
    { hs with
      bufWf := write_wf _ _ hs.bufWf
      bufRange := fun x hx => (mem_write hx).elim (fun h => h ▸ hlt.trans_le (blockBytes_le s.alg)) (hs.bufRange x)
      bufHeld := fun a h => by
        have h : a < (s.bufLen + 1).toNat := h
        show ((s.buf.write s.bufLen.toNat b).read a).isSome = true
        by_cases heq : s.bufLen.toNat = a
        · rw [← heq, read_write_same]
          rfl
        · rw [read_write_other _ _ heq]
          exact hs.bufHeld a (by omega)
      busyIff := hbusy
      busyPhase := fun _ => habsorb
      job := hjob
      total := fun _ _ => by
        show (s.total + 1).toNat = s.blocks.toNat * blockBytes s.alg + (s.bufLen + 1).toNat
        rw [htotal, hlen, hs.total habsorb (by simp [countsMessage, hs.seq_of_not_busy hb]), Nat.add_assoc]
      bound := by
        show (s.total + 1).toNat + (s.addRemain - 1).toNat ≤ maxMsgBytes
        have := hs.bound
        omega
      idleZero := fun h => absurd (habsorb.symm.trans h) nofun
      finalEmpty := fun h => absurd (habsorb.symm.trans h) nofun }

theorem State.Inv.writeDin_next (hs : s.Inv) (b : Byte) : ∃ t, execWriteDin b s = .next t ∧ t.Inv := by
  rcases execWriteDin_cases b s with ⟨-, e⟩ | ⟨-, -, e⟩ | ⟨hb, hp, -, e⟩ | ⟨hb, hp, ha, hl, -⟩ | ⟨hb, -, -, hl, -⟩
  · obtain ⟨t, ht, hjob⟩ := hs.jobStep
    exact ⟨t, e.trans ht, hjob.inv hs⟩
  · exact ⟨_, e, hs.retire⟩
  · exact ⟨_, e, hs.retire.raise hb hp nofun⟩
  · refine ⟨_, execWriteDin_of_owed b hb hp ha hl, ?_⟩
    have hlt := hs.bufLen_lt_of_not_busy hb
    have hlen : (Machine.storeByte b s).bufLen.toNat = s.bufLen.toNat + 1 := bufLen_succ_toNat hl
    split
    · rename_i hfull
      exact hs.storeByte hb hp ha b (iff_of_true rfl nofun) (hlen.trans hfull)
    · rename_i hpart
      have hseq := hs.seq_of_not_busy hb
      refine hs.storeByte hb hp ha b hs.busyIff (jobInv_of_none hseq ?_)
      show (Machine.storeByte b s).bufLen.toNat < blockBytes s.alg
      omega
  · have hlt := hs.bufLen_lt_of_not_busy hb
    have hle := blockBytes_le s.alg
    omega

/-- One armed byte less. -/
theorem State.Inv.disarm (hs : s.Inv) (h0 : s.doutRemain ≠ 0) :
    State.Inv { s with doutRemain := s.doutRemain - 1 } :=
  { hs with
    noDigest := fun h => absurd (hs.noDigest h) h0
    digestBound := by
      have hpos : s.doutRemain.toNat ≠ 0 := fun h => h0 (BitVec.eq_of_toNat_eq h)
      have hone : (1 : BitVec 7).toNat = 1 := rfl
      have hbound := hs.digestBound
      show (s.doutRemain - 1).toNat ≤ digestBytes s.alg
      rw [BitVec.toNat_sub_of_le (by rw [BitVec.le_def]; omega)]
      omega }

theorem State.Inv.readDout_next (hs : s.Inv) : ∃ t, execReadDout s = .next t ∧ t.Inv := by
  rcases execReadDout_cases s with ⟨-, e⟩ | ⟨-, -, e⟩ | ⟨hb, hp, -, e⟩ | ⟨_, -, -, h0, -, e⟩ | ⟨-, -, h0, hn, -⟩
  · obtain ⟨t, ht, hjob⟩ := hs.jobStep
    exact ⟨t, e.trans ht, hjob.inv hs⟩
  · exact ⟨_, e, hs.retire.respond 0⟩
  · exact ⟨_, e, (hs.retire.respond 0).raise hb hp nofun⟩
  · exact ⟨_, e, (hs.retire.respond _).disarm h0⟩
  · obtain ⟨b, -, hb⟩ := nextDigestByte_of_armed h0 hs.digestBound
    exact nomatch hn.symm.trans hb

/-! ### The step -/

/-- Under the invariant a well-formed instruction goes on and keeps it. -/
theorem State.Inv.exec_next (hs : s.Inv) {i : Instr} (hi : i.wellFormed = true) : ∃ t, exec i s = .next t ∧ t.Inv := by
  cases i with
  | init alg => exact hs.command_next fun hb hp _ => hs.retire.initContext hb hp alg
  | add len =>
    refine hs.command_next fun hb _ hl => hs.retire.announce hb ?_ len
    simpa using (Bool.and_eq_true_iff.mp hl).2
  | finalize =>
    refine hs.command_next fun hb _ hl => ?_
    obtain ⟨ha, hp⟩ := Bool.and_eq_true_iff.mp hl
    exact hs.retire.startFinalize hb (by simpa using hp) (by simpa using ha)
  | getDigest =>
    refine hs.command_next fun _ _ hl => hs.retire.armDigest ?_
    simpa using (Bool.and_eq_true_iff.mp hl).2
  | writeDin b => exact hs.writeDin_next b
  | readStatus => exact ⟨_, rfl, hs.retire.respond _⟩
  | readDout => exact hs.readDout_next
  | readWo reg => exact ⟨_, if_pos hi, hs.retire.respond 0⟩
  | writeRo reg => exact ⟨_, if_neg (by simpa [Instr.wellFormed] using hi), hs.retire⟩

theorem State.Inv.quietStep_next (hs : s.Inv) : ∃ t, s.quietStep = .next t ∧ t.Inv := by
  cases hb : s.busy with
  | true =>
    obtain ⟨t, ht, hjob⟩ := hs.retire.jobStep
    exact ⟨t, (quietStep_of_busy hb).trans ht, hjob.inv hs.retire⟩
  | false => exact ⟨_, quietStep_of_not_busy hb, hs.retire⟩

theorem State.Inv.illegalCommand_next (hs : s.Inv) : ∃ t, illegalCommand s = .next t ∧ t.Inv := by
  rcases illegalCommand_cases s with ⟨-, e⟩ | ⟨-, -, e⟩ | ⟨hb, hp, e⟩
  · obtain ⟨t, ht, hjob⟩ := hs.jobStep
    exact ⟨t, e.trans ht, hjob.inv hs⟩
  · exact ⟨_, e, hs.retire⟩
  · exact ⟨_, e, hs.retire.raise hb hp nofun⟩

/-- What the decoder answers an instruction for is well-formed. -/
theorem wellFormed_of_fetch {i : Instr} (h : s.fetch = .instr i) : i.wellFormed = true := by
  unfold State.fetch at h
  split at h
  case h_4 a _ _ =>
    split at h
    case h_1 j hd => exact Fetched.instr.inj h ▸ decode_wellFormed hd
    all_goals cases h
  all_goals cases h

/-- Under the invariant a step goes on and keeps it, or meets an access the spec does not define. -/
theorem State.Inv.step_next (hs : s.Inv) : (∃ t, step s = .next t ∧ t.Inv) ∨ s.fetch = .undefined := by
  unfold step
  cases hf : s.fetch with
  | nothing => exact .inl hs.quietStep_next
  | reset => exact .inl ⟨_, rfl, State.Inv.ofReset⟩
  | instr i => exact .inl (hs.exec_next (wellFormed_of_fetch hf))
  | illegal => exact .inl hs.illegalCommand_next
  | undefined => exact .inr rfl

theorem step_of_fetch_undefined (h : s.fetch = .undefined) : step s = .refused .undefinedAccess := by
  simp [step, h]

/-- A defined access is decoded. -/
theorem decode_of_defined {a : Access} (h : a.defined = true) : decode a ≠ .undefined := by
  obtain ⟨dir, width, offset, v⟩ := a
  obtain ⟨hw, ho⟩ := Bool.and_eq_true_iff.mp h
  obtain rfl : width = .bits32 := by simpa using hw
  have ho : ∃ reg : Reg, offset = reg.offset := by
    have ho : offset = 0x0 ∨ offset = 0x4 ∨ offset = 0x8 ∨ offset = 0xC := by simpa using ho
    rcases ho with rfl | rfl | rfl | rfl
    exacts [⟨.cmd, rfl⟩, ⟨.status, rfl⟩, ⟨.din, rfl⟩, ⟨.dout, rfl⟩]
  obtain ⟨reg, rfl⟩ := ho
  cases dir with
  | read =>
    rw [decode_read]
    cases reg <;> nofun
  | write =>
    rw [decode_write]
    cases reg with
    | cmd =>
      rw [decodeWrite]
      split <;> nofun
    | _ => nofun

end

/-! ### Runs -/

theorem run_inv {n : Nat} {s t : State} (hs : s.Inv) (h : run n s = .next t) : t.Inv := by
  induction n generalizing s with
  | zero =>
    cases h
    exact hs
  | succ n ih =>
    rcases hs.step_next with ⟨u, hu, hinv⟩ | hf
    · exact ih hinv (by simpa [run, hu] using h)
    · simp [run, step_of_fetch_undefined hf] at h

/-! ### The obligations -/

/-- Settles O41: `State.Inv.step_next`, the step being that one. -/
theorem stepKeepsInvariant : Obligations.StepKeepsInvariant := by
  unfold Obligations.StepKeepsInvariant
  intro s t hs h
  rcases hs.step_next with ⟨u, hu, hinv⟩ | hf
  · cases hu.symm.trans h
    exact hinv
  · exact nomatch (step_of_fetch_undefined hf).symm.trans h

/-- Settles O42. -/
theorem resetHasInvariant : Obligations.ResetHasInvariant := by
  unfold Obligations.ResetHasInvariant
  exact ⟨State.Inv.ofReset, reset_buf_wf⟩

/-- Settles O43: the invariant holds in every run from reset, and gives the counters at BUSY = 0. -/
theorem countersAgreeInEveryRun : Obligations.CountersAgreeInEveryRun := by
  unfold Obligations.CountersAgreeInEveryRun
  intro events n s h hb hp
  have hs : s.Inv := run_inv State.Inv.ofReset h
  have hcounts : countsMessage s := by simp [countsMessage, hs.seq_of_not_busy hb]
  refine ⟨hs.bufLen_lt_of_not_busy hb, fun h => hs.total h hcounts, fun h => (hs.finalEmpty h).1,
    (Nat.le_add_right _ _).trans hs.bound, fun h => (hs.finalEmpty h).2, fun h => hs.noDigest (.inr h)⟩

/-- Settles O44: the only stop under the invariant is an undefined access. -/
theorem definedAccessesNeverStop : Obligations.DefinedAccessesNeverStop := by
  unfold Obligations.DefinedAccessesNeverStop
  intro s hs hdefined
  rcases hs.step_next with ⟨t, ht, -⟩ | hf
  · exact ⟨t, ht⟩
  · unfold State.fetch at hf
    split at hf
    case h_4 a rest hp =>
      split at hf
      case h_3 hd => exact absurd hd (decode_of_defined (hdefined a rest hp))
      all_goals cases hf
    all_goals cases hf

end Sys2Proof.Machine
end

section
/-! Which steps write FCODE, PHASE and the hash state, and what a step of a job leaves unchanged (10_state.md R31,
R33, R39; 70_reset_and_hazards.md R300, R302). -/

namespace Sys2Proof.Machine

/-! ### What a job's step keeps, from any state -/

/-- The fields no step of a job writes, and BUF's canonical form. -/
structure KeepsContext (s t : State) : Prop where
  alg : t.alg = s.alg
  total : t.total = s.total
  addRemain : t.addRemain = s.addRemain
  fcode : t.fcode = s.fcode
  pending : t.pending = s.pending
  reads : t.reads = s.reads
  draws : t.draws = s.draws
  bufDraw : t.bufDraw = s.bufDraw
  engine : t.engine = s.engine
  bufWf : s.buf.wf = true → t.buf.wf = true

theorem KeepsContext.refl (s : State) : KeepsContext s s := ⟨rfl, rfl, rfl, rfl, rfl, rfl, rfl, rfl, rfl, id⟩

/-- What follows a step inside the job keeps the context too. -/
theorem KeepsContext.trans {s t u : State} (h : KeepsContext s t) (h' : KeepsContext t u) : KeepsContext s u :=
  ⟨h'.alg.trans h.alg, h'.total.trans h.total, h'.addRemain.trans h.addRemain, h'.fcode.trans h.fcode,
    h'.pending.trans h.pending, h'.reads.trans h.reads, h'.draws.trans h.draws, h'.bufDraw.trans h.bufDraw,
    h'.engine.trans h.engine, h'.bufWf ∘ h.bufWf⟩

/-- The sequencer's own fields, BLOCKS, BUF_LEN, the hash state and the working registers are not the context. -/
theorem KeepsContext.ofWork (s : State) (phase : Phase) (h : Vector Word 5) (g : ByteMatrix) (bufLen : BitVec 8)
    (blocks : DWord) (doutRemain : BitVec 7) (busy : Bool) (seq : Seq) (regs : RoundRegs) (win : Vector Word 16)
    (t : Nat) (pm qm : ByteMatrix) (r : Nat) :
    KeepsContext s { s with
      phase := phase, h := h, g := g, bufLen := bufLen, blocks := blocks, doutRemain := doutRemain, busy := busy
      seq := seq, regs := regs, win := win, t := t, pm := pm, qm := qm, r := r } :=
  ⟨rfl, rfl, rfl, rfl, rfl, rfl, rfl, rfl, rfl, id⟩

theorem blockStep_running_keeps {stage : Stage} {s u : State} (h : blockStep stage s = .running u) :
    KeepsContext s u := by
  rw [blockStep_running h]
  exact .ofWork ..

theorem blockStep_finished_keeps {stage : Stage} {s u : State} (h : blockStep stage s = .finished u) :
    KeepsContext s u := by
  rw [blockStep_finished_frame h]
  exact .ofWork ..

theorem outputStep_running_keeps {stage : Stage} {s u : State} (h : outputStep stage s = .running u) :
    KeepsContext s u := by
  rw [outputStep_running_frame h]
  exact .ofWork ..

theorem outputStep_finished_keeps {stage : Stage} {s u : State} (h : outputStep stage s = .finished u) :
    KeepsContext s u := by
  rw [outputStep_finished h]
  exact .ofWork ..

theorem fillBlock_keeps {l rest : List Byte} {s u : State} (h : fillBlock l s = some (u, rest)) :
    KeepsContext s u := by
  obtain ⟨hframe, hwf, -⟩ := fillBlock_some h
  rw [hframe]
  exact ⟨rfl, rfl, rfl, rfl, rfl, rfl, rfl, rfl, rfl, hwf⟩

theorem afterPadding_keeps (s : State) : KeepsContext s (afterPadding s) := by
  unfold afterPadding
  split <;> exact .ofWork ..

theorem padStep_keeps {l : List Byte} {s t : State} (h : padStep l s = .next t) : KeepsContext s t := by
  obtain ⟨u, rest, hfill, hnext⟩ := padStep_next h
  refine (fillBlock_keeps hfill).trans ?_
  rcases hnext with ⟨-, rfl⟩ | ⟨-, rfl⟩
  · exact .ofWork ..
  · exact afterPadding_keeps u

/-- A step of a job keeps the context. -/
theorem engineStep_keeps {s t : State} (h : s.engineStep = .next t) : KeepsContext s t := by
  rcases engineStep_next h with ⟨-, rfl⟩ | ⟨_, u, -, hu, rfl⟩ | ⟨_, u, -, hu, rfl⟩ | ⟨-, hpad⟩
    | ⟨_, _, u, -, hu, rfl⟩ | ⟨_, _, u, -, hu, hpad⟩ | ⟨_, u, -, hu, rfl⟩ | ⟨_, u, -, hu, rfl⟩
  · exact .refl t
  · exact (blockStep_running_keeps hu).trans (.ofWork ..)
  · exact (blockStep_finished_keeps hu).trans (.ofWork ..)
  · exact padStep_keeps hpad
  · exact (blockStep_running_keeps hu).trans (.ofWork ..)
  · exact ((blockStep_finished_keeps hu).trans (.ofWork ..)).trans (padStep_keeps hpad)
  · exact (outputStep_running_keeps hu).trans (.ofWork ..)
  · exact (outputStep_finished_keeps hu).trans (.ofWork ..)

/-! ### The hold rule (R300) -/

theorem exec_of_held {s : State} {i : Instr} (hb : s.busy = true) (hi : neverHeld i = false) :
    exec i s = s.engineStep := by
  cases i
  case readStatus | readWo | writeRo => cases hi
  all_goals exact if_pos hb

theorem illegalCommand_of_busy {s : State} (hb : s.busy = true) : illegalCommand s = s.engineStep := if_pos hb

/-- An access that is never held is taken without a step of the job: the host goes on, and a read answers. -/
theorem exec_of_neverHeld {s t : State} {i : Instr} (hi : neverHeld i = true) (h : exec i s = .next t) :
    t = { s with pending := s.pending.tail, reads := t.reads } := by
  cases i
  case readStatus =>
    cases h
    rfl
  case readWo reg =>
    cases execReadWo_next h
    rfl
  case writeRo reg =>
    cases execWriteRo_next h
    rfl
  all_goals cases hi

/-- Settles O31. -/
theorem heldAccessStaysPending : Obligations.HeldAccessStaysPending := by
  unfold Obligations.HeldAccessStaysPending
  exact fun s hb => ⟨fun i hi => exec_of_held hb hi, illegalCommand_of_busy hb,
    fun t h => ⟨(engineStep_keeps h).pending, (engineStep_keeps h).reads⟩, rfl⟩

/-! ### The kinds of step -/

/-- The ways a step that goes on can take s to t: a reset, a step of the job, an instruction taken, an illegal word
taken, or nothing. -/
inductive StepKind (s t : State) : Prop
  | reset (fetch : s.fetch = .reset) (eq : t = s.platformReset)
  | job (u : State) (busy : s.busy = true) (moves : jobMoves s) (hu : u = s ∨ u = s.retire)
      (eq : u.engineStep = .next t)
  | taken (i : Instr) (fetch : s.fetch = .instr i) (free : s.busy = false ∨ neverHeld i = true)
    (eq : exec i s = .next t)
  | illegal (busy : s.busy = false) (eq : illegalCommand s = .next t)
  | quiet (busy : s.busy = false) (eq : t = s.retire)

theorem step_kind {s t : State} (h : step s = .next t) : StepKind s t := by
  unfold step at h
  cases hf : s.fetch <;> simp only [hf] at h
  case nothing =>
    cases hb : s.busy with
    | true => exact .job s.retire hb ⟨hb, by simp [hf]⟩ (.inr rfl) ((quietStep_of_busy hb).symm.trans h)
    | false =>
      cases (quietStep_of_not_busy hb).symm.trans h
      exact .quiet hb rfl
  case reset =>
    cases h
    exact .reset hf rfl
  case instr i =>
    cases hb : s.busy with
    | false => exact .taken i hf (.inl hb) h
    | true =>
      cases hi : neverHeld i with
      | true => exact .taken i hf (.inr hi) h
      | false => exact .job s hb ⟨hb, by simp [hf, hi]⟩ (.inl rfl) ((exec_of_held hb hi).symm.trans h)
  case illegal =>
    cases hb : s.busy with
    | false => exact .illegal hb h
    | true => exact .job s hb ⟨hb, by simp [hf]⟩ (.inl rfl) ((illegalCommand_of_busy hb).symm.trans h)
  case undefined => cases h

/-- An illegal word that is taken is ignored or raises ILLEGAL_CMD. -/
theorem illegalCommand_taken {s t : State} (hb : s.busy = false) (h : illegalCommand s = .next t) :
    t = s.retire ∨ (s.phase ≠ .fault ∧ t = s.retire.raise .illegalCmd) := by
  rcases illegalCommand_cases s with ⟨hb', -⟩ | ⟨-, -, e⟩ | ⟨-, hp, e⟩
  · simp [hb] at hb'
  · cases e.symm.trans h
    exact .inl rfl
  · cases e.symm.trans h
    exact .inr ⟨hp, rfl⟩

/-! ### FCODE (R39) -/

theorem raise_fcode {s : State} (code : FCode) (hp : s.phase ≠ .fault) : (s.raise code).fcode = code := by
  rw [raise_of_ne s code hp]

/-- Settles O28: a step that is no reset raises a fault outside FAULT or keeps FCODE. -/
theorem fcodeKeepsFirstFault : Obligations.FcodeKeepsFirstFault := by
  unfold Obligations.FcodeKeepsFirstFault
  intro s t h
  cases step_kind h with
  | reset hf ht => exact .inl ⟨hf, ht ▸ rfl⟩
  | job u _ _ hu ht =>
    have hkeep := (engineStep_keeps ht).fcode
    rcases hu with rfl | rfl <;> exact .inr (.inl hkeep)
  | taken i _ _ ht =>
    cases exec_faultEffect ht with
    | held _ hjob => exact .inr (.inl (engineStep_keeps hjob).fcode)
    | noFault _ hf => exact .inr (.inl hf)
    | entry u code _ hp hne hu ht =>
      have hup : u.phase ≠ .fault := by rcases hu with rfl | ⟨-, rfl⟩ <;> exact hp
      refine .inr (.inr ⟨hp, ht ▸ raise_phase u code, ?_⟩)
      rw [ht, raise_fcode code hup]
      exact hne
  | illegal hb ht =>
    rcases illegalCommand_taken hb ht with rfl | ⟨hp, rfl⟩
    · exact .inr (.inl rfl)
    · exact .inr (.inr ⟨hp, raise_phase .., by rw [raise_fcode _ (by simpa using hp)]; nofun⟩)
  | quiet _ ht => exact .inr (.inl (ht ▸ rfl))

/-! ### PHASE (R31) -/

/-- The end of a FINALIZE job enters FINAL as BUSY goes to 0. -/
theorem afterPadding_phase_change {s : State} (hne : (afterPadding s).phase ≠ s.phase) :
    (afterPadding s).phase = .final ∧ (afterPadding s).busy = false := by
  unfold afterPadding at hne ⊢
  split <;> rename_i halg <;> simp only [halg] at hne
  · exact ⟨rfl, rfl⟩
  · exact absurd rfl hne
  · exact absurd rfl hne

theorem padStep_phase_change {l : List Byte} {s t : State} (h : padStep l s = .next t) (hne : t.phase ≠ s.phase) :
    t.phase = .final ∧ t.busy = false := by
  obtain ⟨u, rest, hfill, hnext⟩ := padStep_next h
  have hu : u.phase = s.phase := by rw [(fillBlock_some hfill).1]
  rcases hnext with ⟨-, rfl⟩ | ⟨-, rfl⟩
  · exact absurd hu hne
  · exact afterPadding_phase_change (hu ▸ hne)

/-- A step of a job changes PHASE at the end of a FINALIZE job alone. -/
theorem engineStep_phase_change {s t : State} (h : s.engineStep = .next t) (hne : t.phase ≠ s.phase) :
    (∃ q, s.seq = .finalize q) ∧ t.phase = .final ∧ t.busy = false := by
  rcases engineStep_next h with ⟨-, rfl⟩ | ⟨_, u, -, hu, rfl⟩ | ⟨_, u, -, hu, rfl⟩ | ⟨hseq, hpad⟩
    | ⟨_, _, u, -, hu, rfl⟩ | ⟨_, _, u, hseq, hu, hpad⟩ | ⟨_, u, -, hu, rfl⟩ | ⟨_, u, hseq, -, rfl⟩
  · exact absurd rfl hne
  · exact absurd (blockStep_running_phase hu) hne
  · exact absurd (blockStep_finished_phase hu) hne
  · exact ⟨⟨_, hseq⟩, padStep_phase_change hpad hne⟩
  · exact absurd (blockStep_running_phase hu) hne
  · exact ⟨⟨_, hseq⟩, padStep_phase_change hpad (by rw [endBlock_phase, blockStep_finished_phase hu]; exact hne)⟩
  · exact absurd (outputStep_running_phase hu) hne
  · exact ⟨⟨_, hseq⟩, rfl, rfl⟩

theorem initContext_phase (alg : Alg) (s : State) : (initContext alg s).phase = .absorb := rfl

theorem execReadDout_taken_phase {s t : State} (hb : s.busy = false) (h : execReadDout s = .next t) :
    t.phase = s.phase ∨ t.phase = .fault := by
  rcases execReadDout_cases s with ⟨hb', -⟩ | ⟨-, -, e⟩ | ⟨-, -, -, e⟩ | ⟨_, -, -, -, -, e⟩ | ⟨-, -, -, -, e⟩
  · simp [hb] at hb'
  · cases e.symm.trans h
    exact .inl rfl
  · cases e.symm.trans h
    exact .inr (raise_phase ..)
  · cases e.symm.trans h
    exact .inl rfl
  · cases e.symm.trans h

/-- INIT taken enters ABSORB, is ignored, or raises a fault. -/
theorem execInit_taken_phase {alg : Alg} {s t : State} (hb : s.busy = false) (h : execInit alg s = .next t) :
    t.phase = s.phase ∨ t.phase = .absorb ∨ t.phase = .fault := by
  rcases command_cases (.init alg) (initContext alg) s with ⟨hb', -⟩ | ⟨-, -, e⟩ | ⟨-, -, -, e⟩ | ⟨-, -, -, e⟩
  · simp [hb] at hb'
  · cases e.symm.trans h
    exact .inl rfl
  · cases e.symm.trans h
    exact .inr (.inl (initContext_phase ..))
  · cases e.symm.trans h
    exact .inr (.inr (raise_phase ..))

/-- An instruction taken at BUSY = 0, but INIT, keeps PHASE or raises a fault. -/
theorem exec_taken_phase {i : Instr} {s t : State} (hb : s.busy = false) (hi : ∀ alg, i ≠ .init alg)
    (h : exec i s = .next t) : t.phase = s.phase ∨ t.phase = .fault := by
  have hcommand : IsCommand i → t.phase = s.phase ∨ t.phase = .fault := fun hc =>
    ((exec_command_frame hc hb h).init hi).2.2.2.2.2.2.2
  cases i with
  | init alg => exact absurd rfl (hi alg)
  | add len => exact hcommand (.inr (.inl ⟨len, rfl⟩))
  | finalize => exact hcommand (.inr (.inr (.inl rfl)))
  | getDigest => exact hcommand (.inr (.inr (.inr rfl)))
  | writeDin b =>
    obtain ⟨-, -, -, -, -, -, -, -, -, -, -, -, -, -, -, -, -, -, hp, -⟩ := writeDinFrame b s t hb h
    exact hp
  | readDout => exact execReadDout_taken_phase hb h
  | _ =>
    rw [exec_of_neverHeld rfl h]
    exact .inl rfl

/-- Settles O29. -/
theorem phaseChangesOnlyByItsRules : Obligations.PhaseChangesOnlyByItsRules := by
  unfold Obligations.PhaseChangesOnlyByItsRules
  intro s t h hne
  cases step_kind h with
  | reset hf ht => exact .inl ⟨hf, ht ▸ rfl⟩
  | job u hb _ hu ht =>
    have hchange := engineStep_phase_change ht
    rcases hu with rfl | rfl <;> exact .inr (.inr (.inl ⟨hb, hchange hne⟩))
  | taken i hf hfree ht =>
    cases hi : neverHeld i with
    | true =>
      rw [exec_of_neverHeld hi ht] at hne
      exact absurd rfl hne
    | false =>
      have hb : s.busy = false := hfree.resolve_right (by simp [hi])
      by_cases hinit : ∃ alg, i = .init alg
      · obtain ⟨alg, rfl⟩ := hinit
        rcases execInit_taken_phase hb ht with hp | hp | hp
        · exact absurd hp hne
        · exact .inr (.inl ⟨hb, ⟨alg, hf⟩, hp⟩)
        · exact .inr (.inr (.inr ⟨hb, hp⟩))
      · exact .inr (.inr (.inr ⟨hb, (exec_taken_phase hb (fun alg h => hinit ⟨alg, h⟩) ht).resolve_left hne⟩))
  | illegal hb ht =>
    rcases illegalCommand_taken hb ht with rfl | ⟨-, rfl⟩
    · exact absurd rfl hne
    · exact .inr (.inr (.inr ⟨hb, raise_phase ..⟩))
  | quiet _ ht => exact absurd (ht ▸ rfl) hne

/-! ### BUF's canonical form -/

theorem execWriteDin_bufWf {b : Byte} {s t : State} (hw : s.buf.wf = true) (h : execWriteDin b s = .next t) :
    t.buf.wf = true := by
  rcases execWriteDin_cases b s with ⟨-, e⟩ | ⟨-, -, e⟩ | ⟨-, -, -, e⟩ | ⟨hb, hp, ha, hl, -⟩ | ⟨-, -, -, -, e⟩
  · exact (engineStep_keeps (e.symm.trans h)).bufWf hw
  · cases e.symm.trans h
    exact hw
  · cases e.symm.trans h
    rw [raise_buf]
    exact hw
  · cases (execWriteDin_of_owed b hb hp ha hl).symm.trans h
    split <;> exact write_wf _ _ hw
  · cases e.symm.trans h

/-- Settles O40: a job's step keeps the form, a message byte is a write, and nothing else writes BUF. -/
theorem stepKeepsMemoryForm : Obligations.StepKeepsMemoryForm := by
  unfold Obligations.StepKeepsMemoryForm
  intro s t hw h
  cases step_kind h with
  | reset _ ht => exact ht ▸ reset_buf_wf
  | job u _ _ hu ht =>
    have hkeep := (engineStep_keeps ht).bufWf
    rcases hu with rfl | rfl <;> exact hkeep hw
  | taken i _ hfree ht =>
    cases hi : neverHeld i with
    | true =>
      rw [exec_of_neverHeld hi ht]
      exact hw
    | false =>
      have hb : s.busy = false := hfree.resolve_right (by simp [hi])
      have hcommand : IsCommand i → t.buf.wf = true := fun hc => (exec_command_frame hc hb ht).buf ▸ hw
      cases i with
      | init alg => exact hcommand (.inl ⟨alg, rfl⟩)
      | add len => exact hcommand (.inr (.inl ⟨len, rfl⟩))
      | finalize => exact hcommand (.inr (.inr (.inl rfl)))
      | getDigest => exact hcommand (.inr (.inr (.inr rfl)))
      | writeDin b => exact execWriteDin_bufWf hw ht
      | readDout =>
        rw [execReadDout_frame hb ht]
        exact hw
      | _ => cases hi
  | illegal hb ht =>
    rcases illegalCommand_taken hb ht with rfl | ⟨-, rfl⟩
    · exact hw
    · rw [raise_buf]
      exact hw
  | quiet _ ht => exact ht ▸ hw

/-! ### The hash state (R33) -/

/-- A compression's last step is taken when its rounds are done, the counters being in their ranges. -/
theorem blockStep_finished_rounds {stage : Stage} {s u : State} (hr : RoundsInRange s)
    (h : blockStep stage s = .finished u) : stage = .rounds ∧ roundsDone s := by
  obtain ⟨ht80, hr14⟩ := hr
  obtain ⟨ha, hb⟩ | ⟨ha, hb⟩ := blockStep_cases stage s
  · rcases sha1Step_cases stage s with ⟨-, _, -, e⟩ | ⟨-, -, e⟩ | ⟨-, -, e⟩ | ⟨hst, hge, e⟩ <;>
      cases (hb.trans e).symm.trans h
    refine ⟨hst, ?_⟩
    rw [roundsDone, ha]
    exact Nat.le_antisymm ht80 hge
  · rcases groestlStep_cases stage s with ⟨-, _, -, e⟩ | ⟨-, -, e⟩ | ⟨-, -, e⟩ | ⟨hst, hge, e⟩ <;>
      cases (hb.trans e).symm.trans h
    refine ⟨hst, ?_⟩
    unfold roundsDone
    split
    · exact absurd ‹_› ha
    · exact Nat.le_antisymm hr14 hge
    · exact Nat.le_antisymm hr14 hge

/-- A step from s to t writes the hash state at a last step of the job alone, and then only the register that ALG
selects. -/
def WritesSelectedHash (s t : State) : Prop :=
  (t.h = s.h ∧ t.g = s.g) ∨ (atLastStep s ∧ (s.alg = .sha1 → t.g = s.g) ∧ (s.alg ≠ .sha1 → t.h = s.h))

theorem blockStep_finished_selected {stage : Stage} {s u : State} (h : blockStep stage s = .finished u) :
    (s.alg = .sha1 → u.g = s.g) ∧ (s.alg ≠ .sha1 → u.h = s.h) := by
  rcases blockStep_finished h with ⟨ha, rfl⟩ | ⟨ha, rfl⟩
  · exact ⟨fun _ => rfl, fun h => absurd ha h⟩
  · exact ⟨fun h => absurd h ha, fun _ => rfl⟩

theorem afterPadding_hash (s : State) : (afterPadding s).h = s.h ∧ (afterPadding s).g = s.g := by
  unfold afterPadding
  split <;> exact ⟨rfl, rfl⟩

theorem JobStep.hash {s t : State} (h : JobStep s t) (hs : s.Inv) : WritesSelectedHash s t := by
  cases h with
  | idle => exact .inl ⟨rfl, rfl⟩
  | compressRuns _ hu | blockRuns _ hu =>
    rw [blockStep_running hu]
    exact .inl ⟨rfl, rfl⟩
  | outputRuns _ hu =>
    rw [outputStep_running_frame hu]
    exact .inl ⟨rfl, rfl⟩
  | pads _ hu =>
    rw [hu.frame]
    exact .inl ⟨rfl, rfl⟩
  | compressEnds hseq hu =>
    have hselected := blockStep_finished_selected hu
    obtain ⟨rfl, hdone⟩ := blockStep_finished_rounds hs.rounds hu
    exact .inr ⟨by simpa [atLastStep, hseq] using hdone, hselected⟩
  | blockRefills hseq hu _ hv =>
    have hselected := blockStep_finished_selected hu
    obtain ⟨rfl, hdone⟩ := blockStep_finished_rounds hs.rounds hu
    rw [hv.frame]
    exact .inr ⟨by simpa [atLastStep, hseq] using hdone, hselected⟩
  | @blocksEnd _ u hseq hu =>
    have hselected := blockStep_finished_selected hu
    obtain ⟨rfl, hdone⟩ := blockStep_finished_rounds hs.rounds hu
    obtain ⟨hh, hg⟩ := afterPadding_hash u.endBlock
    rw [WritesSelectedHash, hh, hg]
    exact .inr ⟨by simpa [atLastStep, hseq] using hdone, hselected⟩
  | @outputEnds stage u hseq hu =>
    obtain ⟨-, -, halg⟩ := (jobInv_output hseq).mp hs.job
    refine .inr ⟨?_, fun h => absurd h halg, fun _ => by rw [outputStep_finished hu]; rfl⟩
    rcases outputStep_cases stage s with ⟨-, e⟩ | ⟨-, -, e⟩ | ⟨rfl, hge, -⟩
    · cases e.symm.trans hu
    · cases e.symm.trans hu
    · rw [atLastStep, hseq]
      exact Nat.le_antisymm hs.rounds.2 hge

/-- An instruction taken, but an INIT at BUSY = 0, leaves the hash state alone. -/
theorem exec_taken_hash {i : Instr} {s t : State} (hfree : s.busy = false ∨ neverHeld i = true)
    (hinit : ¬(s.busy = false ∧ ∃ alg, i = .init alg)) (h : exec i s = .next t) : t.h = s.h ∧ t.g = s.g := by
  cases hi : neverHeld i with
  | true =>
    rw [exec_of_neverHeld hi h]
    exact ⟨rfl, rfl⟩
  | false =>
    have hb : s.busy = false := hfree.resolve_right (by simp [hi])
    have hne : ∀ alg, i ≠ .init alg := fun alg h => hinit ⟨hb, alg, h⟩
    have hcommand : IsCommand i → t.h = s.h ∧ t.g = s.g := fun hc => by
      obtain ⟨-, hh, hg, -⟩ := (exec_command_frame hc hb h).init hne
      exact ⟨hh, hg⟩
    cases i with
    | init alg => exact absurd rfl (hne alg)
    | add len => exact hcommand (.inr (.inl ⟨len, rfl⟩))
    | finalize => exact hcommand (.inr (.inr (.inl rfl)))
    | getDigest => exact hcommand (.inr (.inr (.inr rfl)))
    | writeDin b =>
      obtain ⟨-, -, -, hh, hg, -⟩ := writeDinFrame b s t hb h
      exact ⟨hh, hg⟩
    | readDout =>
      rw [execReadDout_frame hb h]
      exact ⟨rfl, rfl⟩
    | _ => cases hi

/-- Settles O30: a step of the job by `JobStep.hash`, an instruction taken by its frame. -/
theorem hashStateHasFewWriters : Obligations.HashStateHasFewWriters := by
  unfold Obligations.HashStateHasFewWriters
  intro s t hs h hreset
  have same : t.h = s.h ∧ t.g = s.g → (¬ (s.busy = false ∧ ∃ alg, s.fetch = .instr (.init alg)) →
      ¬ (jobMoves s ∧ atLastStep s) → t.h = s.h ∧ t.g = s.g)
      ∧ (s.busy = true → s.alg = .sha1 → t.g = s.g) ∧ (s.busy = true → s.alg ≠ .sha1 → t.h = s.h) :=
    fun hsame => ⟨fun _ _ => hsame, fun _ _ => hsame.2, fun _ _ => hsame.1⟩
  cases step_kind h with
  | reset hf => exact absurd hf hreset
  | job u hb hmoves hu ht =>
    have hhash : WritesSelectedHash s t := by
      rcases hu with rfl | rfl
      · exact (hs.jobStep_of_engineStep ht).hash hs
      · exact (hs.retire.jobStep_of_engineStep ht).hash hs.retire
    rcases hhash with hsame | ⟨hlast, hg, hh⟩
    · exact same hsame
    · exact ⟨fun _ hnot => absurd ⟨hmoves, hlast⟩ hnot, fun _ => hg, fun _ => hh⟩
  | taken i hf hfree ht =>
    by_cases hinit : s.busy = false ∧ ∃ alg, i = .init alg
    · obtain ⟨hb, alg, rfl⟩ := hinit
      exact ⟨fun hnot => absurd ⟨hb, alg, hf⟩ hnot, fun hb' => absurd (hb.symm.trans hb') Bool.false_ne_true,
        fun hb' => absurd (hb.symm.trans hb') Bool.false_ne_true⟩
    · exact same (exec_taken_hash hfree hinit ht)
  | illegal hb ht =>
    rcases illegalCommand_taken hb ht with rfl | ⟨-, rfl⟩
    · exact same ⟨rfl, rfl⟩
    · exact same ⟨raise_h .., raise_g ..⟩
  | quiet _ ht => exact same (ht ▸ ⟨rfl, rfl⟩)

/-! ### The frame of a job's step -/

/-- What becomes of BUF in a step of a job (R121, R132). -/
def JobBufFrame (s t : State) : Prop :=
  (∀ stage, s.seq = .compress stage → ∀ a, t.buf.read a = s.buf.read a)
    ∧ (s.seq = .finalize .pad → ∀ a, a < s.bufLen.toNat ∨ blockBytes s.alg ≤ a → t.buf.read a = s.buf.read a)
    ∧ (∀ stage rest, s.seq = .finalize (.block stage rest) →
      ∀ a, ¬ atLastStep s ∨ rest = [] ∨ blockBytes s.alg ≤ a → t.buf.read a = s.buf.read a)
    ∧ (∀ stage, s.seq = .finalize (.output stage) → ∀ a, t.buf.read a = s.buf.read a)

theorem JobBufFrame.ofEq {s t : State} (h : t.buf = s.buf) : JobBufFrame s t :=
  ⟨fun _ _ a => by rw [h], fun _ a _ => by rw [h], fun _ _ _ a _ => by rw [h], fun _ _ a => by rw [h]⟩

theorem afterPadding_buf (s : State) : (afterPadding s).buf = s.buf := by
  unfold afterPadding
  split <;> rfl

theorem JobStep.buf {s t : State} (h : JobStep s t) (hs : s.Inv) : JobBufFrame s t := by
  cases h with
  | idle => exact .ofEq rfl
  | compressRuns _ hu | blockRuns _ hu => exact .ofEq (by rw [blockStep_running hu])
  | outputRuns _ hu => exact .ofEq (by rw [outputStep_running_frame hu])
  | compressEnds _ hu => exact .ofEq (by rw [blockStep_finished_frame hu]; rfl)
  | blocksEnd _ hu => exact .ofEq (by rw [afterPadding_buf, blockStep_finished_frame hu]; rfl)
  | outputEnds _ hu => exact .ofEq (by rw [outputStep_finished hu]; rfl)
  | pads hseq hu =>
    exact ⟨fun _ h => (nomatch hseq.symm.trans h), fun _ => hu.kept, fun _ _ h => (nomatch hseq.symm.trans h),
      fun _ h => (nomatch hseq.symm.trans h)⟩
  | @blockRefills _ rest u v hseq hu hrest hv =>
    refine ⟨fun _ h => (nomatch hseq.symm.trans h), fun h => (nomatch hseq.symm.trans h), fun stage' rest' h a ha => ?_,
      fun _ h => (nomatch hseq.symm.trans h)⟩
    obtain ⟨rfl, hdone⟩ := blockStep_finished_rounds hs.rounds hu
    have hlast : atLastStep s := by simpa [atLastStep, hseq] using hdone
    have hpos := blockBytes_pos s.alg
    cases hseq.symm.trans h
    have hge : blockBytes s.alg ≤ a := (ha.resolve_left (not_not_intro hlast)).resolve_left fun h => by
      rw [h, List.length_nil] at hrest
      omega
    have hkept := hv.kept a (.inr (by rw [blockStep_finished_frame hu]; exact hge))
    rw [hkept, blockStep_finished_frame hu]
    rfl

/-- Under the invariant a step outside FINALIZE keeps DOUT_REMAIN. -/
theorem JobStep.doutRemain {s t : State} (h : JobStep s t) (hq : ∀ q, s.seq ≠ .finalize q) :
    t.doutRemain = s.doutRemain := by
  cases h with
  | idle => rfl
  | compressRuns _ hu => rw [blockStep_running hu]
  | compressEnds _ hu =>
    rw [blockStep_finished_frame hu]
    rfl
  | pads hseq | blockRuns hseq | blockRefills hseq | blocksEnd hseq | outputRuns hseq | outputEnds hseq =>
    exact absurd hseq (hq _)

/-- Settles O32: the context from any state, PHASE by the end of a FINALIZE job, BUF by the position. -/
theorem jobStepFrame : Obligations.JobStepFrame := by
  unfold Obligations.JobStepFrame
  intro s t hs h
  have hjob := hs.jobStep_of_engineStep h
  obtain ⟨halg, htotal, howed, hfcode, hpending, hreads, hdraws, hdraw, hengine, -⟩ := engineStep_keeps h
  refine ⟨halg, htotal, howed, hfcode, hpending, hreads, hdraws, hdraw, hengine, fun hq => ⟨?_, hjob.doutRemain hq⟩,
    fun hb => ?_, hjob.buf hs⟩
  · by_contra hne
    obtain ⟨⟨q, hseq⟩, -⟩ := engineStep_phase_change h hne
    exact hq q hseq
  · by_contra hne
    obtain ⟨⟨q, hseq⟩, -, hidle⟩ := engineStep_phase_change h hne
    have hbusy := hs.busy_of_seq (by simp [hseq])
    exact Bool.false_ne_true (hidle.symm.trans (hb.trans hbusy))

/-- Settles O33: in a job PHASE is ABSORB. -/
theorem statusDuringJob : Obligations.StatusDuringJob := by
  unfold Obligations.StatusDuringJob
  intro s hs hb
  refine ⟨(status_busy_bit s).trans hb, (status_phase_field s).trans ?_⟩
  rw [hs.busyPhase hb]
  rfl

end Sys2Proof.Machine
end

section
/-! What a step does not read: the hash register ALG does not select (10_state.md R33), and before INIT the hash
state, BUF and the working registers (70_reset_and_hazards.md R291). -/

namespace Sys2Proof.Machine

/-! ### States that differ in data -/

/-- Other values for the data of a state, field by field: the hash state, BUF with the draw of its free values, and
the working registers. -/
structure Overlay where
  h : Vector Word 5 → Vector Word 5
  g : ByteMatrix → ByteMatrix
  buf : Memory → Memory := id
  regs : RoundRegs → RoundRegs := id
  win : Vector Word 16 → Vector Word 16 := id
  t : Nat → Nat := id
  pm : ByteMatrix → ByteMatrix := id
  qm : ByteMatrix → ByteMatrix := id
  r : Nat → Nat := id
  bufDraw : Nat → Nat := id

namespace Overlay

variable (o : Overlay)

/-- The state with the overlay's data. -/
def apply (s : State) : State :=
  { s with
    h := o.h s.h, g := o.g s.g, buf := o.buf s.buf, regs := o.regs s.regs, win := o.win s.win, t := o.t s.t
    pm := o.pm s.pm, qm := o.qm s.qm, r := o.r s.r, bufDraw := o.bufDraw s.bufDraw }

/-- The overlay with the hash state left as it is. -/
def keepHash : Overlay := { o with h := id, g := id }

/-- A relation that holds of a state and the same, overlaid in whole, in part or not at all. -/
structure Allows (R : State → State → Prop) : Prop where
  same : ∀ s, R s s
  overlaid : ∀ s, R s (o.apply s)
  keepHash : ∀ s, R s (o.keepHash.apply s)

end Overlay

/-! ### Outcomes compared -/

/-- The outcome with f taken of its next state. -/
def mapNext (f : State → State) : Result → Result
  | .next s => .next (f s)
  | .fault e => .fault e
  | .refused e => .refused e

theorem sameOutcome_of_eq_mapNext {R : State → State → Prop} {f : State → State} (hf : ∀ s, R s (f s)) {p q : Result}
    (h : q = mapNext f p) : sameOutcome R p q := by
  subst h
  cases p with
  | next s => exact hf s
  | fault e => rfl
  | refused e => rfl

theorem sameOutcome_ite {R : State → State → Prop} {c : Prop} [Decidable c] {p p' q q' : Result}
    (hp : c → sameOutcome R p p') (hq : ¬c → sameOutcome R q q') :
    sameOutcome R (if c then p else q) (if c then p' else q') := by
  split
  · exact hp ‹_›
  · exact hq ‹_›

/-- A map passes into the branches. -/
theorem map_ite {α β : Type} {c : Prop} [Decidable c] {f : α → β} {x y : α} {x' y' : β} (hx : x' = f x)
    (hy : y' = f y) :
    (if c then x' else y') = f (if c then x else y) := by
  rw [hx, hy, apply_ite f]

/-! ### The host side -/

section

variable {o : Overlay} {R : State → State → Prop} {s : State}

theorem raise_overlay (code : FCode) (s : State) : (o.apply s).raise code = o.apply (s.raise code) := by
  by_cases hp : s.phase = .fault
  · rw [raise_of_fault _ _ hp, raise_of_fault _ _ (show (o.apply s).phase = .fault from hp)]
  · rw [raise_of_ne _ _ hp, raise_of_ne _ _ (show (o.apply s).phase ≠ .fault from hp)]
    rfl

theorem announce_overlay (len : BitVec 24) (s : State) : announce len (o.apply s) = o.apply (announce len s) := by
  rcases le_or_gt (s.total.toNat + len.toNat) maxMsgBytes with hle | hlt
  · rw [announce_of_le hle, announce_of_le (show (o.apply s).total.toNat + _ ≤ _ from hle)]
    rfl
  · rw [announce_of_lt hlt, announce_of_lt (show _ < (o.apply s).total.toNat + _ from hlt), raise_overlay]

theorem initContext_overlay (alg : Alg) (s : State) :
    initContext alg (o.apply s) = o.keepHash.apply (initContext alg s) := by
  cases alg <;> rfl

theorem bufPush_overlay (hbuf : o.buf = id) (b : Byte) (s : State) :
    (o.apply s).bufPush b = (s.bufPush b).map o.apply := by
  unfold State.bufPush
  rw [apply_ite (Option.map o.apply)]
  refine if_congr .rfl ?_ rfl
  simp [Overlay.apply, hbuf]

theorem countByte_overlay (s : State) : countByte (o.apply s) = o.apply (countByte s) := by
  unfold countByte
  exact map_ite rfl rfl

/-- A command taken does the same to both, and held it is a step of the job. -/
theorem command_overlay (ho : o.Allows R) {ins : Instr} {perform : State → State}
    (hperform : ∀ s, R (perform s) (perform (o.apply s)))
    (hjob : s.busy = true → sameOutcome R s.engineStep (o.apply s).engineStep) :
    sameOutcome R (command ins perform s) (command ins perform (o.apply s)) :=
  sameOutcome_ite hjob fun _ => sameOutcome_ite (fun _ => ho.overlaid s.retire) fun _ =>
    sameOutcome_ite (fun _ => hperform s.retire) fun _ => by
      show R _ ((o.apply s.retire).raise .sequence)
      rw [raise_overlay]
      exact ho.overlaid _

theorem illegalCommand_overlay (ho : o.Allows R)
    (hjob : s.busy = true → sameOutcome R s.engineStep (o.apply s).engineStep) :
    sameOutcome R (illegalCommand s) (illegalCommand (o.apply s)) :=
  sameOutcome_ite hjob fun _ => sameOutcome_ite (fun _ => ho.overlaid s.retire) fun _ => by
    show R _ ((o.apply s.retire).raise .illegalCmd)
    rw [raise_overlay]
    exact ho.overlaid _

theorem execWriteDin_overlay (ho : o.Allows R) (b : Byte) (hbuf : o.buf = id ∨ s.addRemain = 0)
    (hjob : s.busy = true → sameOutcome R s.engineStep (o.apply s).engineStep) :
    sameOutcome R (execWriteDin b s) (execWriteDin b (o.apply s)) := by
  refine sameOutcome_ite hjob fun _ => sameOutcome_ite (fun _ => ho.overlaid s.retire) fun _ =>
    sameOutcome_ite (fun _ => ?_) fun ha => ?_
  · show R _ ((o.apply s.retire).raise .dinUnexpected)
    rw [raise_overlay]
    exact ho.overlaid _
  · rw [show (o.apply s).retire = o.apply s.retire from rfl, bufPush_overlay (hbuf.resolve_right ha)]
    cases s.retire.bufPush b with
    | some u =>
      show R (countByte u) (countByte (o.apply u))
      rw [countByte_overlay]
      exact ho.overlaid _
    | none => rfl

theorem execReadDout_overlay (ho : o.Allows R)
    (hdigest : s.doutRemain ≠ 0 → (o.apply s).nextDigestByte = s.nextDigestByte)
    (hjob : s.busy = true → sameOutcome R s.engineStep (o.apply s).engineStep) :
    sameOutcome R (execReadDout s) (execReadDout (o.apply s)) := by
  refine sameOutcome_ite hjob fun _ => sameOutcome_ite (fun _ => ho.overlaid _) fun _ =>
    sameOutcome_ite (fun _ => ?_) fun h0 => ?_
  · show R _ ((o.apply (s.retire.respond 0)).raise .doutEmpty)
    rw [raise_overlay]
    exact ho.overlaid _
  · rw [hdigest h0]
    cases s.nextDigestByte with
    | some b => exact ho.overlaid { s.retire.respond (zext32 b) with doutRemain := s.doutRemain - 1 }
    | none => rfl

/-- An overlay that a job's steps and the digest do not see changes nothing of a step's outcome but its data. -/
theorem step_overlay (ho : o.Allows R) (hbuf : o.buf = id ∨ s.addRemain = 0)
    (hdigest : s.doutRemain ≠ 0 → (o.apply s).nextDigestByte = s.nextDigestByte)
    (hjob : ∀ u, u = s ∨ u = s.retire → s.busy = true → sameOutcome R u.engineStep (o.apply u).engineStep) :
    sameOutcome R (step s) (step (o.apply s)) := by
  have hjob' := hjob s (.inl rfl)
  unfold step
  rw [show (o.apply s).fetch = s.fetch from rfl]
  cases s.fetch with
  | nothing => exact sameOutcome_ite (hjob s.retire (.inr rfl)) fun _ => ho.overlaid s.retire
  | reset => exact ho.same s.platformReset
  | illegal => exact illegalCommand_overlay ho hjob'
  | undefined => rfl
  | instr i =>
    cases i with
    | init alg => exact command_overlay ho (fun s => initContext_overlay alg s ▸ ho.keepHash _) hjob'
    | add len => exact command_overlay ho (fun s => announce_overlay len s ▸ ho.overlaid _) hjob'
    | finalize => exact command_overlay ho (fun s => ho.overlaid (s.startJob _)) hjob'
    | getDigest => exact command_overlay ho (fun s => ho.overlaid (armDigest s)) hjob'
    | writeDin b => exact execWriteDin_overlay ho b hbuf hjob'
    | readStatus => exact ho.overlaid (s.retire.respond s.status)
    | readDout => exact execReadDout_overlay ho hdigest hjob'
    | readWo reg => exact sameOutcome_ite (fun _ => ho.overlaid (s.retire.respond 0)) fun _ => rfl
    | writeRo reg => exact sameOutcome_ite (fun _ => rfl) fun _ => ho.overlaid s.retire

end

/-! ### The register that ALG does not select (R33) -/

section

variable {fh : Vector Word 5 → Vector Word 5} {fg : ByteMatrix → ByteMatrix}

/-- Other values of the hash registers alone. -/
def hashOverlay (fh : Vector Word 5 → Vector Word 5) (fg : ByteMatrix → ByteMatrix) : Overlay where
  h := fh
  g := fg

/-- The overlay leaves the register that ALG selects alone. -/
def Unselected (fh : Vector Word 5 → Vector Word 5) (fg : ByteMatrix → ByteMatrix) (alg : Alg) : Prop :=
  (alg = .sha1 → fh = id) ∧ (alg ≠ .sha1 → fg = id)

/-- A datapath step's result with f taken of its state. -/
def mapStepResult (f : State → State) : StepResult → StepResult
  | .running s => .running (f s)
  | .finished s => .finished (f s)
  | .stopped e => .stopped e

theorem sha1Step_overlay (stage : Stage) (s : State) :
    sha1Step stage ((hashOverlay id fg).apply s) = mapStepResult (hashOverlay id fg).apply (sha1Step stage s) := by
  cases stage with
  | load =>
    show sha1LoadStep _ = mapStepResult _ (sha1LoadStep s)
    unfold sha1LoadStep
    rw [show ((hashOverlay id fg).apply s).readBlock 64 = s.readBlock 64 from rfl]
    cases s.readBlock 64 <;> rfl
  | rounds =>
    unfold sha1Step
    exact map_ite rfl rfl

theorem groestlStep_overlay (stage : Stage) (s : State) :
    groestlStep stage ((hashOverlay fh id).apply s)
      = mapStepResult (hashOverlay fh id).apply (groestlStep stage s) := by
  cases stage with
  | load =>
    show groestlLoadStep _ = mapStepResult _ (groestlLoadStep s)
    unfold groestlLoadStep
    rw [show ((hashOverlay fh id).apply s).readBlock 128 = s.readBlock 128 from rfl]
    cases s.readBlock 128 <;> rfl
  | rounds =>
    unfold groestlStep
    exact map_ite rfl rfl

theorem outputStep_overlay (stage : Stage) (s : State) :
    outputStep stage ((hashOverlay fh id).apply s)
      = mapStepResult (hashOverlay fh id).apply (outputStep stage s) := by
  cases stage with
  | load => rfl
  | rounds =>
    unfold outputStep
    exact map_ite rfl rfl

theorem blockStep_overlay {s : State} (hsel : Unselected fh fg s.alg) (stage : Stage) :
    blockStep stage ((hashOverlay fh fg).apply s) = mapStepResult (hashOverlay fh fg).apply (blockStep stage s) := by
  have halg : ((hashOverlay fh fg).apply s).alg = s.alg := rfl
  rcases blockStep_cases stage s with ⟨ha, e⟩ | ⟨ha, e⟩
  · obtain rfl := hsel.1 ha
    rw [e, ← sha1Step_overlay]
    exact ((blockStep_cases stage _).resolve_right fun h => h.1 (halg.trans ha)).2
  · obtain rfl := hsel.2 ha
    rw [e, ← groestlStep_overlay]
    exact ((blockStep_cases stage _).resolve_left fun h => ha (halg.symm.trans h.1)).2

theorem fillBlock_overlay (l : List Byte) (s : State) :
    fillBlock l ((hashOverlay fh fg).apply s)
      = (fillBlock l s).map fun p => ((hashOverlay fh fg).apply p.1, p.2) := by
  induction l generalizing s with
  | nil => rfl
  | cons x l ih =>
    unfold fillBlock
    rw [bufPush_overlay rfl]
    cases s.bufPush x with
    | none => rfl
    | some u => exact map_ite (f := Option.map _) rfl (ih u)

theorem afterPadding_overlay (s : State) :
    afterPadding ((hashOverlay fh fg).apply s) = (hashOverlay fh fg).apply (afterPadding s) := by
  unfold afterPadding
  rw [show ((hashOverlay fh fg).apply s).alg = s.alg from rfl]
  cases s.alg <;> rfl

theorem padStep_overlay (l : List Byte) (s : State) :
    padStep l ((hashOverlay fh fg).apply s) = mapNext (hashOverlay fh fg).apply (padStep l s) := by
  unfold padStep
  rw [fillBlock_overlay]
  cases fillBlock l s with
  | none => rfl
  | some p =>
    exact map_ite (f := mapNext _) rfl (congrArg Host.Outcome.next (afterPadding_overlay p.1))

/-- A job's step does not see the register that ALG does not select. -/
theorem engineStep_overlay {s : State} (hs : s.Inv) (hsel : Unselected fh fg s.alg) :
    ((hashOverlay fh fg).apply s).engineStep = mapNext (hashOverlay fh fg).apply s.engineStep := by
  unfold State.engineStep
  rw [show ((hashOverlay fh fg).apply s).seq = s.seq from rfl]
  cases hseq : s.seq with
  | none => rfl
  | compress stage =>
    simp only [compressJobStep, blockStep_overlay hsel]
    cases blockStep stage s <;> rfl
  | finalize step =>
    cases step with
    | pad => exact padStep_overlay s.padBytes s
    | block stage rest =>
      simp only [finalizeJobStep, blockStep_overlay hsel]
      cases blockStep stage s with
      | running u => rfl
      | finished u => exact padStep_overlay rest u.endBlock
      | stopped e => rfl
    | output stage =>
      obtain rfl := hsel.2 ((jobInv_output hseq).mp hs.job).2.2
      simp only [finalizeJobStep, outputStep_overlay]
      cases outputStep stage s <;> rfl

/-- The digest is read from the register that ALG selects (R117). -/
theorem nextDigestByte_overlay {s : State} (hsel : Unselected fh fg s.alg) :
    ((hashOverlay fh fg).apply s).nextDigestByte = s.nextDigestByte := by
  have hdigest : ((hashOverlay fh fg).apply s).digest = s.digest := by
    unfold State.digest
    rw [show ((hashOverlay fh fg).apply s).alg = s.alg from rfl]
    cases halg : s.alg with
    | sha1 =>
      obtain rfl := hsel.1 halg
      rfl
    | groestl512 =>
      obtain rfl := hsel.2 (by simp [halg])
      rfl
    | groestl384 =>
      obtain rfl := hsel.2 (by simp [halg])
      rfl
  rw [State.nextDigestByte, hdigest]
  rfl

theorem step_hashOverlay {R : State → State → Prop} (ho : (hashOverlay fh fg).Allows R) {s : State} (hs : s.Inv)
    (hsel : Unselected fh fg s.alg) : sameOutcome R (step s) (step ((hashOverlay fh fg).apply s)) := by
  refine step_overlay ho (.inl rfl) (fun _ => nextDigestByte_overlay hsel) fun u hu _ => ?_
  rcases hu with rfl | rfl
  · exact sameOutcome_of_eq_mapNext ho.overlaid (engineStep_overlay hs hsel)
  · exact sameOutcome_of_eq_mapNext ho.overlaid (engineStep_overlay hs.retire hsel)

end

/-! ### The obligations -/

/-- Settles O45: an overlay of the one register or of the other. -/
theorem unselectedRegisterIsNotRead : Obligations.UnselectedRegisterIsNotRead := by
  unfold Obligations.UnselectedRegisterIsNotRead
  refine fun s hs => ⟨fun ha g => ?_, fun ha h => ?_⟩
  · refine step_hashOverlay (fh := id) (fg := fun _ => g) ?_ hs ⟨fun _ => rfl, fun h => absurd ha h⟩
    exact ⟨fun _ => rfl, fun _ => rfl, fun _ => rfl⟩
  · refine step_hashOverlay (fh := fun _ => h) (fg := id) ?_ hs ⟨fun h => absurd h ha, fun _ => rfl⟩
    exact ⟨fun _ => rfl, fun _ => rfl, fun _ => rfl⟩

/-- The data of another state. -/
def dataOf (v : State) : Overlay where
  h _ := v.h
  g _ := v.g
  buf _ := v.buf
  regs _ := v.regs
  win _ := v.win
  t _ := v.t
  pm _ := v.pm
  qm _ := v.qm
  r _ := v.r
  bufDraw _ := v.bufDraw

/-- Settles O46: in IDLE no job runs, no byte is owed and none is armed, so the overlay of all the data is not seen. -/
theorem nothingIsReadBeforeInit : Obligations.NothingIsReadBeforeInit := by
  unfold Obligations.NothingIsReadBeforeInit
  intro s h g pm qm buf regs win t r k hs hp
  obtain ⟨-, -, -, -, howed⟩ := hs.idleZero hp
  refine step_overlay
    (o := dataOf { s with
      h := h, g := g, buf := buf, regs := regs, win := win, t := t, pm := pm, qm := qm, r := r, bufDraw := k })
    ⟨fun _ => rfl, fun _ => rfl, fun _ => rfl⟩ (.inr howed) (fun h0 => absurd (hs.noDigest (.inl hp)) h0)
    fun u _ hb => ?_
  exact nomatch hp.symm.trans (hs.busyPhase hb)

end Sys2Proof.Machine
end

section
/-! Runs of the sequencer: every job ends (70_reset_and_hazards.md R300), and a compression's steps compute the
compression (41_sha1.md R170, 42_groestl.md R212, R213). -/

namespace Sys2Proof.Machine

/-! ### Runs -/

theorem engineRun_succ {n : Nat} {s u : State} (h : s.engineStep = .next u) : engineRun (n + 1) s = engineRun n u := by
  simp [engineRun, h]

theorem engineRun_one (s : State) : engineRun 1 s = s.engineStep := by
  unfold engineRun
  cases s.engineStep <;> rfl

theorem engineRun_add {m n : Nat} {s u : State} (h : engineRun m s = .next u) :
    engineRun (m + n) s = engineRun n u := by
  induction m generalizing s with
  | zero =>
    cases h
    rw [Nat.zero_add]
  | succ m ih =>
    rw [Nat.add_right_comm, engineRun]
    rw [engineRun] at h
    cases hstep : s.engineStep with
    | next v =>
      simp only [hstep] at h
      exact ih h
    | fault e => simp [hstep] at h
    | refused e => simp [hstep] at h

/-- A chain of states each of which the sequencer takes to the next. -/
theorem engineRun_chain {f : Nat → State} {n : Nat} (h : ∀ i, i < n → (f i).engineStep = .next (f (i + 1))) :
    ∀ m, m ≤ n → engineRun m (f 0) = .next (f m) := by
  intro m hm
  induction m with
  | zero => rfl
  | succ m ih => rw [engineRun_add (ih (by omega)), engineRun_one, h m hm]

/-! ### Every job ends (R300) -/

/-- The steps of a compression (R310). -/
def blockSteps (alg : Alg) : Nat := if alg = .sha1 then 82 else 16

/-- The steps a compression has still to take. -/
def blockStepsLeft (stage : Stage) (s : State) : Nat :=
  match stage with
  | .load => blockSteps s.alg
  | .rounds => if s.alg = .sha1 then 81 - s.t else 15 - s.r

/-- The steps the output transform, if any, has still to take once the blocks are done (R310). -/
def outputSteps (alg : Alg) : Nat := if alg = .sha1 then 0 else 16

/-- A bound of the steps a job has still to take. -/
def stepsLeft (s : State) : Nat :=
  match s.seq with
  | .none => 0
  | .compress stage => blockStepsLeft stage s
  | .finalize .pad => 165
  | .finalize (.block stage rest) =>
    blockStepsLeft stage s + (if rest = [] then 0 else blockSteps s.alg) + outputSteps s.alg
  | .finalize (.output .load) => 16
  | .finalize (.output .rounds) => 15 - s.r

theorem blockStepsLeft_le (stage : Stage) (s : State) : blockStepsLeft stage s ≤ blockSteps s.alg := by
  unfold blockStepsLeft blockSteps
  split
  · exact le_rfl
  · split <;> omega

/-- The padding's two blocks and the output transform, before the step that stores the padding. -/
theorem two_blockSteps_add_outputSteps (alg : Alg) : 2 * blockSteps alg + outputSteps alg < 165 := by
  cases alg <;> decide

theorem stepsLeft_le (s : State) : stepsLeft s ≤ 165 := by
  have htwo := two_blockSteps_add_outputSteps s.alg
  unfold stepsLeft
  split
  case h_2 stage _ =>
    have hle := blockStepsLeft_le stage s
    omega
  case h_4 stage rest _ =>
    have hle := blockStepsLeft_le stage s
    split <;> omega
  all_goals omega

theorem stepsLeft_compress {s : State} {stage : Stage} (h : s.seq = .compress stage) :
    stepsLeft s = blockStepsLeft stage s := by
  simp [stepsLeft, h]

theorem stepsLeft_block {s : State} {stage : Stage} {rest : List Byte} (h : s.seq = .finalize (.block stage rest)) :
    stepsLeft s
      = blockStepsLeft stage s + (if rest = [] then 0 else blockSteps s.alg) + outputSteps s.alg := by
  simp [stepsLeft, h]

/-- A datapath step that goes on leaves one step less. -/
theorem blockStepsLeft_running {stage : Stage} {s u : State} (h : blockStep stage s = .running u) (q : Seq) :
    blockStepsLeft .rounds { u with seq := q } < blockStepsLeft stage s := by
  obtain ⟨ha, hb⟩ | ⟨ha, hb⟩ := blockStep_cases stage s
  · rcases sha1Step_cases stage s with ⟨rfl, _, -, e⟩ | ⟨-, -, e⟩ | ⟨rfl, hlt, e⟩ | ⟨-, -, e⟩ <;>
      cases (hb.trans e).symm.trans h
    · simp [blockStepsLeft, blockSteps, ha]
    · simp [blockStepsLeft, sha1RoundStep, ha]
      omega
  · rcases groestlStep_cases stage s with ⟨rfl, _, -, e⟩ | ⟨-, -, e⟩ | ⟨rfl, hlt, e⟩ | ⟨-, -, e⟩ <;>
      cases (hb.trans e).symm.trans h
    · simp [blockStepsLeft, blockSteps, ha]
    · simp [blockStepsLeft, groestlRoundStep, ha]
      omega

theorem blockSteps_pos (alg : Alg) : 0 < blockSteps alg := by
  cases alg <;> decide

theorem blockStepsLeft_pos (stage : Stage) {s : State} (hr : RoundsInRange s) : 0 < blockStepsLeft stage s := by
  obtain ⟨ht, hr⟩ := hr
  unfold blockStepsLeft
  split
  · exact blockSteps_pos s.alg
  · split <;> omega

/-- After the padding is used up the output transform is left, if there is one. -/
theorem afterPadding_stepsLeft (s : State) : stepsLeft (afterPadding s) = outputSteps s.alg := by
  unfold afterPadding
  split <;> rename_i ha <;> simp [stepsLeft, outputSteps, ha]

/-- Each step of a job leaves it a step less. -/
theorem JobStep.stepsLeft_lt {s t : State} (h : JobStep s t) (hs : s.Inv) (hb : s.busy = true) :
    stepsLeft t < stepsLeft s := by
  have hr : RoundsInRange s := hs.rounds
  cases h with
  | idle hseq => exact absurd hseq (hs.busyIff.mp hb)
  | @compressRuns stage u hseq hu =>
    rw [stepsLeft_compress hseq, stepsLeft_compress rfl]
    exact blockStepsLeft_running hu _
  | @compressEnds stage u hseq hu =>
    rw [stepsLeft_compress hseq]
    exact blockStepsLeft_pos stage hr
  | @pads u hseq hu =>
    have halg : u.alg = s.alg := by rw [hu.frame]
    have htwo := two_blockSteps_add_outputSteps s.alg
    rw [stepsLeft_block rfl, blockStepsLeft, halg, show stepsLeft s = 165 by simp [stepsLeft, hseq]]
    split <;> omega
  | @blockRuns stage rest u hseq hu =>
    have halg : u.alg = s.alg := by rw [blockStep_running hu]
    have hlt := blockStepsLeft_running hu (.finalize (.block .rounds rest))
    rw [stepsLeft_block rfl, stepsLeft_block hseq]
    rw [halg] at hlt ⊢
    omega
  | @blockRefills stage rest u v hseq hu hrest hv =>
    have halg : v.alg = s.alg := by rw [hv.frame, blockStep_finished_frame hu]; rfl
    have hne : rest ≠ [] := by
      rintro rfl
      exact (blockBytes_pos s.alg).ne hrest
    have hpos := blockStepsLeft_pos stage hr
    rw [stepsLeft_block rfl, stepsLeft_block hseq, blockStepsLeft, halg, if_pos rfl, if_neg hne]
    omega
  | @blocksEnd stage u hseq hu =>
    have halg : u.endBlock.alg = s.alg := by rw [blockStep_finished_frame hu]; rfl
    have hpos := blockStepsLeft_pos stage hr
    rw [afterPadding_stepsLeft, halg, stepsLeft_block hseq]
    omega
  | @outputRuns stage u hseq hu =>
    rcases outputStep_cases stage s with ⟨rfl, e⟩ | ⟨rfl, hlt, e⟩ | ⟨-, -, e⟩ <;> cases e.symm.trans hu
    · simp [stepsLeft, hseq, outputLoadStep]
    · simp [stepsLeft, hseq, outputRoundStep]
      omega
  | @outputEnds stage u hseq hu =>
    obtain ⟨-, hr14⟩ := hr
    cases stage with
    | load => cases hu
    | rounds =>
      simp [stepsLeft, hseq]
      omega

/-- A job runs to its end within the bound. -/
theorem exists_engineRun_not_busy {n : Nat} {s : State} (hs : s.Inv) (hn : stepsLeft s ≤ n) :
    ∃ m t, m ≤ n ∧ engineRun m s = .next t ∧ t.busy = false := by
  induction n generalizing s with
  | zero =>
    obtain ⟨u, -, hjob⟩ := hs.jobStep
    refine ⟨0, s, le_rfl, rfl, Bool.eq_false_iff.mpr fun hb => ?_⟩
    have hlt := hjob.stepsLeft_lt hs hb
    omega
  | succ n ih =>
    cases hb : s.busy with
    | false => exact ⟨0, s, Nat.zero_le _, rfl, hb⟩
    | true =>
      obtain ⟨u, hu, hjob⟩ := hs.jobStep
      have hlt := hjob.stepsLeft_lt hs hb
      obtain ⟨m, t, hm, hrun, ht⟩ := ih (hjob.inv hs) (by omega)
      exact ⟨m + 1, t, by omega, (engineRun_succ hu).trans hrun, ht⟩

/-- Settles O34: from any point a job has at most 165 steps left. -/
theorem jobsEnd : Obligations.JobsEnd := by
  unfold Obligations.JobsEnd
  exact fun s hs _ => exists_engineRun_not_busy hs (stepsLeft_le s)

end Sys2Proof.Machine
end

section
/-! A compression's steps compute the compression: the SHA-1 datapath (41_sha1.md R170), the Groestl pipelines and the
output transform (42_groestl.md R212, R213), in a COMPRESS job and in a FINALIZE job. -/

namespace Sys2Proof.Machine

/-! ### Where a compression stands -/

/-- The job a compression is part of; a FINALIZE job has padding left for a further block, or none. -/
inductive BlockJob where
  | compress
  | finalize (rest : List Byte)

/-- SEQ at a stage of the job's compression. -/
def BlockJob.seq : BlockJob → Stage → Seq
  | .compress, stage => .compress stage
  | .finalize rest, stage => .finalize (.block stage rest)

/-- What the job does when the compression is done. -/
def BlockJob.goOn : BlockJob → State → Result
  | .compress, s => .next s.endBlock.endJob
  | .finalize rest, s => padStep rest s.endBlock

theorem engineStep_of_running {j : BlockJob} {stage : Stage} {s u : State} (hseq : s.seq = j.seq stage)
    (hu : blockStep stage s = .running u) : s.engineStep = .next { u with seq := j.seq .rounds } := by
  cases j <;> simp only [BlockJob.seq] at hseq <;>
    simp [State.engineStep, hseq, compressJobStep, finalizeJobStep, hu, BlockJob.seq]

theorem engineStep_of_finished {j : BlockJob} {stage : Stage} {s u : State} (hseq : s.seq = j.seq stage)
    (hu : blockStep stage s = .finished u) : s.engineStep = j.goOn u := by
  cases j <;> simp only [BlockJob.seq] at hseq <;>
    simp [State.engineStep, hseq, compressJobStep, finalizeJobStep, hu, BlockJob.goOn]

/-! ### SHA-1 -/

theorem sha1Step_of_lt {s : State} (h : s.t < 80) : sha1Step .rounds s = .running (sha1RoundStep s) := if_pos h

theorem sha1Step_of_le {s : State} (h : 80 ≤ s.t) : sha1Step .rounds s = .finished (sha1LastStep s) :=
  if_neg (not_lt.mpr h)

/-- The state before round i of the compression of a block, from the state s at its load. -/
def sha1Trace (j : BlockJob) (s : State) (blk : Vector Byte 64) (i : Nat) : State :=
  { s with
    seq := j.seq .rounds, win := windowAt blk i, t := i
    regs := sha1Rounds (sha1Schedule blk) (sha1Load s.h) i }

section

variable {j : BlockJob} {s : State} {blk : Vector Byte 64} (ha : s.alg = .sha1)

include ha

theorem blockStep_of_sha1 (stage : Stage) : blockStep stage s = sha1Step stage s := by
  simp [blockStep, ha]

theorem sha1Trace_load (hseq : s.seq = j.seq .load) (hblk : s.readBlock 64 = some blk) :
    s.engineStep = .next (sha1Trace j s blk 0) :=
  engineStep_of_running hseq ((blockStep_of_sha1 ha _).trans (sha1LoadStep_some hblk))

/-- The window gives the schedule's word, so a step of the datapath is a round over the schedule. -/
theorem sha1Trace_round {i : Nat} (hi : i < 80) :
    (sha1Trace j s blk i).engineStep = .next (sha1Trace j s blk (i + 1)) := by
  have hround : sha1Rounds (sha1Schedule blk) (sha1Load s.h) (i + 1)
      = sha1Round i (windowWord i (windowAt blk i)) (sha1Rounds (sha1Schedule blk) (sha1Load s.h) i) := by
    rw [sha1Rounds, dif_pos hi, windowWord_windowAt blk hi]
  have hstep : blockStep .rounds (sha1Trace j s blk i) = .running (sha1RoundStep (sha1Trace j s blk i)) :=
    (blockStep_of_sha1 (s := sha1Trace j s blk i) ha _).trans (sha1Step_of_lt hi)
  rw [engineStep_of_running rfl hstep, sha1Trace, sha1Trace, hround]
  rfl

theorem sha1Trace_last :
    (sha1Trace j s blk 80).engineStep = j.goOn { sha1Trace j s blk 80 with h := sha1Compress s.h blk } :=
  engineStep_of_finished rfl ((blockStep_of_sha1 (s := sha1Trace j s blk 80) ha _).trans (sha1Step_of_le le_rfl))

/-- After the load and i rounds. -/
theorem sha1Trace_run (hseq : s.seq = j.seq .load) (hblk : s.readBlock 64 = some blk) {i : Nat} (hi : i ≤ 80) :
    engineRun (i + 1) s = .next (sha1Trace j s blk i) :=
  (engineRun_succ (sha1Trace_load ha hseq hblk)).trans
    (engineRun_chain (f := sha1Trace j s blk) (fun _ => sha1Trace_round ha) i hi)

/-- The 82 steps of a SHA-1 compression. -/
theorem sha1_run (hseq : s.seq = j.seq .load) (hblk : s.readBlock 64 = some blk) :
    engineRun 82 s = j.goOn { sha1Trace j s blk 80 with h := sha1Compress s.h blk } := by
  rw [show 82 = 80 + 1 + 1 from rfl, engineRun_add (sha1Trace_run ha hseq hblk le_rfl), engineRun_one,
    sha1Trace_last ha]

end

/-- Settles O35: the 82 steps, and the trace before the last. -/
theorem sha1CompressJob : Obligations.Sha1CompressJob := by
  unfold Obligations.Sha1CompressJob
  intro s blk ha hseq hblk
  refine ⟨⟨_, sha1_run (j := .compress) ha hseq hblk, rfl⟩, fun n hn => ?_⟩
  cases n with
  | zero => exact ⟨s, rfl, rfl, rfl⟩
  | succ i => exact ⟨_, sha1Trace_run (j := .compress) ha hseq hblk (by omega), rfl, rfl⟩

/-! ### Groestl -/

theorem groestlStep_of_lt {s : State} (h : s.r < 14) : groestlStep .rounds s = .running (groestlRoundStep s) :=
  if_pos h

theorem groestlStep_of_le {s : State} (h : 14 ≤ s.r) : groestlStep .rounds s = .finished (groestlLastStep s) :=
  if_neg (not_lt.mpr h)

/-- The state before dual round i of the compression of a block, from the state s at its load. -/
def groestlTrace (j : BlockJob) (s : State) (blk : Vector Byte 128) (i : Nat) : State :=
  { s with
    seq := j.seq .rounds, r := i, pm := permRounds roundP (xorMatrix s.g (msgOf blk)) i
    qm := permRounds roundQ (msgOf blk) i }

section

variable {j : BlockJob} {s : State} {blk : Vector Byte 128} (ha : s.alg ≠ .sha1)

include ha

theorem blockStep_of_ne_sha1 (stage : Stage) : blockStep stage s = groestlStep stage s :=
  ((blockStep_cases stage s).resolve_left fun h => ha h.1).2

theorem groestlTrace_load (hseq : s.seq = j.seq .load) (hblk : s.readBlock 128 = some blk) :
    s.engineStep = .next (groestlTrace j s blk 0) :=
  engineStep_of_running hseq ((blockStep_of_ne_sha1 ha _).trans (groestlLoadStep_some hblk))

theorem groestlTrace_round {i : Nat} (hi : i < 14) :
    (groestlTrace j s blk i).engineStep = .next (groestlTrace j s blk (i + 1)) :=
  engineStep_of_running rfl
    ((blockStep_of_ne_sha1 (s := groestlTrace j s blk i) ha _).trans (groestlStep_of_lt hi))

theorem groestlTrace_last :
    (groestlTrace j s blk 14).engineStep = j.goOn { groestlTrace j s blk 14 with g := groestlCompress s.g blk } :=
  engineStep_of_finished rfl
    ((blockStep_of_ne_sha1 (s := groestlTrace j s blk 14) ha _).trans (groestlStep_of_le le_rfl))

/-- After the load and i dual rounds. -/
theorem groestlTrace_run (hseq : s.seq = j.seq .load) (hblk : s.readBlock 128 = some blk) {i : Nat} (hi : i ≤ 14) :
    engineRun (i + 1) s = .next (groestlTrace j s blk i) :=
  (engineRun_succ (groestlTrace_load ha hseq hblk)).trans
    (engineRun_chain (f := groestlTrace j s blk) (fun _ => groestlTrace_round ha) i hi)

/-- The 16 steps of a Groestl compression. -/
theorem groestl_run (hseq : s.seq = j.seq .load) (hblk : s.readBlock 128 = some blk) :
    engineRun 16 s = j.goOn { groestlTrace j s blk 14 with g := groestlCompress s.g blk } := by
  rw [show 16 = 14 + 1 + 1 from rfl, engineRun_add (groestlTrace_run ha hseq hblk le_rfl), engineRun_one,
    groestlTrace_last ha]

end

/-- Settles O36: the two functions as defined, the 16 steps, and the trace before the last. -/
theorem groestlCompressJob : Obligations.GroestlCompressJob := by
  unfold Obligations.GroestlCompressJob
  refine ⟨fun _ _ => rfl, fun _ => rfl, fun s blk ha hseq hblk => ?_⟩
  refine ⟨⟨_, groestl_run (j := .compress) ha hseq hblk, rfl⟩, fun n hn => ?_⟩
  cases n with
  | zero => exact ⟨s, rfl, rfl, rfl⟩
  | succ i => exact ⟨_, groestlTrace_run (j := .compress) ha hseq hblk (by omega), rfl, rfl⟩

/-- The state before round i of the output transform, from the state s at its load. -/
def outputTrace (s : State) (i : Nat) : State :=
  { s with seq := .finalize (.output .rounds), r := i, pm := permRounds roundP s.g i }

theorem outputTrace_load {s : State} (hseq : s.seq = .finalize (.output .load)) :
    s.engineStep = .next (outputTrace s 0) := by
  simp [State.engineStep, hseq, finalizeJobStep, outputStep, outputLoadStep, outputTrace, permRounds]

theorem outputTrace_round (s : State) {i : Nat} (hi : i < 14) :
    (outputTrace s i).engineStep = .next (outputTrace s (i + 1)) := by
  have hstep : outputStep .rounds (outputTrace s i) = .running (outputRoundStep (outputTrace s i)) := if_pos hi
  show finalizeJobStep (.output .rounds) (outputTrace s i) = _
  rw [finalizeJobStep, hstep]
  rfl

/-- The 16 steps of the output transform (R213). -/
theorem output_run {s : State} (hseq : s.seq = .finalize (.output .load)) :
    engineRun 16 s = .next (State.endFinalize { outputTrace s 14 with g := groestlOutput s.g }) := by
  rw [show 16 = 14 + 1 + 1 from rfl, engineRun_add ((engineRun_succ (outputTrace_load hseq)).trans
    (engineRun_chain (f := outputTrace s) (fun _ => outputTrace_round s) 14 le_rfl)), engineRun_one]
  rfl

end Sys2Proof.Machine
end

section
/-! The FINALIZE job (40_block_engine.md R130 to R133): the padded message goes through the compression block by
block, and BLOCKS counts them. -/

namespace Sys2Proof.Machine

/-! ### A block of a byte string in BUF -/

/-- BUF holds block k of a byte string. -/
def HoldsBlock (s : State) (l : List Byte) (k : Nat) : Prop :=
  ∀ a, a < blockBytes s.alg → s.buf.read a = some (l.getD (k * blockBytes s.alg + a) 0)

theorem readBlock_eq_blockAt {s : State} {n : Nat} {l : List Byte} {k : Nat}
    (h : ∀ a, a < n → s.buf.read a = some (l.getD (k * n + a) 0)) : s.readBlock n = some (blockAt n l k) := by
  obtain ⟨blk, hblk, hget⟩ := readBlock_some fun a ha => by rw [h a ha]; rfl
  rw [hblk]
  congr 1
  ext i hi : 1
  have hi' := (hget ⟨i, hi⟩).symm.trans (h i hi)
  simpa [blockAt] using hi'

theorem heldBytes_getElem? {s : State} {a : Nat} (h : a < s.bufLen.toNat) :
    (heldBytes s)[a]? = some (s.bufByte a) := by
  simp [heldBytes, h]

theorem length_heldBytes (s : State) : (heldBytes s).length = s.bufLen.toNat := by
  simp [heldBytes]

/-- A filled block holds the buffered bytes and the first of those stored. -/
theorem Filled.holds {p : List Byte} {s t : State} (h : Filled p s t)
    (hheld : ∀ a, a < s.bufLen.toNat → (s.buf.read a).isSome = true)
    (hp : blockBytes s.alg - s.bufLen.toNat ≤ p.length) : HoldsBlock t (heldBytes s ++ p) 0 := by
  have halg : t.alg = s.alg := by rw [h.frame]
  intro a ha
  rw [halg] at ha ⊢
  rw [Nat.zero_mul, Nat.zero_add, List.getD_eq_getElem?_getD]
  rcases lt_or_ge a s.bufLen.toNat with hlt | hge
  · obtain ⟨b, hb⟩ := Option.isSome_iff_exists.mp (hheld a hlt)
    rw [h.kept a (.inl hlt), hb, List.getElem?_append_left (by rwa [length_heldBytes]), heldBytes_getElem? hlt,
      bufByte_of_read hb, Option.getD_some]
  · obtain ⟨j, rfl⟩ := Nat.exists_eq_add_of_le hge
    have hj : j < p.length := by omega
    rw [h.stored j (by omega), List.getElem?_append_right (by rw [length_heldBytes]; omega), length_heldBytes,
      Nat.add_sub_cancel_left, List.getElem?_eq_getElem hj, Option.getD_some]

/-- The next block of a byte string is the first one of what is left. -/
theorem HoldsBlock.ofDrop {s : State} {l : List Byte} (h : HoldsBlock s (l.drop (blockBytes s.alg)) 0) :
    HoldsBlock s l 1 := by
  intro a ha
  rw [h a ha, List.getD_eq_getElem?_getD, List.getElem?_drop, List.getD_eq_getElem?_getD]
  simp

/-! ### The blocks of a byte string -/

/-- In w, k blocks of the byte string have gone through the compression since s. -/
structure AfterBlocks (s : State) (l : List Byte) (k : Nat) (w : State) : Prop where
  alg : w.alg = s.alg
  total : w.total = s.total
  blocks : w.blocks = s.blocks + BitVec.ofNat 64 k
  sha1 : s.alg = .sha1 → w.h = sha1Blocks s.h l k ∧ w.g = s.g
  groestl : s.alg ≠ .sha1 → w.g = groestlBlocks s.g l k ∧ w.h = s.h

/-- The compression of the block in BUF is the next one of the byte string. -/
theorem AfterBlocks.run {s w : State} {l : List Byte} {k : Nat} (h : AfterBlocks s l k w) {j : BlockJob}
    (hseq : w.seq = j.seq .load) (hblk : HoldsBlock w l k) :
    ∃ u, engineRun (blockSteps s.alg) w = j.goOn u ∧ AfterBlocks s l (k + 1) u.endBlock := by
  obtain ⟨halg, htotal, hblocks, hsha1, hgroestl⟩ := h
  have hcount : w.blocks + 1 = s.blocks + BitVec.ofNat 64 (k + 1) := by
    rw [hblocks, BitVec.add_assoc, BitVec.ofNat_add]
    rfl
  by_cases ha : s.alg = .sha1
  · have haw := halg.trans ha
    obtain ⟨hh, hg⟩ := hsha1 ha
    have hread : w.readBlock 64 = some (blockAt 64 l k) :=
      readBlock_eq_blockAt (by rw [HoldsBlock, haw] at hblk; exact hblk)
    have hrun := sha1_run haw hseq hread
    rw [blockSteps, if_pos ha]
    exact ⟨_, hrun, halg, htotal, hcount, fun _ => ⟨congrArg (sha1Compress · (blockAt 64 l k)) hh, hg⟩,
      fun hne => absurd ha hne⟩
  · have haw : w.alg ≠ .sha1 := halg ▸ ha
    obtain ⟨hg, hh⟩ := hgroestl ha
    have hread : w.readBlock 128 = some (blockAt 128 l k) :=
      readBlock_eq_blockAt (by rw [HoldsBlock, blockBytes_of_ne_sha1 haw] at hblk; exact hblk)
    have hrun := groestl_run haw hseq hread
    rw [blockSteps, if_neg ha]
    exact ⟨_, hrun, halg, htotal, hcount, fun h => absurd h ha,
      fun _ => ⟨congrArg (groestlCompress · (blockAt 128 l k)) hg, hh⟩⟩

/-- What the job compresses: the buffered bytes and the padding (R130). -/
def State.paddedBytes (s : State) : List Byte := heldBytes s ++ s.padBytes

theorem drop_paddedBytes {s : State} (h : s.bufLen.toNat ≤ blockBytes s.alg) :
    s.paddedBytes.drop (blockBytes s.alg) = s.padBytes.drop (blockBytes s.alg - s.bufLen.toNat) := by
  rw [State.paddedBytes, List.drop_append, length_heldBytes, List.drop_eq_nil_of_le (by rwa [length_heldBytes]),
    List.nil_append]

/-- The step that stores the padding: the first block of the padded bytes is in BUF. -/
theorem pad_run {s : State} (hs : s.Inv) (hseq : s.seq = .finalize .pad) :
    ∃ u, s.engineStep = .next u ∧ AfterBlocks s s.paddedBytes 0 u ∧ HoldsBlock u s.paddedBytes 0
      ∧ u.seq = .finalize (.block .load (s.paddedBytes.drop (blockBytes s.alg))) := by
  obtain ⟨hlt, -⟩ := (jobInv_pad hseq).mp hs.job
  have hlen := length_padBytes s hlt
  obtain ⟨u, hu, hstep⟩ := padStep_fills s.padBytes s hlt (by omega)
  have hjob : s.engineStep = padStep s.padBytes s := by
    rw [State.engineStep, hseq]
    rfl
  have hholds := hu.holds hs.bufHeld (by omega)
  refine ⟨_, hjob.trans hstep, ?_, hholds, by rw [drop_paddedBytes hlt.le]⟩
  rw [hu.frame]
  exact ⟨rfl, rfl, (BitVec.add_zero _).symm, fun _ => ⟨rfl, rfl⟩, fun _ => ⟨rfl, rfl⟩⟩

/-- The second block's padding is stored in the step that ends the first (log entry 3). -/
theorem refill_run {s u : State} {l : List Byte} (hu : AfterBlocks s l 1 u.endBlock)
    (hl : l.length = 2 * blockBytes s.alg) :
    ∃ v, padStep (l.drop (blockBytes s.alg)) u.endBlock = .next v ∧ AfterBlocks s l 1 v ∧ HoldsBlock v l 1
      ∧ v.seq = .finalize (.block .load []) := by
  have halg := hu.alg
  have hrest : (l.drop (blockBytes s.alg)).length = blockBytes s.alg := by rw [List.length_drop]; omega
  have hlt : u.endBlock.bufLen.toNat < blockBytes u.endBlock.alg := blockBytes_pos _
  obtain ⟨v, hv, hstep⟩ := padStep_fills (l.drop (blockBytes s.alg)) u.endBlock hlt
    (by rw [halg, hrest]; exact Nat.sub_le ..)
  have hvalg : v.alg = s.alg := by rw [hv.frame]; exact halg
  have hnone : (l.drop (blockBytes s.alg)).drop (blockBytes u.endBlock.alg - u.endBlock.bufLen.toNat) = [] :=
    List.drop_eq_nil_of_le (by rw [halg, hrest]; exact le_rfl)
  have hholds : HoldsBlock v (l.drop (blockBytes v.alg)) 0 := by
    rw [hvalg]
    exact hv.holds (fun a ha => absurd ha (Nat.not_lt_zero a)) (by rw [halg, hrest]; exact Nat.sub_le ..)
  refine ⟨_, hstep, ?_, hholds.ofDrop, by rw [hnone]⟩
  obtain ⟨_, htotal, hblocks, hsha1, hgroestl⟩ := hu
  rw [hv.frame]
  exact ⟨halg, htotal, hblocks, hsha1, hgroestl⟩

/-- With no padding left the job goes on to its end. -/
theorem padStep_endBlock_nil (u : State) : padStep [] u.endBlock = .next (afterPadding u.endBlock) :=
  padStep_nil (s := u.endBlock) (blockBytes_pos u.alg).ne

/-- The blocks of a FINALIZE job: the padding is stored, and each block is compressed in turn (R132). -/
theorem finalize_blocks {s : State} (hs : s.Inv) (hseq : s.seq = .finalize .pad) :
    ∃ w, engineRun (1 + blockSteps s.alg * npad (blockBytes s.alg) s.bufLen.toNat) s = .next (afterPadding w)
      ∧ AfterBlocks s s.paddedBytes (npad (blockBytes s.alg) s.bufLen.toNat) w ∧ w.bufLen = 0 := by
  obtain ⟨hlt, -⟩ := (jobInv_pad hseq).mp hs.job
  have hlen : s.paddedBytes.length = npad (blockBytes s.alg) s.bufLen.toNat * blockBytes s.alg := by
    rw [State.paddedBytes, List.length_append, length_heldBytes]
    exact add_length_padding s.alg _ hlt
  obtain ⟨u, hpad, hafter, hholds, huseq⟩ := pad_run hs hseq
  have hfirst := (engineRun_one s).trans hpad
  obtain ⟨v, hrun, hv⟩ := hafter.run (j := .finalize (s.paddedBytes.drop (blockBytes s.alg))) huseq hholds
  rcases le_or_gt (s.bufLen.toNat + 9) (blockBytes s.alg) with hr | hr
  · rw [npad_of_le hr, one_mul] at hlen
    have hgoOn : engineRun (blockSteps s.alg) u = .next (afterPadding v.endBlock) := by
      rw [hrun, List.drop_eq_nil_of_le hlen.le]
      exact padStep_endBlock_nil v
    rw [npad_of_le hr, mul_one, engineRun_add hfirst]
    exact ⟨_, hgoOn, hv, rfl⟩
  · rw [npad_of_lt hr] at hlen
    obtain ⟨w, hrefill, hw, hwholds, hwseq⟩ := refill_run hv hlen
    obtain ⟨x, hrun', hx⟩ := hw.run (j := .finalize []) hwseq hwholds
    rw [npad_of_lt hr, mul_two, engineRun_add hfirst, engineRun_add (hrun.trans hrefill)]
    exact ⟨_, hrun'.trans (padStep_endBlock_nil x), hx, rfl⟩

/-! ### The whole job -/

/-- Where the algorithm has an output transform, the job runs it once, at the end (R132). -/
theorem finalize_run_groestl {s w : State} (ha : s.alg ≠ .sha1) {n : Nat}
    (hrun : engineRun n s = .next (afterPadding w)) (hw : w.alg = s.alg) :
    engineRun (n + 16) s = .next (State.endFinalize { outputTrace w 14 with g := groestlOutput w.g }) := by
  have hafter : afterPadding w = { w with seq := .finalize (.output .load) } := by
    unfold afterPadding
    split
    · exact absurd (hw.symm.trans ‹_›) ha
    · rfl
    · rfl
  rw [engineRun_add hrun, hafter]
  exact output_run rfl

theorem afterPadding_of_sha1 {s : State} (ha : s.alg = .sha1) : afterPadding s = s.endFinalize := by
  simp [afterPadding, ha]

theorem lengthValue_bitLength (s : State) : lengthValue .bitLength s = s.total * 8 := by
  unfold lengthValue
  split <;> rfl

theorem lengthValue_blockCount {s : State} (ha : s.alg ≠ .sha1) :
    lengthValue .blockCount s = s.blocks + BitVec.ofNat 64 (npad (blockBytes s.alg) s.bufLen.toNat) := by
  unfold lengthValue
  split
  · exact absurd ‹_› ha
  · rfl
  · rfl

/-- Settles O37: SHA-1 is done when the padding is used up. -/
theorem sha1FinalizeJob : Obligations.Sha1FinalizeJob := by
  unfold Obligations.Sha1FinalizeJob
  intro s hs ha hseq r n
  have hn : npad (blockBytes s.alg) s.bufLen.toNat = n := by
    rw [ha]
    exact if_congr (by show r + 9 ≤ 64 ↔ r ≤ 55; omega) rfl rfl
  have hbytes : s.paddedBytes = heldBytes s ++ padding 64 r (s.total * 8) := by
    simp [State.paddedBytes, State.padBytes, lengthValue, ha, blockBytes, r]
  obtain ⟨w, hrun, ⟨halg, htotal, hblocks, hsha1, -⟩, hlen⟩ := finalize_blocks hs hseq
  obtain ⟨hh, hg⟩ := hsha1 ha
  rw [hn, blockSteps, if_pos ha, afterPadding_of_sha1 (halg.trans ha)] at hrun
  rw [hn] at hblocks hh
  rw [hbytes] at hh
  exact ⟨_, hrun, hh, hblocks, hlen, htotal, rfl, rfl, rfl, rfl, hg, halg⟩

/-- Settles O38: the output transform follows the blocks. -/
theorem groestlFinalizeJob : Obligations.GroestlFinalizeJob := by
  unfold Obligations.GroestlFinalizeJob
  intro s hs ha hseq r n
  have hn : npad (blockBytes s.alg) s.bufLen.toNat = n := by
    rw [blockBytes_of_ne_sha1 ha]
    exact if_congr (by show r + 9 ≤ 128 ↔ r ≤ 119; omega) rfl rfl
  have hlength : lengthValue Config.groestlLenMode s = s.blocks + BitVec.ofNat 64 n := hn ▸ lengthValue_blockCount ha
  have hbytes : s.paddedBytes = heldBytes s ++ padding 128 r (s.blocks + BitVec.ofNat 64 n) := by
    rw [State.paddedBytes, State.padBytes, hlength, blockBytes_of_ne_sha1 ha]
  obtain ⟨w, hrun, ⟨halg, htotal, hblocks, -, hgroestl⟩, hlen⟩ := finalize_blocks hs hseq
  obtain ⟨hg, hh⟩ := hgroestl ha
  rw [hn, blockSteps, if_neg ha] at hrun
  rw [hn] at hblocks hg
  rw [hbytes] at hg
  exact ⟨_, finalize_run_groestl ha hrun halg, congrArg groestlOutput hg, hblocks, hlen, htotal, rfl, rfl, rfl, rfl,
    hh, halg⟩

/-! ### The counts (R131, R133) -/

/-- The full blocks and the padding blocks of what is left are ⌈(n + 9)/B⌉. -/
theorem div_add_npad (alg : Alg) (n : Nat) :
    n / blockBytes alg + npad (blockBytes alg) (n % blockBytes alg)
      = (n + 9 + (blockBytes alg - 1)) / blockBytes alg := by
  rcases le_or_gt (n % blockBytes alg + 9) (blockBytes alg) with hr | hr
  · rw [npad_of_le hr]
    cases alg <;> simp only [blockBytes] at hr ⊢ <;> omega
  · rw [npad_of_lt hr]
    cases alg <;> simp only [blockBytes] at hr ⊢ <;> omega

/-- At the start of a FINALIZE job BLOCKS and the padding blocks count the padded message, without wrapping. -/
theorem blocks_add_npad {s : State} (hs : s.Inv) (hseq : s.seq = .finalize .pad) :
    (s.blocks + BitVec.ofNat 64 (npad (blockBytes s.alg) s.bufLen.toNat)).toNat
      = (s.total.toNat + 9 + (blockBytes s.alg - 1)) / blockBytes s.alg := by
  have hlt := ((jobInv_pad hseq).mp hs.job).1
  have htotal := hs.total (hs.phase_of_seq (by simp [hseq])) (by simp [countsMessage, hseq])
  have hpos := blockBytes_pos s.alg
  have hle : s.blocks.toNat ≤ s.blocks.toNat * blockBytes s.alg := Nat.le_mul_of_pos_right _ hpos
  have hbound := hs.bound
  have hmax : maxMsgBytes = 2 ^ 61 - 1 := rfl
  have hnpad : npad (blockBytes s.alg) s.bufLen.toNat ≤ 2 := by
    unfold npad
    split <;> omega
  have hdiv : s.total.toNat / blockBytes s.alg = s.blocks.toNat := by
    rw [htotal, Nat.mul_comm, Nat.mul_add_div hpos, Nat.div_eq_of_lt hlt, Nat.add_zero]
  have hmod : s.total.toNat % blockBytes s.alg = s.bufLen.toNat := by
    rw [htotal, Nat.mul_comm, Nat.mul_add_mod, Nat.mod_eq_of_lt hlt]
  have hsmall : (BitVec.ofNat 64 (npad (blockBytes s.alg) s.bufLen.toNat)).toNat
      = npad (blockBytes s.alg) s.bufLen.toNat :=
    Nat.mod_eq_of_lt (by omega)
  rw [← div_add_npad, hdiv, hmod, BitVec.toNat_add_of_lt (by omega), hsmall]

/-- Settles O50: the blocks of the job, and then the end of the padding or the output transform. -/
theorem compressionCount : Obligations.CompressionCount := by
  unfold Obligations.CompressionCount
  refine ⟨fun s hs hseq => ?_, div_add_npad⟩
  obtain ⟨w, hrun, ⟨halg, -, hblocks, -, -⟩, -⟩ := finalize_blocks hs hseq
  have hcount := (congrArg BitVec.toNat hblocks).trans (blocks_add_npad hs hseq)
  by_cases ha : s.alg = .sha1
  · rw [afterPadding_of_sha1 (halg.trans ha)] at hrun
    exact ⟨_, _, hrun, rfl, rfl, hcount⟩
  · exact ⟨_, _, finalize_run_groestl ha hrun halg, rfl, rfl, hcount⟩

/-- The message length in bits does not wrap (R35). -/
theorem total_mul_eight {s : State} (hs : s.Inv) : (s.total * 8).toNat = 8 * s.total.toNat := by
  have hbound := hs.bound
  have hmax : maxMsgBytes = 2 ^ 61 - 1 := rfl
  have height : (8 : DWord).toNat = 8 := rfl
  rw [BitVec.toNat_mul, height, Nat.mod_eq_of_lt (by omega), Nat.mul_comm]

/-- Settles O51. -/
theorem lengthFieldCountsMessage : Obligations.LengthFieldCountsMessage := by
  unfold Obligations.LengthFieldCountsMessage
  intro s hs _ hseq
  have htotal := total_mul_eight hs
  have hblocks := blocks_add_npad hs hseq
  refine ⟨fun ha mode => by simpa [lengthValue, ha] using htotal, fun ha => ⟨?_, ?_⟩⟩
  · rw [lengthValue_bitLength]
    exact htotal
  · rw [lengthValue_blockCount ha, hblocks, blockBytes_of_ne_sha1 ha]

end Sys2Proof.Machine
end

section
/-! Absorbing bytes, as runs of the machine: the state after the bytes does not depend on how they are split into
ADDs (40_block_engine.md R122). -/

namespace Sys2Proof.Machine

/-! ### Runs of the machine -/

theorem run_succ {n : Nat} {s u : State} (h : step s = .next u) : run (n + 1) s = run n u := by
  simp [run, h]

theorem run_add {m n : Nat} {s u : State} (h : run m s = .next u) : run (m + n) s = run n u := by
  induction m generalizing s with
  | zero =>
    cases h
    rw [Nat.zero_add]
  | succ m ih =>
    rw [Nat.add_right_comm, run]
    rw [run] at h
    cases hstep : step s with
    | next v =>
      simp only [hstep] at h
      exact ih h
    | fault e => simp [hstep] at h
    | refused e => simp [hstep] at h

/-- Accesses that a job holds. -/
def AllHeld (events : List HostEvent) : Prop :=
  ∀ e ∈ events, ∃ i : Instr, e = .access (encode i) ∧ i.wellFormed = true ∧ neverHeld i = false

/-- While BUSY = 1 a step is a step of the job, where the host issues what is held or nothing more. -/
theorem step_of_busy {s : State} (hb : s.busy = true) (hp : AllHeld s.pending) : step s = s.engineStep := by
  cases hpending : s.pending with
  | nil => rw [step_of_pending_nil hpending, quietStep_of_busy hb, retire_of_pending_nil hpending]
  | cons e rest =>
    obtain ⟨i, rfl, hwf, hheld⟩ := hp e (by simp [hpending])
    rw [step_of_encode hwf hpending, exec_of_held hb hheld]

/-- While the job goes on a run of the machine is a run of the sequencer. -/
theorem run_eq_engineRun {n : Nat} {s : State} (hp : AllHeld s.pending)
    (hbusy : ∀ m, m < n → ∃ u, engineRun m s = .next u ∧ u.busy = true) : run n s = engineRun n s := by
  induction n generalizing s with
  | zero => rfl
  | succ n ih =>
    obtain ⟨u, hu, hb⟩ := hbusy 0 (Nat.succ_pos n)
    cases hu
    rw [run, engineRun, step_of_busy hb hp]
    cases hstep : s.engineStep with
    | next v =>
      refine ih ((engineStep_keeps hstep).pending ▸ hp) fun m hm => ?_
      obtain ⟨u, hu, hb⟩ := hbusy (m + 1) (by omega)
      exact ⟨u, (engineRun_succ hstep).symm.trans hu, hb⟩
    | fault e => rfl
    | refused e => rfl

/-! ### Absorbing a byte -/

/-- The state with other accesses to come and another count of bytes owed. -/
def withHost (pending : List HostEvent) (owed : BitVec 24) (s : State) : State :=
  { s with pending := pending, addRemain := owed }

/-- What the COMPRESS job of a full buffer leaves (R121). -/
def compressBuffer (s : State) : State :=
  if s.alg = .sha1 then
    State.endJob (State.endBlock { sha1Trace .compress s (blockAt 64 (heldBytes s) 0) 80 with
      h := sha1Compress s.h (blockAt 64 (heldBytes s) 0) })
  else
    State.endJob (State.endBlock { groestlTrace .compress s (blockAt 128 (heldBytes s) 0) 14 with
      g := groestlCompress s.g (blockAt 128 (heldBytes s) 0) })

/-- The byte stored and counted in TOTAL (R120). -/
def pushByte (b : Byte) (s : State) : State :=
  { s with buf := s.buf.write s.bufLen.toNat b, bufLen := s.bufLen + 1, total := s.total + 1 }

/-- What a message byte leaves, its COMPRESS job with it, but for the bytes owed and the host's list (R120, R121). -/
def absorbByte (s : State) (b : Byte) : State :=
  if s.bufLen.toNat + 1 = blockBytes s.alg then compressBuffer (pushByte b s) else pushByte b s

section

variable (p : List HostEvent) (n : BitVec 24) (s : State)

theorem heldBytes_withHost : heldBytes (withHost p n s) = heldBytes s := rfl

/-- The job does not look at the bytes owed or the host's list. -/
theorem compressBuffer_withHost : compressBuffer (withHost p n s) = withHost p n (compressBuffer s) := by
  unfold compressBuffer
  rw [heldBytes_withHost]
  exact map_ite (f := withHost p n) rfl rfl

theorem absorbByte_withHost (b : Byte) :
    absorbByte (withHost p n s) b = withHost p n (absorbByte s b) := by
  unfold absorbByte
  exact map_ite (f := withHost p n) (compressBuffer_withHost p n (pushByte b s)) rfl

end

theorem absorbByte_fields (s : State) (b : Byte) :
    (absorbByte s b).phase = s.phase ∧ (absorbByte s b).total = s.total + 1
      ∧ (s.busy = false → (absorbByte s b).busy = false) := by
  unfold absorbByte compressBuffer
  split
  · split <;> exact ⟨rfl, rfl, fun _ => rfl⟩
  · exact ⟨rfl, rfl, id⟩

/-- A full buffer is the block of the bytes it holds. -/
theorem readBlock_heldBytes {s : State} {n : Nat} (hfull : s.bufLen.toNat = n)
    (hheld : ∀ a, a < n → (s.buf.read a).isSome = true) : s.readBlock n = some (blockAt n (heldBytes s) 0) := by
  refine readBlock_eq_blockAt fun a ha => ?_
  obtain ⟨b, hb⟩ := Option.isSome_iff_exists.mp (hheld a ha)
  rw [hb, Nat.zero_mul, Nat.zero_add, List.getD_eq_getElem?_getD, heldBytes_getElem? (hfull ▸ ha), bufByte_of_read hb,
    Option.getD_some]

/-- The COMPRESS job of a full buffer, with BUSY = 1 until its last step. -/
theorem compressBuffer_run {s : State} (hfull : s.bufLen.toNat = blockBytes s.alg)
    (hheld : ∀ a, a < blockBytes s.alg → (s.buf.read a).isSome = true) :
    engineRun (blockSteps s.alg) (s.startJob (.compress .load)) = .next (compressBuffer s)
      ∧ ∀ m, m < blockSteps s.alg →
        ∃ u, engineRun m (s.startJob (.compress .load)) = .next u ∧ u.busy = true := by
  by_cases ha : s.alg = .sha1
  · rw [ha] at hfull hheld
    have hread : (s.startJob (.compress .load)).readBlock 64 = _ := readBlock_heldBytes hfull hheld
    rw [blockSteps, if_pos ha, compressBuffer, if_pos ha]
    refine ⟨sha1_run (j := .compress) (s := s.startJob _) ha rfl hread, fun m hm => ?_⟩
    obtain ⟨u, hu, hb, -⟩ := (sha1CompressJob (s.startJob _) _ ha rfl hread).2 m hm
    exact ⟨u, hu, hb⟩
  · rw [blockBytes_of_ne_sha1 ha] at hfull hheld
    have hread : (s.startJob (.compress .load)).readBlock 128 = _ := readBlock_heldBytes hfull hheld
    rw [blockSteps, if_neg ha, compressBuffer, if_neg ha]
    refine ⟨groestl_run (j := .compress) (s := s.startJob _) ha rfl hread, fun m hm => ?_⟩
    obtain ⟨u, hu, hb, -⟩ := (groestlCompressJob.2.2 (s.startJob _) _ ha rfl hread).2 m hm
    exact ⟨u, hu, hb⟩

/-- A state that waits for message bytes. -/
structure Absorbing (s : State) : Prop where
  inv : s.Inv
  phase : s.phase = .absorb
  idle : s.busy = false

/-- One owed byte is written, and a full buffer compressed. -/
theorem absorbByte_run {s : State} (hs : Absorbing s) (ha : s.addRemain ≠ 0) {b : Byte} {p : List HostEvent}
    (hpending : s.pending = .access (encode (.writeDin b)) :: p) (hp : AllHeld p) :
    ∃ m, run m s = .next (withHost p (s.addRemain - 1) (absorbByte s b)) := by
  obtain ⟨hinv, hphase, hb⟩ := hs
  have hl : s.bufLen.toNat < bufBytes := (hinv.bufLen_lt_of_not_busy hb).trans_le (blockBytes_le s.alg)
  have hstep := (step_of_encode (i := .writeDin b) rfl hpending).trans
    (execWriteDin_of_owed b hb (by simp [hphase]) ha hl)
  have hstore : storeByte b s = withHost p (s.addRemain - 1) (pushByte b s) := by
    simp [storeByte, pushByte, withHost, hpending]
  by_cases hfull : s.bufLen.toNat + 1 = blockBytes s.alg
  · rw [if_pos hfull] at hstep
    have hinv' : ((storeByte b s).startJob (.compress .load)).Inv := stepKeepsInvariant s _ hinv hstep
    have hheld := hinv'.blockHeld ((jobInv_compress rfl).mp hinv'.job)
    have hlen : (storeByte b s).bufLen.toNat = blockBytes s.alg := (bufLen_succ_toNat hl).trans hfull
    obtain ⟨hjob, hbusy⟩ := compressBuffer_run (s := storeByte b s) hlen hheld
    have hrun := run_eq_engineRun (s := (storeByte b s).startJob (.compress .load))
      (by show AllHeld s.pending.tail; rw [hpending]; exact hp) hbusy
    refine ⟨1 + blockSteps s.alg, ?_⟩
    rw [run_add ((run_succ (n := 0) hstep).trans rfl)]
    refine (hrun.trans hjob).trans ?_
    rw [hstore, compressBuffer_withHost, absorbByte, if_pos hfull]
  · rw [if_neg hfull, hstore] at hstep
    exact ⟨1, (run_succ hstep).trans (by rw [absorbByte, if_neg hfull]; rfl)⟩

/-! ### Absorbing a byte string -/

theorem Absorbing.ofRun {s t : State} {m : Nat} (hs : Absorbing s) (h : run m s = .next t) (hp : t.phase = .absorb)
    (hb : t.busy = false) : Absorbing t :=
  ⟨run_inv hs.inv h, hp, hb⟩

/-- What a byte string leaves, but for the bytes owed and the host's list. -/
def absorbBytes (s : State) (bytes : List Byte) : State := bytes.foldl absorbByte s

theorem absorbBytes_withHost (p : List HostEvent) (n : BitVec 24) (s : State) (bytes : List Byte) :
    absorbBytes (withHost p n s) bytes = withHost p n (absorbBytes s bytes) := by
  induction bytes generalizing s with
  | nil => rfl
  | cons b bytes ih => rw [absorbBytes, List.foldl_cons, absorbByte_withHost, ← absorbBytes, ih]; rfl

theorem absorbBytes_total (s : State) (bytes : List Byte) :
    (absorbBytes s bytes).total = s.total + BitVec.ofNat 64 bytes.length := by
  induction bytes generalizing s with
  | nil => exact (BitVec.add_zero _).symm
  | cons b bytes ih =>
    rw [absorbBytes, List.foldl_cons, ← absorbBytes, ih, (absorbByte_fields s b).2.1, List.length_cons,
      BitVec.add_assoc, Nat.add_comm, BitVec.ofNat_add]
    rfl

theorem absorbBytes_absorbing {s : State} (bytes : List Byte) (hp : s.phase = .absorb) (hb : s.busy = false) :
    (absorbBytes s bytes).phase = .absorb ∧ (absorbBytes s bytes).busy = false := by
  induction bytes generalizing s with
  | nil => exact ⟨hp, hb⟩
  | cons b bytes ih =>
    obtain ⟨hphase, -, hbusy⟩ := absorbByte_fields s b
    exact ih (hphase.trans hp) (hbusy hb)

theorem chunkEvents_held (chunk : List Byte) : AllHeld (chunkEvents chunk) := by
  intro e he
  rcases List.mem_cons.mp he with rfl | he
  · exact ⟨_, rfl, rfl, rfl⟩
  · obtain ⟨b, -, rfl⟩ := List.mem_map.mp he
    exact ⟨_, rfl, rfl, rfl⟩

theorem AllHeld.append {p q : List HostEvent} (hp : AllHeld p) (hq : AllHeld q) : AllHeld (p ++ q) :=
  fun e he => (List.mem_append.mp he).elim (hp e) (hq e)

theorem AllHeld.tail {e : HostEvent} {p : List HostEvent} (h : AllHeld (e :: p)) : AllHeld p :=
  fun e' he => h e' (List.mem_cons_of_mem _ he)

/-- The DIN writes of the bytes. -/
def byteEvents (bytes : List Byte) : List HostEvent := bytes.map fun b => .access (encode (.writeDin b))

theorem withHost_eq_self {s : State} {p : List HostEvent} {n : BitVec 24} (hp : s.pending = p) (hn : s.addRemain = n) :
    withHost p n s = s := by
  subst hp hn
  rfl

/-- The owed bytes are written one after the other. -/
theorem absorbBytes_run {s : State} (hs : Absorbing s) {bytes : List Byte} {p : List HostEvent}
    (howed : s.addRemain = BitVec.ofNat 24 bytes.length) (hlen : bytes.length < 2 ^ 24)
    (hpending : s.pending = byteEvents bytes ++ p) (hp : AllHeld (byteEvents bytes ++ p)) :
    ∃ m, run m s = .next (withHost p 0 (absorbBytes s bytes)) := by
  induction bytes generalizing s with
  | nil => exact ⟨0, congrArg Host.Outcome.next (withHost_eq_self hpending howed).symm⟩
  | cons b bytes ih =>
    rw [List.length_cons] at howed hlen
    have hne : s.addRemain ≠ 0 := by
      rw [howed]
      intro h
      have h0 : (bytes.length + 1) % 2 ^ 24 = 0 := congrArg BitVec.toNat h
      omega
    have hpred : s.addRemain - 1 = BitVec.ofNat 24 bytes.length := by
      rw [howed, BitVec.ofNat_add]
      exact BitVec.add_sub_cancel _ _
    obtain ⟨m, hm⟩ := absorbByte_run hs hne (p := byteEvents bytes ++ p) hpending hp.tail
    rw [hpred] at hm
    obtain ⟨hphase, -, hbusy⟩ := absorbByte_fields s b
    have hs' := hs.ofRun hm (hphase.trans hs.phase) (hbusy hs.idle)
    obtain ⟨n, hn⟩ := ih hs' rfl (by omega) rfl hp.tail
    refine ⟨m + n, (run_add hm).trans (hn.trans ?_)⟩
    rw [absorbBytes_withHost]
    rfl

/-- An ADD and its bytes (R122). -/
theorem chunk_run {s : State} (hs : Absorbing s) (ha : s.addRemain = 0) {chunk : List Byte} {p : List HostEvent}
    (hlen : chunk.length < 2 ^ 24) (htotal : s.total.toNat + chunk.length ≤ 2 ^ 61 - 1)
    (hpending : s.pending = chunkEvents chunk ++ p) (hp : AllHeld p) :
    ∃ m, run m s = .next (withHost p 0 (absorbBytes s chunk)) := by
  have hcount : (BitVec.ofNat 24 chunk.length).toNat = chunk.length := Nat.mod_eq_of_lt hlen
  have hadd := (addAnnouncesBytes (BitVec.ofNat 24 chunk.length) s hs.idle hs.phase ha).1 (by rwa [hcount])
  have hstep : step s = .next (withHost (byteEvents chunk ++ p) (BitVec.ofNat 24 chunk.length) s) := by
    rw [step_of_encode rfl hpending, hadd, hpending]
    rfl
  have hs' := hs.ofRun ((run_succ (n := 0) hstep).trans rfl) hs.phase hs.idle
  obtain ⟨m, hm⟩ := absorbBytes_run hs' rfl hlen rfl ((chunkEvents_held chunk).append hp).tail
  refine ⟨m + 1, (run_succ hstep).trans (hm.trans ?_)⟩
  rw [absorbBytes_withHost]
  rfl

theorem chunks_held (chunks : List (List Byte)) : AllHeld (chunks.flatMap chunkEvents) := by
  intro e he
  obtain ⟨c, -, hc⟩ := List.mem_flatMap.mp he
  exact chunkEvents_held c e hc

/-- ADDs with their bytes leave what the bytes leave, however they are split. -/
theorem chunks_run {s : State} (hs : Absorbing s) (ha : s.addRemain = 0) {chunks : List (List Byte)}
    (hlen : ∀ c ∈ chunks, c.length < 2 ^ 24) (htotal : s.total.toNat + chunks.flatten.length ≤ 2 ^ 61 - 1)
    (hpending : s.pending = chunks.flatMap chunkEvents) :
    ∃ m, run m s = .next (withHost [] 0 (absorbBytes s chunks.flatten)) := by
  induction chunks generalizing s with
  | nil => exact ⟨0, congrArg Host.Outcome.next (withHost_eq_self hpending ha).symm⟩
  | cons c chunks ih =>
    rw [List.flatten_cons, List.length_append] at htotal
    obtain ⟨m, hm⟩ := chunk_run hs ha (hlen c List.mem_cons_self) (by omega) hpending (chunks_held chunks)
    obtain ⟨hphase, hbusy⟩ := absorbBytes_absorbing c hs.phase hs.idle
    have hcount : (absorbBytes s c).total.toNat = s.total.toNat + c.length := by
      rw [absorbBytes_total, BitVec.toNat_add, BitVec.toNat_ofNat, Nat.add_mod_mod, Nat.mod_eq_of_lt (by omega)]
    obtain ⟨n, hn⟩ := ih (hs.ofRun hm hphase hbusy) rfl (fun d hd => hlen d (List.mem_cons_of_mem _ hd))
      (by show (absorbBytes s c).total.toNat + _ ≤ _; omega) rfl
    refine ⟨m + n, (run_add hm).trans (hn.trans ?_)⟩
    rw [absorbBytes_withHost, List.flatten_cons, absorbBytes, absorbBytes, absorbBytes, List.foldl_append]
    rfl

/-- Settles O39. -/
theorem chunkInvariance : Obligations.ChunkInvariance := by
  unfold Obligations.ChunkInvariance
  intro s xs ys hs hphase hb ha heq hxs hys htotal
  have hrun : ∀ zs : List (List Byte), zs.flatten = xs.flatten → (∀ z ∈ zs, z.length < 2 ^ 24) →
      ∃ m, run m { s with pending := zs.flatMap chunkEvents } = .next (withHost [] 0 (absorbBytes s xs.flatten)) := by
    intro zs hflat hzs
    have hs' : Absorbing { s with pending := zs.flatMap chunkEvents } := ⟨hs.withData .., hphase, hb⟩
    obtain ⟨m, hm⟩ := chunks_run hs' ha hzs (by rw [hflat]; exact htotal) rfl
    have hhost : absorbBytes { s with pending := zs.flatMap chunkEvents } zs.flatten
        = withHost (zs.flatMap chunkEvents) s.addRemain (absorbBytes s xs.flatten) := by
      rw [← hflat]
      exact absorbBytes_withHost _ _ s _
    exact ⟨m, by rw [hm, hhost]; rfl⟩
  obtain ⟨m, hm⟩ := hrun xs rfl hxs
  obtain ⟨n, hn⟩ := hrun ys heq.symm hys
  obtain ⟨hphase', hbusy'⟩ := absorbBytes_absorbing xs.flatten hphase hb
  exact ⟨m, n, _, hm, hn, rfl, hbusy', hphase', rfl⟩

end Sys2Proof.Machine
end

section
/-! The digest is read in order, and reading it changes no hash state (40_block_engine.md R114, R116). -/

namespace Sys2Proof.Machine

/-- The state after k reads of DOUT, the last accesses of the host. -/
def afterReads (k : Nat) (s : State) : State :=
  { s with
    doutRemain := s.doutRemain - BitVec.ofNat 7 k
    reads := s.reads ++ ((s.digest.drop (digestBytes s.alg - s.doutRemain.toNat)).take k).map (·.setWidth 32)
    pending := [] }

/-- The state after one read of DOUT that returns byte b. -/
def afterRead (b : Byte) (s : State) : State :=
  { s with
    doutRemain := s.doutRemain - 1
    reads := s.reads ++ [b.setWidth 32]
    pending := s.pending.tail }

theorem doutRemain_pred_toNat {s : State} {k : Nat} (hk : k + 1 ≤ s.doutRemain.toNat) :
    (s.doutRemain - 1).toNat = s.doutRemain.toNat - 1 := by
  bv_omega

/-- One read and then k more are k + 1 reads. -/
theorem afterReads_afterRead {s : State} {b : Byte} {k : Nat} (hk : k + 1 ≤ s.doutRemain.toNat)
    (hle : s.doutRemain.toNat ≤ digestBytes s.alg)
    (hget : s.digest[digestBytes s.alg - s.doutRemain.toNat]? = some b) :
    afterReads k (afterRead b s) = afterReads (k + 1) s := by
  have hcount : s.doutRemain - 1 - BitVec.ofNat 7 k = s.doutRemain - BitVec.ofNat 7 (k + 1) := by
    rw [BitVec.ofNat_add]
    bv_omega
  have hnext : digestBytes s.alg - (s.doutRemain - 1).toNat = digestBytes s.alg - s.doutRemain.toNat + 1 := by
    rw [doutRemain_pred_toNat hk]
    omega
  obtain ⟨hlt, hb⟩ := List.getElem?_eq_some_iff.mp hget
  have hbytes : (s.digest.drop (digestBytes s.alg - s.doutRemain.toNat)).take (k + 1)
      = b :: (s.digest.drop (digestBytes s.alg - (s.doutRemain - 1).toNat)).take k := by
    rw [List.drop_eq_getElem_cons hlt, hb, List.take_succ_cons, hnext]
  rw [afterReads, afterReads, hbytes, List.map_cons, List.append_cons, ← hcount]
  rfl

/-- Reads of DOUT return the next digest bytes, as many as are armed. -/
theorem readDout_run {s : State} {k : Nat} (hb : s.busy = false) (hp : s.phase ≠ .fault)
    (hpending : s.pending = List.replicate k (.access (encode .readDout))) (hk : k ≤ s.doutRemain.toNat)
    (hle : s.doutRemain.toNat ≤ digestBytes s.alg) : run k s = .next (afterReads k s) := by
  induction k generalizing s with
  | zero =>
    cases s
    cases hpending
    simp [run, afterReads]
  | succ k ih =>
    have h0 : s.doutRemain ≠ 0 := by
      intro h
      simp [h] at hk
    obtain ⟨b, hget, hexec⟩ := readDoutReturnsNextByte s hb hp h0 hle
    have hstep : step s = .next (afterRead b s) := (step_of_encode rfl hpending).trans hexec
    have hpred := doutRemain_pred_toNat hk
    have hrun : run k (afterRead b s) = .next (afterReads k (afterRead b s)) := by
      refine ih hb hp ?_ ?_ ?_
      · rw [afterRead, hpending]
        rfl
      · show k ≤ (s.doutRemain - 1).toNat
        omega
      · show (s.doutRemain - 1).toNat ≤ digestBytes s.alg
        omega
    rw [run_succ hstep, hrun, afterReads_afterRead hk hle hget]

theorem toNat_ofNat_digestBytes (alg : Alg) : (BitVec.ofNat 7 (digestBytes alg)).toNat = digestBytes alg := by
  cases alg <;> rfl

/-- Settles O25: GET_DIGEST arms every byte of the digest, and the reads start at byte 0. -/
theorem digestReadsInOrder : Obligations.DigestReadsInOrder := by
  unfold Obligations.DigestReadsInOrder
  intro s k hs hphase hk
  have hb : s.busy = false := by
    rw [← Bool.not_eq_true]
    intro h
    exact absurd (hphase.symm.trans (hs.busyPhase h)) (by decide)
  let issued : State :=
    { s with pending := .access (encode .getDigest) :: List.replicate k (.access (encode .readDout)) }
  have hexec : exec .getDigest issued = .next (armDigest issued.retire) :=
    command_of_legal _ hb (by simp [issued, hphase]) (by simp [issued, legal, hphase, (hs.finalEmpty hphase).2])
  have hstep : step issued = .next (armDigest issued.retire) := (step_of_encode rfl rfl).trans hexec
  have harmed : (armDigest issued.retire).doutRemain.toNat = digestBytes s.alg := toNat_ofNat_digestBytes s.alg
  have hrun := readDout_run (s := armDigest issued.retire) (k := k) hb (by simp [issued, armDigest, hphase]) rfl
    (harmed ▸ hk) (harmed ▸ le_rfl)
  refine ⟨_, (run_succ hstep).trans hrun, ?_, rfl, rfl, rfl, hphase, rfl⟩
  simp only [afterReads, harmed]
  show s.reads ++ ((s.digest.drop (digestBytes s.alg - digestBytes s.alg)).take k).map _ = _
  rw [Nat.sub_self, List.drop_zero]

end Sys2Proof.Machine
end

section
/-! The platform: its engines share nothing (60_exceptions.md R281), and an access of the host reaches the engines
whose block it is in (20_memory.md R71, R77, R79). -/

namespace Sys2Proof.Machine

/-- An engine's step is the platform's step where the engine is there and its own step completes. -/
theorem platformStep_eq_next_iff {k : Nat} {p q : Platform} :
    platformStep k p = some (.next q) ↔ ∃ s s', p[k]? = some s ∧ step s = .next s' ∧ p.set k s' = q := by
  unfold platformStep
  cases hk : p[k]? with
  | none => simp
  | some s => cases hstep : step s <;> simp [hstep]

theorem getElem?_set_of_getElem? {p : Platform} {k : Nat} {s : State} (h : p[k]? = some s) (s' : State) :
    (p.set k s')[k]? = some s' := by
  obtain ⟨hlt, -⟩ := List.getElem?_eq_some_iff.mp h
  exact List.getElem?_set_self hlt

theorem getElem?_platformAtReset {k : Nat} {s : State} (h : platformAtReset[k]? = some s) :
    s = { State.reset with engine := k } := by
  rw [platformAtReset, List.getElem?_map] at h
  obtain ⟨j, hj, rfl⟩ := Option.map_eq_some_iff.mp h
  obtain ⟨hlt, hjk⟩ := List.getElem?_eq_some_iff.mp hj
  rw [← hjk, List.getElem_range]

/-- Settles O47. -/
theorem enginesAreIndependent : Obligations.EnginesAreIndependent := by
  unfold Obligations.EnginesAreIndependent
  refine ⟨?own, ?alone, fun k s => getElem?_platformAtReset, ?count⟩
  case own =>
    intro k p q h
    obtain ⟨s, s', hk, hstep, rfl⟩ := platformStep_eq_next_iff.mp h
    exact ⟨fun j hj => List.getElem?_set_ne hj.symm, s, s', hk, hstep, getElem?_set_of_getElem? hk s'⟩
  case alone =>
    intro k p p' q heq h
    obtain ⟨s, s', hk, hstep, rfl⟩ := platformStep_eq_next_iff.mp h
    have hk' : p'[k]? = some s := heq ▸ hk
    exact ⟨_, platformStep_eq_next_iff.mpr ⟨s, s', hk', hstep, rfl⟩,
      (getElem?_set_of_getElem? hk' s').trans (getElem?_set_of_getElem? hk s').symm⟩
  case count =>
    rw [platformAtReset, List.length_map, List.length_range]
    exact Config.nInstances.property

/-! ### The host's access -/

/-- An access waits at the engine whose block it reaches. -/
theorem getElem?_hostIssueAt_of_reaches (base : Nat → Nat) (dir : Dir) (width : Width) (addr : Nat) (data : Word)
    {p : Platform} {k : Nat} {s : State} (hk : p[k]? = some s) (h : base k < addr + widthBytes width)
    (h' : addr < base k + 16) :
    (hostIssueAt base dir width addr data p)[k]? = some { s with
      pending := s.pending ++ [.access ⟨dir, width, (addr : Int) - (base k : Int), data⟩] } := by
  rw [getElem?_hostIssueAt, hk, Option.map_some, offsetIn_of_reaches h h']

/-- An access leaves the engines alone whose block it does not reach. -/
theorem getElem?_hostIssueAt_of_apart (base : Nat → Nat) (dir : Dir) (width : Width) (addr : Nat) (data : Word)
    (p : Platform) {k : Nat} (h : addr + widthBytes width ≤ base k ∨ base k + 16 ≤ addr) :
    (hostIssueAt base dir width addr data p)[k]? = p[k]? := by
  rw [getElem?_hostIssueAt, offsetIn_of_apart h]
  exact Option.map_id'

theorem mem_registers_of_offset_mem {addr base : Nat} (h : (addr : Int) - (base : Int) ∈ [0x0, 0x4, 0x8, 0xC]) :
    addr ∈ [base, base + 4, base + 8, base + 12] := by
  simp only [List.mem_cons, List.not_mem_nil, or_false] at h ⊢
  omega

/-- An access at a register's address, 32 bits wide, is in the register's block and in no block apart from it. -/
theorem register_reaches {addr base : Nat} (h : addr ∈ [base, base + 4, base + 8, base + 12]) :
    base ≤ addr ∧ addr + widthBytes .bits32 ≤ base + 16 := by
  simp only [List.mem_cons, List.not_mem_nil, or_false] at h
  simp only [widthBytes]
  omega

/-- Settles O48. -/
theorem hostReachesOneEngine : Obligations.HostReachesOneEngine := by
  unfold Obligations.HostReachesOneEngine
  refine ⟨?_, fun _ _ _ _ _ => rfl⟩
  intro base dir width addr data p q n
  have hn : n = widthBytes width := by cases width <;> rfl
  rw [hn]
  refine ⟨length_hostIssueAt .., ?engine, ?register, ?undefined⟩
  case engine =>
    exact fun k s hk => ⟨fun ⟨h, h'⟩ => getElem?_hostIssueAt_of_reaches _ _ _ _ _ hk h h',
      fun h => (getElem?_hostIssueAt_of_apart _ _ _ _ _ _ h).trans hk⟩
  case register =>
    rintro k rfl hreg
    obtain ⟨hlow, hhigh⟩ := register_reaches hreg
    have hpos : 0 < widthBytes .bits32 := by decide
    refine ⟨by omega, by omega, fun j hapart => getElem?_hostIssueAt_of_apart _ _ _ _ _ _ ?_⟩
    omega
  case undefined =>
    intro k h s rest hpending
    refine step_of_decode_undefined hpending (decode_eq_undefined ?_)
    exact h.imp_right fun hout hin => hout (mem_registers_of_offset_mem hin)

end Sys2Proof.Machine
end
